-- ==== Sys2Proof/Word.lean ====
section
/-!
DEFINITION. The word types of the DMA core.
R81: every value the core moves or interprets is a whole 32-bit word. R80: system memory is byte addressed, with addresses of
PADDR_WIDTH bits, 32 to 64 (R10), which are kept in 64 bits (log 11).
-/
namespace Sys2Proof

/-- One byte of system memory (R84). -/
abbrev Byte := BitVec 8

/-- One word: a flit, a FIFO entry, a register, a lock or descriptor field (R81, D1). -/
abbrev Word := BitVec 32

/-- A bus address, in 64 bits whatever PADDR_WIDTH is (R10, R80; log 11). -/
abbrev Addr := BitVec 64

end Sys2Proof
end

