-- ==== Sys2Proof/Config.lean ====
section
/-!
DEFINITION. The implementation parameters of the DMA core (R10) and the names their values are written in, and the one value the spec leaves open for some operands.
They are construction-time constants: State holds them in its field params, and no step changes it (log 1).
-/
namespace Sys2Proof

/-- The direction of a channel, fixed at construction (R11, R38): FROM_MEMORY moves memory to the port, TO_MEMORY the port to memory. -/
inductive Direction where
  | fromMemory
  | toMemory
deriving DecidableEq, Repr

/-- LOCK_GRANULARITY (R10, R270): bursts moved per lock hold. -/
inductive LockGranularity where
  | perBurst
  | perGroup
deriving DecidableEq, Repr

/-- BYTE_ORDER (R10, R81): how the four bytes of a word are ordered in memory. The spec names the little-endian default and lists no set of values: that they
are little-endian and big-endian and no other is the model's choice (log 29, DESIGN CHOICE). -/
inductive ByteOrder where
  | little
  | big
deriving DecidableEq, Repr

/-- The parameters of R10. WORD_BYTES is fixed at 4 (D1) and is no field. -/
structure Params where
  /-- N_CHANNELS (D3). -/
  nChannels : Nat
  /-- PADDR_WIDTH (D2). -/
  paddrWidth : Nat
  /-- BURST_BYTES (D4). -/
  burstBytes : Nat
  /-- FIFO_DEPTH, in words (D5). -/
  fifoDepth : Nat
  /-- N_SCRATCH (D33). -/
  nScratch : Nat
  /-- BC_BITS (D29). -/
  bcBits : Nat
  /-- DIR[k], channel 0 first (D7). -/
  dirs : List Direction
  /-- LOCK_GRANULARITY (D20). -/
  granularity : LockGranularity
  /-- CFG_BASE, the platform address of the register block (D6). The core never reads it (log 24). -/
  cfgBase : Nat
  /-- BYTE_ORDER (D25). -/
  byteOrder : ByteOrder
deriving DecidableEq, Repr

/-- BURST_WORDS = BURST_BYTES / 4 (R10). -/
def Params.burstWords (p : Params) : Nat := p.burstBytes / 4

/-- DIR[k] (R38). A number that is no channel reads as FROM_MEMORY: no rule asks for it. -/
def Params.dir (p : Params) (k : Nat) : Direction := p.dirs.getD k .fromMemory

/-- TAG_BITS = max(1, ceil(log2(N_CHANNELS))) (R10, D27): the least width of at least one bit that numbers every channel. -/
def Params.tagBits (p : Params) : Nat :=
  ((List.range 10).find? fun b => decide (1 ≤ b) && decide (p.nChannels ≤ 2 ^ b)).getD 10

/-- The constraints of R10. -/
abbrev Params.Wf (p : Params) : Prop :=
  1 ≤ p.nChannels ∧ p.nChannels ≤ 511 ∧ 32 ≤ p.paddrWidth ∧ p.paddrWidth ≤ 64 ∧
  p.burstBytes % 4 = 0 ∧ 4 ≤ p.burstBytes ∧ p.burstBytes ≤ 65532 ∧ p.burstWords ≤ p.fifoDepth ∧
  p.nScratch ≤ 16 ∧ 1 ≤ p.bcBits ∧ p.bcBits ≤ 32 ∧ p.dirs.length = p.nChannels

/-- The parameters of the worked examples (95_test_vectors.md), which State.reset takes. DESIGN CHOICE (log 1): the spec leaves every
one of them to the implementation (R10); CFG_BASE has no value there and is 0 here. -/
def Params.vectors : Params where
  nChannels := 2
  paddrWidth := 40
  burstBytes := 16
  fifoDepth := 8
  nScratch := 4
  bcBits := 8
  dirs := [.fromMemory, .toMemory]
  granularity := .perBurst
  cfgBase := 0
  byteOrder := .little

/-- The free value of x mod CAP_W where CAP_W = 0: R12 gives mod no result there, and R272 is met with it only where SIZE is cleared under a burst in flight, after
CANCEL_UNSUPPORTED (log 30, DESIGN CHOICE). Nothing constrains it. -/
opaque Config.modZero : Nat → Word

end Sys2Proof
end

