-- ==== Sys2Proof/Syntax.lean ====
section
/-!
DEFINITION. The instructions: one constructor per row of spec/opcode_table.json. Channel and scratch numbers are Nat, checked by
WellFormed against the parameters; v is the 32-bit word written (cfg_wdata).
-/
namespace Sys2Proof

/-- The 37 rows of the opcode table: 26 register accesses (format CFG, R160 to R188), 8 request types (format REQ, R304 to R311)
and 3 bus commands (format BUSCMD, R85 to R87). -/
inductive Instr where
  /-- RD BUFFER_ADDR_LO[k] (R163). -/
  | rdBufferAddrLo (k : Nat)
  /-- WR BUFFER_ADDR_LO[k], v (R164). -/
  | wrBufferAddrLo (k : Nat) (v : Word)
  /-- RD BUFFER_ADDR_HI[k] (R165). -/
  | rdBufferAddrHi (k : Nat)
  /-- WR BUFFER_ADDR_HI[k], v (R166). -/
  | wrBufferAddrHi (k : Nat) (v : Word)
  /-- RD DESC_ADDR_LO[k] (R167). -/
  | rdDescAddrLo (k : Nat)
  /-- WR DESC_ADDR_LO[k], v (R168). -/
  | wrDescAddrLo (k : Nat) (v : Word)
  /-- RD DESC_ADDR_HI[k] (R169). -/
  | rdDescAddrHi (k : Nat)
  /-- WR DESC_ADDR_HI[k], v (R170). -/
  | wrDescAddrHi (k : Nat) (v : Word)
  /-- RD LOCK_ADDR_LO[k] (R171). -/
  | rdLockAddrLo (k : Nat)
  /-- WR LOCK_ADDR_LO[k], v (R172). -/
  | wrLockAddrLo (k : Nat) (v : Word)
  /-- RD LOCK_ADDR_HI[k] (R173). -/
  | rdLockAddrHi (k : Nat)
  /-- WR LOCK_ADDR_HI[k], v (R174). -/
  | wrLockAddrHi (k : Nat) (v : Word)
  /-- RD DIRECTION[k] (R181). -/
  | rdDirection (k : Nat)
  /-- WR DIRECTION[k], v (R182). -/
  | wrDirection (k : Nat) (v : Word)
  /-- RD MODE[k] (R175). -/
  | rdMode (k : Nat)
  /-- WR MODE[k], v (R176). -/
  | wrMode (k : Nat) (v : Word)
  /-- RD SIZE[k] (R177). -/
  | rdSize (k : Nat)
  /-- WR SIZE[k], v (R178). -/
  | wrSize (k : Nat) (v : Word)
  /-- RD RUNNING[k] (R179). -/
  | rdRunning (k : Nat)
  /-- WR RUNNING[k], v (R180). -/
  | wrRunning (k : Nat) (v : Word)
  /-- RD STATUS[k] (R183). -/
  | rdStatus (k : Nat)
  /-- WR STATUS[k], v (R184). -/
  | wrStatus (k : Nat) (v : Word)
  /-- RD SCRATCH[i] (R185). -/
  | rdScratch (i : Nat)
  /-- WR SCRATCH[i], v (R186). -/
  | wrScratch (i : Nat) (v : Word)
  /-- RD of a reserved encoding, at register offset addr (R126, R187). -/
  | rdReserved (addr : BitVec 15)
  /-- WR of a reserved encoding, at register offset addr (R126, R188). -/
  | wrReserved (addr : BitVec 15) (v : Word)
  /-- TICKET_READ for channel k (R304): the generator offers the transaction's next command flit (R302). -/
  | ticketRead (k : Nat)
  /-- TICKET_CAS for channel k (R305): the generator offers the transaction's next command flit (R302). -/
  | ticketCas (k : Nat)
  /-- LOCK_READ for channel k (R306): the generator offers the transaction's next command flit (R302). -/
  | lockRead (k : Nat)
  /-- STATUS_READ for channel k (R307): the generator offers the transaction's next command flit (R302). -/
  | statusRead (k : Nat)
  /-- DATA_READ for channel k (R308): the generator offers the transaction's next command flit (R302). -/
  | dataRead (k : Nat)
  /-- DATA_WRITE for channel k (R309): the generator offers the transaction's next command flit (R302). -/
  | dataWrite (k : Nat)
  /-- STATUS_WRITE for channel k (R310): the generator offers the transaction's next command flit (R302). -/
  | statusWrite (k : Nat)
  /-- LOCK_RELEASE for channel k (R311): the generator offers the transaction's next command flit (R302). -/
  | lockRelease (k : Nat)
  /-- BUS READ (R85): the bus takes a command flit with these fields (R133) and performs the transaction after its last one (R96 B2). -/
  | busRead (addr : Addr) (plen : BitVec 16) (wdata : Word) (eop : Bool) (tag : Nat)
  /-- BUS WRITE (R86): the bus takes a command flit with these fields (R133) and performs the transaction after its last one (R96 B2). -/
  | busWrite (addr : Addr) (plen : BitVec 16) (wdata : Word) (eop : Bool) (tag : Nat)
  /-- BUS CAS (R87): the bus takes a command flit with these fields (R133) and performs the transaction after its last one (R96 B2). -/
  | busCas (addr : Addr) (plen : BitVec 16) (wdata : Word) (eop : Bool) (tag : Nat)
deriving DecidableEq, Repr

/-- A command flit as it stands on the wires between the generator and the bus (R133). The tag is a channel number. -/
structure CmdFlit where
  /-- The command code of R131, two bits. -/
  cmd : BitVec 2
  addr : Addr
  plen : BitVec 16
  wdata : Word
  eop : Bool
  tag : Nat
deriving DecidableEq, Repr

/-- What stands on one of the three interfaces before it is decoded: a register access as the 16-bit word of R129 with cfg_wdata, a
request as its 3-bit code (R130) with the posting channel, or a command flit (R133). -/
inductive RawInstr where
  | cfg (word : BitVec 16) (wdata : Word)
  | req (code : BitVec 3) (ch : Nat)
  | bus (flit : CmdFlit)
deriving DecidableEq, Repr

/-- The three formats of the opcode table. Their codes overlap, because each stands on an interface of its own. -/
inductive Format where
  | cfg
  | req
  | buscmd
deriving DecidableEq, Repr

/-- The format of each row of the opcode table: which interface its instruction arrives on. -/
def Instr.format : Instr → Format
  | .rdBufferAddrLo _ => .cfg
  | .wrBufferAddrLo _ _ => .cfg
  | .rdBufferAddrHi _ => .cfg
  | .wrBufferAddrHi _ _ => .cfg
  | .rdDescAddrLo _ => .cfg
  | .wrDescAddrLo _ _ => .cfg
  | .rdDescAddrHi _ => .cfg
  | .wrDescAddrHi _ _ => .cfg
  | .rdLockAddrLo _ => .cfg
  | .wrLockAddrLo _ _ => .cfg
  | .rdLockAddrHi _ => .cfg
  | .wrLockAddrHi _ _ => .cfg
  | .rdDirection _ => .cfg
  | .wrDirection _ _ => .cfg
  | .rdMode _ => .cfg
  | .wrMode _ _ => .cfg
  | .rdSize _ => .cfg
  | .wrSize _ _ => .cfg
  | .rdRunning _ => .cfg
  | .wrRunning _ _ => .cfg
  | .rdStatus _ => .cfg
  | .wrStatus _ _ => .cfg
  | .rdScratch _ => .cfg
  | .wrScratch _ _ => .cfg
  | .rdReserved _ => .cfg
  | .wrReserved _ _ => .cfg
  | .ticketRead _ => .req
  | .ticketCas _ => .req
  | .lockRead _ => .req
  | .statusRead _ => .req
  | .dataRead _ => .req
  | .dataWrite _ => .req
  | .statusWrite _ => .req
  | .lockRelease _ => .req
  | .busRead _ _ _ _ _ => .buscmd
  | .busWrite _ _ _ _ _ => .buscmd
  | .busCas _ _ _ _ _ => .buscmd

end Sys2Proof
end

