-- ==== Sys2Proof/WellFormed.lean ====
section
/-!
DEFINITION. Which instructions are well formed under given parameters. Each check is named, so that a test can show it refuses.
-/
namespace Sys2Proof

/-- The channel block k exists: 0 ≤ k < N_CHANNELS (R122, R130). -/
def channelOk (p : Params) (k : Nat) : Bool := decide (k < p.nChannels)

/-- Scratch register i exists: 0 ≤ i < N_SCRATCH (R124). -/
def scratchOk (p : Params) (i : Nat) : Bool := decide (i < p.nScratch)

/-- The register offset has no register behind it (R126): a byte offset other than 00, an index 11 .. 15 of a channel block, an index
from N_SCRATCH on in the scratch block, or a block past the scratch block. -/
def reservedAddr (p : Params) (addr : BitVec 15) : Bool :=
  let block := addr.toNat / 64
  let index := addr.toNat / 4 % 16
  decide (addr.toNat % 4 ≠ 0) ||
    (decide (block < p.nChannels) && decide (11 ≤ index)) ||
    (decide (block = p.nChannels) && decide (p.nScratch ≤ index)) ||
    decide (p.nChannels < block)

/-- A data request goes with the direction of its channel: DATA_READ with FROM_MEMORY, DATA_WRITE with TO_MEMORY (R308, R309). -/
def directionOk (p : Params) (k : Nat) (d : Direction) : Bool := decide (p.dir k = d)

/-- A bus address fits in PADDR_WIDTH bits and is a multiple of 4 (R83, R133). -/
def busAddrOk (p : Params) (addr : Addr) : Bool :=
  decide (addr.toNat < 2 ^ p.paddrWidth) && decide (addr.toNat % 4 = 0)

/-- A length is a whole number of words (R82, R85). -/
def plenOk (plen : BitVec 16) : Bool := decide (plen.toNat % 4 = 0)

/-- Instruction i is well formed under the parameters p. -/
def WellFormed (p : Params) : Instr → Bool
  | .rdBufferAddrLo k => channelOk p k
  | .wrBufferAddrLo k _ => channelOk p k
  | .rdBufferAddrHi k => channelOk p k
  | .wrBufferAddrHi k _ => channelOk p k
  | .rdDescAddrLo k => channelOk p k
  | .wrDescAddrLo k _ => channelOk p k
  | .rdDescAddrHi k => channelOk p k
  | .wrDescAddrHi k _ => channelOk p k
  | .rdLockAddrLo k => channelOk p k
  | .wrLockAddrLo k _ => channelOk p k
  | .rdLockAddrHi k => channelOk p k
  | .wrLockAddrHi k _ => channelOk p k
  | .rdDirection k => channelOk p k
  | .wrDirection k _ => channelOk p k
  | .rdMode k => channelOk p k
  | .wrMode k _ => channelOk p k
  | .rdSize k => channelOk p k
  | .wrSize k _ => channelOk p k
  | .rdRunning k => channelOk p k
  | .wrRunning k _ => channelOk p k
  | .rdStatus k => channelOk p k
  | .wrStatus k _ => channelOk p k
  | .rdScratch i => scratchOk p i
  | .wrScratch i _ => scratchOk p i
  | .rdReserved addr => reservedAddr p addr
  | .wrReserved addr _ => reservedAddr p addr
  | .ticketRead k => channelOk p k
  | .ticketCas k => channelOk p k
  | .lockRead k => channelOk p k
  | .statusRead k => channelOk p k
  | .dataRead k => channelOk p k && directionOk p k .fromMemory
  | .dataWrite k => channelOk p k && directionOk p k .toMemory
  | .statusWrite k => channelOk p k
  | .lockRelease k => channelOk p k
  | .busRead addr plen _ _ tag => channelOk p tag && busAddrOk p addr && plenOk plen
  | .busWrite addr plen _ _ tag => channelOk p tag && busAddrOk p addr && plenOk plen
  | .busCas addr plen _ _ tag => channelOk p tag && busAddrOk p addr && decide (plen = 4)

end Sys2Proof
end

