-- ==== Sys2Proof/Decode.lean ====
section
/-!
DEFINITION. The decoder, total on whatever stands on an interface, and the encoder, both from the tables of 30_encoding.md.
The three formats CFG, REQ and BUSCMD are three encoding spaces (R129, R130, R131): each is decoded where it arrives.
-/
namespace Sys2Proof

/-- Why the decoder gives no instruction. -/
inductive DecodeError where
  /-- Bus command code 3 (R131). -/
  | reservedBusCommand
  /-- A request or a command flit for a channel number from N_CHANNELS on (R130, R133). -/
  | noSuchChannel
deriving DecidableEq, Repr

/-- cfg_we, bit 15 of the access word (R129). -/
def wordWe (w : BitVec 16) : Bool := w.getLsbD 15

/-- The block field, bits [14:6] (R121). -/
def wordBlock (w : BitVec 16) : Nat := (w.extractLsb' 6 9).toNat

/-- The index field, bits [5:2] (R121). -/
def wordIndex (w : BitVec 16) : Nat := (w.extractLsb' 2 4).toNat

/-- The byte field, bits [1:0] (R121). -/
def wordByte (w : BitVec 16) : Nat := (w.extractLsb' 0 2).toNat

/-- cfg_addr, bits [14:0] (R129). -/
def wordOffset (w : BitVec 16) : BitVec 15 := w.extractLsb' 0 15

/-- The channel registers by index (R123); indices 11 .. 15 are reserved. -/
def rdChannelRegister (k : Nat) : Nat → Option Instr
  | 0 => some (.rdBufferAddrLo k)
  | 1 => some (.rdBufferAddrHi k)
  | 2 => some (.rdDescAddrLo k)
  | 3 => some (.rdDescAddrHi k)
  | 4 => some (.rdLockAddrLo k)
  | 5 => some (.rdLockAddrHi k)
  | 6 => some (.rdDirection k)
  | 7 => some (.rdMode k)
  | 8 => some (.rdSize k)
  | 9 => some (.rdRunning k)
  | 10 => some (.rdStatus k)
  | _ => none

/-- The writes of the channel registers by index (R123). -/
def wrChannelRegister (k : Nat) (v : Word) : Nat → Option Instr
  | 0 => some (.wrBufferAddrLo k v)
  | 1 => some (.wrBufferAddrHi k v)
  | 2 => some (.wrDescAddrLo k v)
  | 3 => some (.wrDescAddrHi k v)
  | 4 => some (.wrLockAddrLo k v)
  | 5 => some (.wrLockAddrHi k v)
  | 6 => some (.wrDirection k v)
  | 7 => some (.wrMode k v)
  | 8 => some (.wrSize k v)
  | 9 => some (.wrRunning k v)
  | 10 => some (.wrStatus k v)
  | _ => none

/-- A read access: the register behind the block and index fields, or a reserved encoding (R121 to R126). -/
def decodeRead (p : Params) (w : BitVec 16) : Instr :=
  if wordByte w ≠ 0 then .rdReserved (wordOffset w)
  else if wordBlock w < p.nChannels then
    (rdChannelRegister (wordBlock w) (wordIndex w)).getD (.rdReserved (wordOffset w))
  else if wordBlock w = p.nChannels ∧ wordIndex w < p.nScratch then .rdScratch (wordIndex w)
  else .rdReserved (wordOffset w)

/-- A write access: the register behind the block and index fields, or a reserved encoding (R121 to R126). -/
def decodeWrite (p : Params) (w : BitVec 16) (v : Word) : Instr :=
  if wordByte w ≠ 0 then .wrReserved (wordOffset w) v
  else if wordBlock w < p.nChannels then
    (wrChannelRegister (wordBlock w) v (wordIndex w)).getD (.wrReserved (wordOffset w) v)
  else if wordBlock w = p.nChannels ∧ wordIndex w < p.nScratch then .wrScratch (wordIndex w) v
  else .wrReserved (wordOffset w) v

/-- The request types by code (R130): all eight codes are used. -/
def requestOfCode (code : BitVec 3) (k : Nat) : Instr :=
  match code.toNat with
  | 0 => .ticketRead k
  | 1 => .ticketCas k
  | 2 => .lockRead k
  | 3 => .statusRead k
  | 4 => .dataRead k
  | 5 => .dataWrite k
  | 6 => .statusWrite k
  | _ => .lockRelease k

/-- The bus commands by code (R131): 0 READ, 1 WRITE, 2 CAS, 3 reserved. -/
def decodeFlit (f : CmdFlit) : Except DecodeError Instr :=
  match f.cmd.toNat with
  | 0 => .ok (.busRead f.addr f.plen f.wdata f.eop f.tag)
  | 1 => .ok (.busWrite f.addr f.plen f.wdata f.eop f.tag)
  | 2 => .ok (.busCas f.addr f.plen f.wdata f.eop f.tag)
  | _ => .error .reservedBusCommand

/-- The decoder: total on anything an interface can carry. -/
def decode (p : Params) : RawInstr → Except DecodeError Instr
  | .cfg word wdata => .ok (if wordWe word then decodeWrite p word wdata else decodeRead p word)
  | .req code ch => if ch < p.nChannels then .ok (requestOfCode code ch) else .error .noSuchChannel
  | .bus flit => if flit.tag < p.nChannels then decodeFlit flit else .error .noSuchChannel

/-- The access word {we, cfg_addr} with cfg_addr = 64*block + 4*index (R121, R129). -/
def accessWord (we : Bool) (block index : Nat) : BitVec 16 :=
  BitVec.ofBool we ++ (BitVec.ofNat 9 block ++ (BitVec.ofNat 4 index ++ 0#2))

/-- What stands on the interface for an instruction: the encoder, from the same tables (R123, R124, R129 to R133). A read drives no
cfg_wdata; the encoder puts 0 there. -/
def encode (p : Params) : Instr → RawInstr
  | .rdBufferAddrLo k => .cfg (accessWord false k 0) 0
  | .wrBufferAddrLo k v => .cfg (accessWord true k 0) v
  | .rdBufferAddrHi k => .cfg (accessWord false k 1) 0
  | .wrBufferAddrHi k v => .cfg (accessWord true k 1) v
  | .rdDescAddrLo k => .cfg (accessWord false k 2) 0
  | .wrDescAddrLo k v => .cfg (accessWord true k 2) v
  | .rdDescAddrHi k => .cfg (accessWord false k 3) 0
  | .wrDescAddrHi k v => .cfg (accessWord true k 3) v
  | .rdLockAddrLo k => .cfg (accessWord false k 4) 0
  | .wrLockAddrLo k v => .cfg (accessWord true k 4) v
  | .rdLockAddrHi k => .cfg (accessWord false k 5) 0
  | .wrLockAddrHi k v => .cfg (accessWord true k 5) v
  | .rdDirection k => .cfg (accessWord false k 6) 0
  | .wrDirection k v => .cfg (accessWord true k 6) v
  | .rdMode k => .cfg (accessWord false k 7) 0
  | .wrMode k v => .cfg (accessWord true k 7) v
  | .rdSize k => .cfg (accessWord false k 8) 0
  | .wrSize k v => .cfg (accessWord true k 8) v
  | .rdRunning k => .cfg (accessWord false k 9) 0
  | .wrRunning k v => .cfg (accessWord true k 9) v
  | .rdStatus k => .cfg (accessWord false k 10) 0
  | .wrStatus k v => .cfg (accessWord true k 10) v
  | .rdScratch i => .cfg (accessWord false p.nChannels i) 0
  | .wrScratch i v => .cfg (accessWord true p.nChannels i) v
  | .rdReserved addr => .cfg (0#1 ++ addr) 0
  | .wrReserved addr v => .cfg (1#1 ++ addr) v
  | .ticketRead k => .req 0 k
  | .ticketCas k => .req 1 k
  | .lockRead k => .req 2 k
  | .statusRead k => .req 3 k
  | .dataRead k => .req 4 k
  | .dataWrite k => .req 5 k
  | .statusWrite k => .req 6 k
  | .lockRelease k => .req 7 k
  | .busRead addr plen wdata eop tag => .bus ⟨0, addr, plen, wdata, eop, tag⟩
  | .busWrite addr plen wdata eop tag => .bus ⟨1, addr, plen, wdata, eop, tag⟩
  | .busCas addr plen wdata eop tag => .bus ⟨2, addr, plen, wdata, eop, tag⟩

/-- What an interface carries when the instruction's bits are w, bit 0 the least significant bit of its first word. CFG: the access
word in bits 15..0 and cfg_wdata in bits 47..16. REQ: the code in bits 2..0 and the channel in bits 16..8. BUSCMD: the command in bits 1..0
and then, from bit 8 on, addr (64 bits), plen (16), wdata (32), eop (1) and tag (9). DESIGN CHOICE (log 9): the table gives no bits to what
follows the first field. -/
def rawOfBits (fmt : Format) (w : Nat) : RawInstr :=
  match fmt with
  | .cfg => .cfg (BitVec.ofNat 16 w) (BitVec.ofNat 32 (w / 2 ^ 16))
  | .req => .req (BitVec.ofNat 3 w) (w / 2 ^ 8 % 2 ^ 9)
  | .buscmd =>
    .bus ⟨BitVec.ofNat 2 w, BitVec.ofNat 64 (w / 2 ^ 8), BitVec.ofNat 16 (w / 2 ^ 72), BitVec.ofNat 32 (w / 2 ^ 88),
      (w / 2 ^ 120) % 2 == 1, w / 2 ^ 121 % 2 ^ 9⟩

/-- Which interface a table word of nbits bits stands on: 16 bits and more is a register access; the REQ and BUSCMD rows share their 8-bit
words, and such a word is taken as a request unless its bit 7 is set. DESIGN CHOICE (log 9). -/
def tableFormat (nbits w : Nat) : Format :=
  if 16 ≤ nbits then .cfg
  else if nbits ≤ 2 then .buscmd
  else if w / 2 ^ 7 % 2 = 1 then .buscmd
  else .req

/-- The raw instruction a table word stands for; every bit above nbits is 0. -/
def tableRaw (nbits w : Nat) : RawInstr := rawOfBits (tableFormat nbits w) (w % 2 ^ nbits)

/-- The instruction the decoder reads from a table word, under the parameters State.reset takes. -/
def decodeTableWord (nbits w : Nat) : Option Instr :=
  match decode Params.vectors (tableRaw nbits w) with
  | .ok i => some i
  | .error _ => none

end Sys2Proof
end

