-- ==== Sys2Proof/Machine/State.lean ====
section
/-!
DEFINITION. The state of the machine: the DMA core's registers and working state (10_state.md), the bus and the memory it talks to
(20_memory.md), and the script of the environment's inputs. Plain data throughout.
-/
namespace Sys2Proof.Machine

/-- MODE (R35, R125). The value 3 is illegal and never stored (R176). -/
inductive Mode where
  | sharedQueue
  | bulkIrq
  | bulkNoIrq
deriving DecidableEq, Repr

/-- The fourteen states of a channel (R42, R127). -/
inductive FsmState where
  | idle
  | ack
  | bulkDataMove
  | ticketRead
  | ticketCas
  | lockRead
  | statusRead
  | dataMove
  | statusUpdate
  | lockRelease
  | success
  | errorLock
  | errorDescriptor
  | errorData
deriving DecidableEq, Repr

/-- The eight request types (R49, R130). -/
inductive ReqType where
  | ticketRead
  | ticketCas
  | lockRead
  | statusRead
  | dataRead
  | dataWrite
  | statusWrite
  | lockRelease
deriving DecidableEq, Repr

/-- The configuration registers of one channel (R32 to R37). DIRECTION is a constant (R38) and STATUS is computed (R39). -/
structure ChanRegs where
  /-- BUFFER_ADDR, PADDR_WIDTH bits (R32). -/
  bufferAddr : Addr
  /-- DESC_ADDR, PADDR_WIDTH bits (R33). -/
  descAddr : Addr
  /-- LOCK_ADDR, PADDR_WIDTH bits (R34). -/
  lockAddr : Addr
  mode : Mode
  size : Word
  running : Bool
deriving DecidableEq, Repr

/-- One channel: its configuration registers, working state (R42 to R47), handshake state (R48 to R53) and FIFO (R54). -/
structure Channel where
  regs : ChanRegs
  state : FsmState
  /-- remaining, BC_BITS bits (R43; log 11). -/
  remaining : BitVec 32
  offset : Word
  ticket : Word
  sqOcc : Word
  sqRd : Word
  sqWr : Word
  /-- sq_chunk, BC_BITS bits (R47; log 11). -/
  sqChunk : BitVec 32
  /-- sq_moved, BC_BITS bits (R47; log 11). -/
  sqMoved : BitVec 32
  reqValid : Bool
  reqType : ReqType
  reqIssued : Bool
  rspReady : Bool
  rspErr : Bool
  rspData0 : Word
  rspData1 : Word
  rspData2 : Word
  /-- fifo[k], oldest word first (R54, R370). -/
  fifo : List Word
deriving DecidableEq, Repr

/-- The command generator (R55). -/
structure Gen where
  busy : Bool
  ch : Nat
  idx : BitVec 16
  rrLast : Nat
deriving DecidableEq, Repr

/-- The response demultiplexer (R56). -/
structure Dmx where
  busy : Bool
  ch : Nat
  cnt : BitVec 16
  need : BitVec 16
  err : Bool
deriving DecidableEq, Repr

/-- A response flit (R134). The tag is a channel number. -/
structure RspFlit where
  rtag : Nat
  rdata : Word
  rerror : Bool
deriving DecidableEq, Repr

/-- What a transaction does on memory (R131). -/
inductive BusOp where
  | read
  | write
  | cas
deriving DecidableEq, Repr

/-- The bus's free choices about one transaction (R96): the error bit of each response flit (B5), which words an erroring transaction leaves
unwritten (R96, last paragraph), and the response words the spec leaves open (rdata of a WRITE, the non-zero result of a failed CAS). -/
structure Plan where
  errs : List Bool
  drops : List Bool
  fill : List Word
deriving DecidableEq, Repr

/-- A transaction the bus has accepted whole: the command flit's fields, the write words in order, the bus's choices, and for each of its word
accesses the response word, once that access is performed (R85, R86, R96 B2 to B4). -/
structure Txn where
  op : BusOp
  addr : Addr
  plen : BitVec 16
  tag : Nat
  wdata : List Word
  plan : Plan
  rdata : List (Option Word)
deriving DecidableEq, Repr

/-- The bus (R96): the command flit it takes in this tick, the write words of the transaction being taken, the transactions
accepted, the rest of the response group being returned, and the response flit offered now. -/
structure Bus where
  wire : Option CmdFlit
  asm : List Word
  txns : List Txn
  group : List RspFlit
  rsp : Option RspFlit
deriving DecidableEq, Repr

/-- What one port drives in one tick (R128). A burst count has BC_BITS bits: the bits above are not wires. A port that has raised a request
holds it and its burst count whatever the script says (R384 P1; State.held). -/
structure PortIn where
  req : Bool
  burstCount : BitVec 32
  rready : Bool
  wvalid : Bool
  wdata : Word
deriving DecidableEq, Repr

/-- A configuration access (R120, R129): the word {cfg_we, cfg_addr} and cfg_wdata. -/
structure CfgAccess where
  word : BitVec 16
  wdata : Word
deriving DecidableEq, Repr

/-- One atomic word access on memory beside the performing of a transaction at its acceptance: word j of the i-th accepted transaction, in the
order the bus chooses, or a word written by another agent (R85, R86, R88). -/
inductive BusAct where
  | word (i j : Nat)
  | poke (addr : Addr) (v : Word)
deriving DecidableEq, Repr

/-- The environment's inputs of one tick (R9): the configuration access, what each port drives, and the bus's choices. -/
structure TickIn where
  cfg : Option CfgAccess
  ports : List PortIn
  /-- The bus takes an offered command flit in this tick (B1). -/
  cmdReady : Bool
  /-- The bus puts off performing the transaction whose last flit it takes in this tick. -/
  deferred : Bool
  /-- The bus's choices about the transaction whose last flit it takes in this tick. -/
  plan : Plan
  /-- The word accesses of this tick, in order, after that transaction's own. -/
  acts : List BusAct
  /-- At the end of the tick the bus goes on with the response group begun, or begins the group of the i-th accepted transaction. -/
  respond : Option Nat
deriving DecidableEq, Repr

/-- The reply of the last tick's configuration access: cfg_rdata and cfg_err of a read, cfg_err of a write (R120; log 6). -/
inductive CfgReply where
  | idle
  | read (rdata : Word) (err : Bool)
  | written (err : Bool)
deriving DecidableEq, Repr

/-- The model faults of R440. Each is recorded for good in State.faults by the tick that raises it (R59, R440); the part of the tick that raised it changes
nothing else. After a tick that recorded one other than cancelUnsupported the machine is stuck: the next step ends in that fault, since the spec gives the run
no meaning (log 4). Each errs toward unprovable (R440): safe. -/
inductive Fault where
  /-- Raised by a write of an illegal MODE, a misaligned address or size, or a start with no size or a region that does not fit
  (R164, R168, R172, R176, R178, R180). Safe. -/
  | configDefect
  /-- Raised by a stop in the middle of a transaction (R180). The run goes on, as R180 and R215 say, so this name is never the reason a
  step ends. Safe: a claim takes the premise that nothing is recorded (R19). -/
  | cancelUnsupported
  /-- Raised when a channel consumes a descriptor out of range or misaligned (R269). Safe. -/
  | descInconsistent
  /-- Raised by the demultiplexer when the bus breaks a duty it can see (R348). Safe. -/
  | busProtocol
  /-- Raised by the generator when it offers a DATA_WRITE flit from an empty FIFO (R312). Safe. -/
  | genFifoEmpty
  /-- Raised by the demultiplexer when it would push into a full FIFO (R345). Safe. -/
  | fifoOverflow
deriving DecidableEq, Repr

/-- Why there is no meaning: none of these is met by a well-formed instruction or in a state with the core's shape. -/
inductive Refusal where
  /-- Raised by exec's arm of an instruction that has no meaning yet; there is none left. Safe. -/
  | notModelled (mnemonic : String)
  /-- Raised for a channel number from N_CHANNELS on, which is no operand of any instruction (R122, R130; log 13). Safe. -/
  | noSuchChannel
  /-- Raised for a scratch number from N_SCRATCH on, which is no operand of RD or WR SCRATCH (R124; log 13). Safe. -/
  | noSuchScratch
  /-- Raised for bus command code 3 on the command wires, which the core never issues (R131; log 13). Safe. -/
  | reservedBusCommand
deriving DecidableEq, Repr

/-- System memory as the bytes that differ from what an unlisted address reads as, addresses rising (R84; log 3). -/
abbrev Memory := List Host.Cell

/-- The machine: the core, the bus with the memory behind it, and the environment's script. -/
structure State where
  /-- The construction-time parameters (R10; log 1). No step changes them. -/
  params : Params
  /-- The channels, channel 0 first (R9). -/
  chans : List Channel
  /-- The scratch registers (R40). -/
  scratch : List Word
  gen : Gen
  dmx : Dmx
  /-- The recorded model faults (R59), no name twice. -/
  faults : List Fault
  /-- The reply of the last tick's configuration access (R120). -/
  cfgOut : CfgReply
  /-- System memory (R84). -/
  mem : Memory
  /-- The bus (R96). -/
  bus : Bus
  /-- Each port's request that is raised and not yet acknowledged, with its burst count (R384 P1); a port past the list's end holds none. -/
  held : List (Option (BitVec 32))
  /-- The inputs of the coming ticks, the next tick's first (R9; log 2). -/
  env : List TickIn
deriving DecidableEq, Repr

/-- A channel's configuration registers after reset (R460). -/
def ChanRegs.reset : ChanRegs where
  bufferAddr := 0
  descAddr := 0
  lockAddr := 0
  mode := .sharedQueue
  size := 0
  running := false

/-- A channel after reset (R460). -/
def Channel.reset : Channel where
  regs := ChanRegs.reset
  state := .idle
  remaining := 0
  offset := 0
  ticket := 0
  sqOcc := 0
  sqRd := 0
  sqWr := 0
  sqChunk := 0
  sqMoved := 0
  reqValid := false
  reqType := .ticketRead
  reqIssued := false
  rspReady := false
  rspErr := false
  rspData0 := 0
  rspData1 := 0
  rspData2 := 0
  fifo := []

/-- The bus with nothing accepted, nothing to answer and nothing offered. -/
def Bus.reset : Bus where
  wire := none
  asm := []
  txns := []
  group := []
  rsp := none

/-- The state of R460 for the parameters p: memory with nothing listed and no input scripted. -/
def State.resetWith (p : Params) : State where
  params := p
  chans := List.replicate p.nChannels Channel.reset
  scratch := List.replicate p.nScratch 0
  gen := ⟨false, 0, 0, p.nChannels - 1⟩
  dmx := ⟨false, 0, 0, 0, false⟩
  faults := []
  cfgOut := .idle
  mem := []
  bus := Bus.reset
  held := []
  env := []

/-- The machine right after reset (R460), with the parameters of 95_test_vectors.md (DESIGN CHOICE, log 1). -/
def State.reset : State := State.resetWith Params.vectors

/-- A port that drives nothing. -/
def PortIn.idle : PortIn := ⟨false, 0, false, false, 0⟩

/-- A bus that reports no error and drops nothing. -/
def Plan.clean : Plan := ⟨[], [], []⟩

/-- The inputs of a tick past the script's end: no configuration access, silent ports, and a bus that takes every flit, performs at once
and answers at once, oldest first. DESIGN CHOICE (log 2). -/
def TickIn.idle : TickIn where
  cfg := none
  ports := []
  cmdReady := true
  deferred := false
  plan := Plan.clean
  acts := []
  respond := some 0

end Sys2Proof.Machine
end

