-- ==== Sys2Proof/Machine/Ops.lean ====
section
/-!
DEFINITION. The named operations: outcomes in sequence, access to channels and to the tick's inputs, memory (R84 to R87), the bus's
performing of a transaction (R96), error entry and return (R207, R208, R213, R427, R428), and recording a model fault (R59).
-/
namespace Sys2Proof.Machine

/-- One part of a tick after another: the first that faults or is refused ends it. -/
def andThen {σ τ φ ρ : Type} (o : Host.Outcome σ φ ρ) (f : σ → Host.Outcome τ φ ρ) : Host.Outcome τ φ ρ :=
  match o with
  | .next s => f s
  | .fault r => .fault r
  | .refused r => .refused r

/-- The inputs of the tick about to be made. -/
def State.input (s : State) : TickIn := s.env.headD TickIn.idle

/-- What port k drives in the tick about to be made: what the script says, but for a request it has raised and that is not yet acknowledged, which it
holds with its burst count (R384 P1). -/
def State.port (s : State) (k : Nat) : PortIn :=
  let x := s.input.ports.getD k PortIn.idle
  match s.held.getD k none with
  | some n => { x with req := true, burstCount := n }
  | none => x

/-- s with channel k replaced. -/
def State.setChan (s : State) (k : Nat) (c : Channel) : State := { s with chans := s.chans.set k c }

/-- s with the reply of a configuration access. -/
def State.reply (s : State) (r : CfgReply) : State := { s with cfgOut := r }

/-- The meaning f of an operation on channel k, which has to exist (R122). -/
def withChan (s : State) (k : Nat) (f : Channel → Host.Outcome State Fault Refusal) : Host.Outcome State Fault Refusal :=
  match s.chans[k]? with
  | some c => f c
  | none => .refused .noSuchChannel

/-- Records a model fault for good: faults is a set, so a name already there is not added again (R59). -/
def State.recordFault (s : State) (f : Fault) : State :=
  { s with faults := if f ∈ s.faults then s.faults else s.faults ++ [f] }

/-! ### Widths and addresses (R12, R95) -/

/-- An address cut to PADDR_WIDTH bits (R12). -/
def truncAddr (p : Params) (a : Addr) : Addr := BitVec.ofNat 64 (a.toNat % 2 ^ p.paddrWidth)

/-- `a +_PADDR_WIDTH n` (R12, R95). -/
def addAddr (p : Params) (a : Addr) (n : Nat) : Addr := BitVec.ofNat 64 ((a.toNat + n) % 2 ^ p.paddrWidth)

/-- A burst count cut to BC_BITS bits (R43, R47, R128). -/
def truncCount (p : Params) (n : BitVec 32) : BitVec 32 := BitVec.ofNat 32 (n.toNat % 2 ^ p.bcBits)

/-! ### Memory (R84 to R87) -/

/-- What an address no list entry names reads as. DESIGN CHOICE (log 3): the spec leaves the first contents of memory open (U32). -/
def unlistedByte : Byte := 0

/-- The canonical form: addresses strictly rising, and no entry equal to what an unlisted address reads as. -/
abbrev Memory.wf (m : Memory) : Prop := m.Pairwise (fun x y => x.1 < y.1) ∧ ∀ c ∈ m, c.2 ≠ unlistedByte

/-- The byte of memory at a (R84). -/
def readByte : Memory → Nat → Byte
  | [], _ => unlistedByte
  | (b, v) :: m, a => if b = a then v else readByte m a

/-- Memory with the byte at a set to v, in canonical form (R84). -/
def writeByte : Memory → Nat → Byte → Memory
  | [], a, v => if v = unlistedByte then [] else [(a, v)]
  | (b, w) :: m, a, v =>
    if b < a then (b, w) :: writeByte m a v
    else if b = a then (if v = unlistedByte then m else (a, v) :: m)
    else (if v = unlistedByte then (b, w) :: m else (a, v) :: (b, w) :: m)

/-- The byte address of byte i of the word at a, inside the address space (R84, R95; log 12). -/
def byteAddr (p : Params) (a : Addr) (i : Nat) : Nat := (a.toNat + i) % 2 ^ p.paddrWidth

/-- `word(M, A)` under BYTE_ORDER (R81, R84). -/
def readWord (p : Params) (m : Memory) (a : Addr) : Word :=
  let b := fun i => readByte m (byteAddr p a i)
  match p.byteOrder with
  | .little => b 3 ++ (b 2 ++ (b 1 ++ b 0))
  | .big => b 0 ++ (b 1 ++ (b 2 ++ b 3))

/-- Byte i of the word v as BYTE_ORDER lays it out (R81). -/
def wordByteAt (p : Params) (v : Word) (i : Nat) : Byte :=
  match p.byteOrder with
  | .little => v.extractLsb' (8 * i) 8
  | .big => v.extractLsb' (8 * (3 - i)) 8

/-- Memory with `word(M, A) := v` (R84, R86). -/
def writeWord (p : Params) (m : Memory) (a : Addr) (v : Word) : Memory :=
  let w := fun m i => writeByte m (byteAddr p a i) (wordByteAt p v i)
  w (w (w (w m 0) 1) 2) 3

/-- The address of word j of an access at a: `A + 4*j` (R81, R95). -/
def wordAddr (p : Params) (a : Addr) (j : Nat) : Addr := addAddr p a (4 * j)

/-- `MemRead(A, n)` (R85). -/
def memRead (p : Params) (m : Memory) (a : Addr) (n : Nat) : List Word :=
  (List.range n).map fun j => readWord p m (wordAddr p a j)

/-- `MemWrite(A, n, vs)`, word j at A + 4*j, from word j on (R86). -/
def memWriteFrom (p : Params) (m : Memory) (a : Addr) (j : Nat) : List Word → Memory
  | [] => m
  | v :: vs => memWriteFrom p (writeWord p m (wordAddr p a j) v) a (j + 1) vs

/-- `MemWrite(A, n, vs)` (R86). -/
def memWrite (p : Params) (m : Memory) (a : Addr) (vs : List Word) : Memory := memWriteFrom p m a 0 vs

/-- `MemCAS(A, cmp, new)`: the memory after it, and whether it succeeded (R87). -/
def memCas (p : Params) (m : Memory) (a : Addr) (cmp new : Word) : Memory × Bool :=
  if readWord p m a = cmp then (writeWord p m a new, true) else (m, false)

/-! ### Performing a transaction (R96 B2 to B5) -/

/-- How many word accesses a transaction of this kind and length makes, which is how many flits its response group has (R96 B3). -/
def opWords (op : BusOp) (plen : BitVec 16) : Nat :=
  match op with
  | .read => plen.toNat / 4
  | .write => plen.toNat / 4
  | .cas => 1

/-- The word accesses of the transaction (R96 B3). -/
def Txn.words (t : Txn) : Nat := opWords t.op t.plen

/-- All word accesses are made (R96 B4). -/
def Txn.performed (t : Txn) : Bool := t.rdata.all Option.isSome

/-- Some flit of the response group reports an error (R96 B5). -/
def Txn.errored (t : Txn) : Bool := (t.plan.errs.take t.words).any id

/-- The memory effect of word j is left out: the bus's choice, and only for an erroring transaction (R96, last paragraph). -/
def Txn.dropped (t : Txn) (j : Nat) : Bool := t.errored && t.plan.drops.getD j false

/-- A CAS result other than SUCCESS: any non-zero value, the bus's choice (R87, U14). -/
def failureCode (w : Word) : Word := if w = 0 then 1 else w

/-- Word access j of a transaction, made now: the memory after it, and the response word (R85 to R87). The effect the bus may leave out when the transaction
reports an error is, for a CAS, the swap of R87: an erroring CAS whose compare fails leaves memory as it was (R96, R431, R401; log 28). -/
def wordEffect (p : Params) (m : Memory) (t : Txn) (j : Nat) : Memory × Word :=
  let a := wordAddr p t.addr j
  match t.op with
  | .read => (m, readWord p m a)
  | .write => (if t.dropped j then m else writeWord p m a (t.wdata.getD j 0), t.plan.fill.getD j 0)
  | .cas =>
    let r := memCas p m a (t.wdata.getD 0 0) (t.wdata.getD 1 0)
    (if t.dropped j then m else r.1, if r.2 then 0 else failureCode (t.plan.fill.getD j 0))

/-- Word access j of a transaction, if it has one and has not made it: the memory after it, and the transaction with its response word (R85 to R87). -/
def performWord (p : Params) (m : Memory) (t : Txn) (j : Nat) : Memory × Txn :=
  match t.rdata[j]? with
  | some none =>
    let r := wordEffect p m t j
    (r.1, { t with rdata := t.rdata.set j (some r.2) })
  | _ => (m, t)

/-- Word accesses in a row. -/
def performWords (p : Params) : List Nat → Memory × Txn → Memory × Txn
  | [], x => x
  | j :: js, x => performWords p js (performWord p x.1 x.2 j)

/-- The response group of a performed transaction (R96 B3, B4). -/
def Txn.flits (t : Txn) : List RspFlit :=
  t.rdata.mapIdx fun j w => ⟨t.tag, w.getD 0, t.plan.errs.getD j false⟩

/-! ### Error entry and return (R427, R428): the nearest things to taking and leaving an exception -/

/-- Error entry: the channel parks in the error state; nothing is saved and no other field changes (R207, R208, R427). -/
def takeError (err : FsmState) (c : Channel) : Channel := { c with state := err }

/-- The return from a terminal state: IDLE once software has cleared RUNNING, and no move before (R212, R213, R428). -/
def leaveTerminal (running : Bool) (c : Channel) : Channel := if running then c else { c with state := .idle }

end Sys2Proof.Machine
end

