-- ==== Sys2Proof/Machine/Operands.lean ====
section
/-!
DEFINITION. How addresses and operands are assembled (R135) and the request table of R130: every operand form of the register accesses
and of the transactions the command generator builds.
-/
namespace Sys2Proof.Machine

/-! ### Register operands (R32 to R37, R125, R135) -/

/-- The low half of an address register: bits 31 to 0 (R32, R163). -/
def addrLo (a : Addr) : Word := a.extractLsb' 0 32

/-- The high half of an address register: bits PADDR_WIDTH-1 to 32, zero-extended (R32, R165). -/
def addrHi (p : Params) (a : Addr) : Word := (truncAddr p a).extractLsb' 32 32

/-- An address register after a write of its low half (R164). -/
def setAddrLo (a : Addr) (v : Word) : Addr := a.extractLsb' 32 32 ++ v

/-- An address register after a write of its high half: bits of v at and above PADDR_WIDTH-32 are ignored, and with PADDR_WIDTH = 32 nothing
changes (R166). -/
def setAddrHi (p : Params) (a : Addr) (v : Word) : Addr :=
  if 32 < p.paddrWidth then truncAddr p (v ++ a.extractLsb' 0 32) else a

/-- The MODE code (R125). -/
def modeCode : Mode → Word
  | .sharedQueue => 0
  | .bulkIrq => 1
  | .bulkNoIrq => 2

/-- The mode a written word selects; the whole word is compared (R176). -/
def modeOfWord (v : Word) : Option Mode :=
  if v = 0 then some .sharedQueue else if v = 1 then some .bulkIrq else if v = 2 then some .bulkNoIrq else none

/-- The DIRECTION code (R125). -/
def directionCode : Direction → Word
  | .fromMemory => 0
  | .toMemory => 1

/-- MODE is one of the two bulk modes (R202, R308). -/
def Mode.isBulk : Mode → Bool
  | .sharedQueue => false
  | .bulkIrq => true
  | .bulkNoIrq => true

/-! ### The request table (R130) -/

/-- The 3-bit code of a request type (R130). -/
def ReqType.code : ReqType → BitVec 3
  | .ticketRead => 0
  | .ticketCas => 1
  | .lockRead => 2
  | .statusRead => 3
  | .dataRead => 4
  | .dataWrite => 5
  | .statusWrite => 6
  | .lockRelease => 7

/-- The bus command of a request type (R130, R131): 0 READ, 1 WRITE, 2 CAS. -/
def reqCmd : ReqType → BitVec 2
  | .ticketRead => 0
  | .ticketCas => 2
  | .lockRead => 0
  | .statusRead => 0
  | .dataRead => 0
  | .dataWrite => 1
  | .statusWrite => 1
  | .lockRelease => 1

/-- The length in bytes (R130). -/
def reqPlen (p : Params) : ReqType → BitVec 16
  | .ticketRead => 4
  | .ticketCas => 4
  | .lockRead => 4
  | .statusRead => 12
  | .dataRead => BitVec.ofNat 16 p.burstBytes
  | .dataWrite => BitVec.ofNat 16 p.burstBytes
  | .statusWrite => 12
  | .lockRelease => 4

/-- The number of command flits (R130). -/
def reqFlits (p : Params) : ReqType → Nat
  | .ticketRead => 1
  | .ticketCas => 2
  | .lockRead => 1
  | .statusRead => 1
  | .dataRead => 1
  | .dataWrite => p.burstWords
  | .statusWrite => 3
  | .lockRelease => 1

/-- The address of a data burst: BUFFER_ADDR + offset in the bulk modes, BUFFER_ADDR + 4*idx for a queue (R135, R308, R309). -/
def dataAddr (p : Params) (c : Channel) (idx : Word) : Addr :=
  if c.regs.mode.isBulk then addAddr p c.regs.bufferAddr c.offset.toNat
  else addAddr p c.regs.bufferAddr (4 * idx.toNat)

/-- The transaction's start address (R130, R304 to R311). -/
def reqAddr (p : Params) (c : Channel) : ReqType → Addr
  | .ticketRead => c.regs.lockAddr
  | .ticketCas => c.regs.lockAddr
  | .lockRead => addAddr p c.regs.lockAddr 4
  | .statusRead => c.regs.descAddr
  | .dataRead => dataAddr p c c.sqRd
  | .dataWrite => dataAddr p c c.sqWr
  | .statusWrite => c.regs.descAddr
  | .lockRelease => addAddr p c.regs.lockAddr 4

/-- The write word of flit i, 0 for a READ (R130, R133). A DATA_WRITE flit carries the FIFO's head (R309). With an
empty FIFO there is no head (R370), the flit offered is GEN_FIFO_EMPTY and is not sent (R312), and its wdata shows 0 by the model's choice (log 17). -/
def reqWdata (c : Channel) (i : Nat) : ReqType → Word
  | .ticketRead => 0
  | .ticketCas => if i = 0 then c.ticket else c.ticket + 1
  | .lockRead => 0
  | .statusRead => 0
  | .dataRead => 0
  | .dataWrite => c.fifo.headD 0
  | .statusWrite => if i = 0 then c.sqOcc else if i = 1 then c.sqRd else c.sqWr
  | .lockRelease => c.ticket + 1

/-- `flit(t, c, i)` of R303. -/
def reqFlit (p : Params) (t : ReqType) (k : Nat) (c : Channel) (i : Nat) : CmdFlit where
  cmd := reqCmd t
  addr := reqAddr p c t
  plen := reqPlen p t
  wdata := reqWdata c i t
  eop := decide (i + 1 = reqFlits p t)
  tag := k

/-- What the request posted in a bus state is: the map T of R206. A state that posts nothing has none. -/
def postedRequest (d : Direction) : FsmState → Option ReqType
  | .bulkDataMove => some (match d with | .fromMemory => .dataRead | .toMemory => .dataWrite)
  | .ticketRead => some .ticketRead
  | .ticketCas => some .ticketCas
  | .lockRead => some .lockRead
  | .statusRead => some .statusRead
  | .dataMove => some (match d with | .fromMemory => .dataRead | .toMemory => .dataWrite)
  | .statusUpdate => some .statusWrite
  | .lockRelease => some .lockRelease
  | .idle => none
  | .ack => none
  | .success => none
  | .errorLock => none
  | .errorDescriptor => none
  | .errorData => none

/-- What the flits of a response group are for (R342). -/
inductive RspKind where
  | word
  | dataIn
  | dataOut
deriving DecidableEq, Repr

/-- The expected shape of a response group, from the addressed channel's state: the flit count and the kind (R342). -/
def rspShape (p : Params) (d : Direction) : FsmState → Option (Nat × RspKind)
  | .ticketRead => some (1, .word)
  | .ticketCas => some (1, .word)
  | .lockRead => some (1, .word)
  | .lockRelease => some (1, .word)
  | .statusRead => some (3, .word)
  | .statusUpdate => some (3, .word)
  | .bulkDataMove => some (p.burstWords, match d with | .fromMemory => .dataIn | .toMemory => .dataOut)
  | .dataMove => some (p.burstWords, match d with | .fromMemory => .dataIn | .toMemory => .dataOut)
  | .idle => none
  | .ack => none
  | .success => none
  | .errorLock => none
  | .errorDescriptor => none
  | .errorData => none

/-! ### Shared-queue operands (R90, R269, R270) -/

/-- CAP_W = SIZE / 4 (R36, R90). -/
def capWords (c : Channel) : Nat := c.regs.size.toNat / 4

/-- check_descriptor holds: occupancy and indices in range, indices burst-aligned (R269). -/
def descriptorOk (p : Params) (c : Channel) (occ rd wr : Word) : Bool :=
  decide (occ.toNat ≤ capWords c) && decide (rd.toNat < capWords c) && decide (wr.toNat < capWords c) &&
    decide (rd.toNat % p.burstWords = 0) && decide (wr.toNat % p.burstWords = 0)

/-- chunk(occ), the bursts the lock hold will move (R270). -/
def chunkOf (p : Params) (d : Direction) (c : Channel) (occ : Word) : Nat :=
  let avail := match d with
    | .fromMemory => occ.toNat / p.burstWords
    | .toMemory => (capWords c - occ.toNat) / p.burstWords
  let limit := match p.granularity with
    | .perBurst => 1
    | .perGroup => c.remaining.toNat
  min c.remaining.toNat (min avail limit)

end Sys2Proof.Machine
end

