-- ==== Sys2Proof/Machine/Flags.lean ====
section
/-!
DEFINITION. The status, the interrupt and every other flag or output the core computes from its state (R39, R57, R203, R374, R375, R381, R425).
-/
namespace Sys2Proof.Machine

/-- STATUS as a function of the channel's state (R39, R125). -/
def statusCode : FsmState → Word
  | .success => 1
  | .errorData => 2
  | .errorLock => 3
  | .errorDescriptor => 4
  | .idle => 0
  | .ack => 0
  | .bulkDataMove => 0
  | .ticketRead => 0
  | .ticketCas => 0
  | .lockRead => 0
  | .statusRead => 0
  | .dataMove => 0
  | .statusUpdate => 0
  | .lockRelease => 0

/-- The state is one of ERROR_LOCK, ERROR_DESCRIPTOR, ERROR_DATA (R421). -/
def FsmState.isError : FsmState → Bool
  | .errorLock => true
  | .errorDescriptor => true
  | .errorData => true
  | .idle => false
  | .ack => false
  | .bulkDataMove => false
  | .ticketRead => false
  | .ticketCas => false
  | .lockRead => false
  | .statusRead => false
  | .dataMove => false
  | .statusUpdate => false
  | .lockRelease => false
  | .success => false

/-- The state is terminal: SUCCESS or an error state (R127). -/
def FsmState.isTerminal (q : FsmState) : Bool := q.isError || decide (q = .success)

/-- The interrupt line irq[k] of a channel (R425). -/
def irq (c : Channel) : Bool :=
  c.regs.running && (c.state.isError || (decide (c.state = .success) && decide (c.regs.mode = .bulkIrq)))

/-- IRQ, the OR of all lines (R425). -/
def irqAny (s : State) : Bool := s.chans.any irq

/-- port_ack (R203). -/
def portAck (c : Channel) : Bool := decide (c.state = .ack)

/-- port_rvalid of a FROM_MEMORY channel (R374). -/
def portRvalid (c : Channel) : Bool := !c.fifo.isEmpty

/-- port_rdata of a FROM_MEMORY channel, meaningful only when port_rvalid = 1 (R374). -/
def portRdata (c : Channel) : Option Word := c.fifo.head?

/-- port_wready of a TO_MEMORY channel whose FIFO is fifo after the generator's pop of this tick (R375). -/
def portWready (p : Params) (fifo : List Word) : Bool := decide (fifo.length < p.fifoDepth)

/-- port_scratch[i], the same for every port (R381). -/
def portScratch (s : State) (i : Nat) : Option Word := s.scratch[i]?

/-- The command flit the generator offers in the tick about to be made; none when cmd_valid = 0 (R301, R302). -/
def cmdOffer (s : State) : Option CmdFlit :=
  if s.gen.busy then
    (s.chans[s.gen.ch]?).map fun c => reqFlit s.params c.reqType s.gen.ch c s.gen.idx.toNat
  else none

/-- cmd_ready: the bus takes the flit offered. A wire that already holds a flit takes no other (B1; log 23). -/
def cmdReady (s : State) : Bool := s.input.cmdReady && s.bus.wire.isNone

/-- The channel may be stopped without breaking a transaction off: it is terminal, or in IDLE and takes no request in this tick (R180). -/
def stopIsSafe (q : FsmState) (portReq : Bool) : Bool :=
  q.isTerminal || (decide (q = .idle) && !portReq)

/-- A start that is a configuration defect: no size, or a region the mode uses does not fit in the address space (R180, D31). -/
def startDefect (p : Params) (r : ChanRegs) : Bool :=
  decide (r.size = 0) || decide (2 ^ p.paddrWidth < r.bufferAddr.toNat + r.size.toNat) ||
    (decide (r.mode = .sharedQueue) &&
      (decide (2 ^ p.paddrWidth < r.descAddr.toNat + 12) || decide (2 ^ p.paddrWidth < r.lockAddr.toNat + 8)))

end Sys2Proof.Machine
end

