-- ==== Sys2Proof/Machine/Arbiter.lean ====
section
/-!
DEFINITION. The round-robin arbiter of the command generator: its selecting step (R300, R301). s0 is the state at the start of the tick, which is
read, and s the state the other agents have left, which is written (R16).
-/
namespace Sys2Proof.Machine

/-- Channel k has a request posted (R48). -/
def hasPosted (s : State) (k : Nat) : Bool :=
  match s.chans[k]? with
  | some c => c.reqValid
  | none => false

/-- The channels in scan order: just past the last-served one first, that one last (R301). -/
def scanOrder (n last : Nat) : List Nat := (List.range n).map fun j => (last + (j + 1)) % n

/-- The channel the arbiter selects in this state, if any has a request posted (R301). -/
def selected (s : State) : Option Nat :=
  (scanOrder s.params.nChannels s.gen.rrLast).find? fun k => hasPosted s k

/-- A channel's handshake after it is selected (R301). -/
def issueRequest (c : Channel) : Channel := { c with reqValid := false, reqIssued := true }

/-- The selecting step (R301): only while the generator is not sending. -/
def arbPhase (s0 s : State) : State :=
  if s0.gen.busy then s
  else
    match selected s0 with
    | none => s
    | some k =>
      { s with
        gen := ⟨true, k, 0, k⟩
        chans := s.chans.modify k issueRequest }

end Sys2Proof.Machine
end

