-- ==== Sys2Proof/Machine/BusAgent.lean ====
section
/-!
DEFINITION. The bus's own moves at the end of a tick (R96): the word accesses of the transactions it put off, other agents' word writes between
them (R85, R86, R88), and the offering of response flits. It has no move that breaks a duty.
-/
namespace Sys2Proof.Machine

/-- One word access (R85 to R87; U16): word j of the i-th accepted transaction, or another agent's word write. -/
def busAct (a : BusAct) (s : State) : State :=
  match a with
  | .word i j =>
    match s.bus.txns[i]? with
    | none => s
    | some t =>
      let r := performWord s.params s.mem t j
      { s with mem := r.1, bus := { s.bus with txns := s.bus.txns.set i r.2 } }
  | .poke addr v => { s with mem := writeWord s.params s.mem (truncAddr s.params addr) v }

/-- The word accesses of the tick, in order. -/
def busActs : List BusAct → State → State
  | [], s => s
  | a :: as, s => busActs as (busAct a s)

/-- The offering of the next response flit (R96 B3, B4, B6): an offered flit is held; a group begun goes on; a group begins only when its
transaction is performed. The choice of when, and of which transaction, is the environment's (B8, D39). -/
def busRespond (choice : Option Nat) (b : Bus) : Bus :=
  match b.rsp, choice with
  | some _, _ => b
  | none, none => b
  | none, some i =>
    match b.group with
    | f :: rest => { b with rsp := some f, group := rest }
    | [] =>
      match b.txns[i]? with
      | none => b
      | some t =>
        if t.performed then
          { b with rsp := t.flits.head?, group := t.flits.tail, txns := b.txns.eraseIdx i }
        else b

end Sys2Proof.Machine
end

