-- ==== Sys2Proof/Machine/Channel.lean ====
section
/-!
DEFINITION. The per-channel state machine: chan_step (R200 to R218), with the consume rules of bulk copy (R240 to R246) and of the seven protocol
steps (R262 to R277). In every definition c0 is the channel at the start of the tick, which alone is read, and c the channel as
the other agents of the tick have left it, which is written (R16).
-/
namespace Sys2Proof.Machine

/-- The FIFO gate of a data burst: room for a whole burst, or a whole burst present (R205). -/
def fifoGate (p : Params) (d : Direction) (c0 : Channel) : Bool :=
  match d with
  | .fromMemory => decide (c0.fifo.length + p.burstWords ≤ p.fifoDepth)
  | .toMemory => decide (p.burstWords ≤ c0.fifo.length)

/-- The gate of a state (R205): only the data states have one. -/
def postGate (p : Params) (d : Direction) (c0 : Channel) : Bool :=
  match c0.state with
  | .bulkDataMove => fifoGate p d c0
  | .dataMove => fifoGate p d c0
  | _ => true

/-- The pre-post check (R240, R271): the state it moves to, if it moves. -/
def prePost (c0 : Channel) : Option FsmState :=
  match c0.state with
  | .bulkDataMove => if c0.remaining = 0 then some .idle else none
  | .dataMove =>
    if c0.sqChunk = 0 then (if c0.sqMoved = 0 then some .lockRelease else some .statusUpdate) else none
  | _ => none

/-- Post (R206). -/
def post (t : ReqType) (c : Channel) : Channel := { c with reqValid := true, reqType := t }

/-- The error state a step's error leads to: ERR(state) (R208). -/
def errState : FsmState → FsmState
  | .ticketRead => .errorLock
  | .ticketCas => .errorLock
  | .lockRead => .errorLock
  | .lockRelease => .errorLock
  | .statusRead => .errorDescriptor
  | .statusUpdate => .errorDescriptor
  | .bulkDataMove => .errorData
  | .dataMove => .errorData
  | .idle => .idle
  | .ack => .ack
  | .success => .success
  | .errorLock => .errorLock
  | .errorDescriptor => .errorDescriptor
  | .errorData => .errorData

/-- BULK_DATA_MOVE consume (R242). A start written in the same tick takes effect after it (R162, R430): its offset 0 stays.
The offset keeps the 32 bits its field has (R44; log 31). -/
def consumeBulk (p : Params) (c0 c : Channel) : Channel :=
  let off2 := c0.offset.toNat + p.burstBytes
  let rem2 := truncCount p (c0.remaining - 1)
  { c with
    offset := if c.regs.running && !c0.regs.running then c.offset else BitVec.ofNat 32 off2
    remaining := rem2
    state := if off2 = c0.regs.size.toNat then .success else if rem2 = 0 then .idle else .bulkDataMove }

/-- TICKET_READ consume (R263). -/
def consumeTicketRead (c0 c : Channel) : Channel := { c with ticket := c0.rspData0, state := .ticketCas }

/-- TICKET_CAS consume (R265). -/
def consumeTicketCas (c0 c : Channel) : Channel :=
  { c with state := if c0.rspData0 = 0 then .lockRead else .ticketRead }

/-- LOCK_READ consume (R266). -/
def consumeLockRead (c0 c : Channel) : Channel :=
  { c with state := if c0.rspData0 = c0.ticket then .statusRead else .lockRead }

/-- STATUS_READ consume of a descriptor that passes check_descriptor (R268). -/
def consumeStatusRead (p : Params) (d : Direction) (c0 c : Channel) : Channel :=
  { c with
    sqOcc := c0.rspData0
    sqRd := c0.rspData1
    sqWr := c0.rspData2
    sqChunk := BitVec.ofNat 32 (chunkOf p d c0 c0.rspData0)
    sqMoved := 0
    state := .dataMove }

/-- An index after a burst: plus BURST_WORDS, modulo the capacity (R272); a free value where the capacity is 0, to which R12 gives no mod (log 30). -/
def nextIndex (p : Params) (c0 : Channel) (i : Word) : Word :=
  if capWords c0 = 0 then Config.modZero (i.toNat + p.burstWords)
  else BitVec.ofNat 32 ((i.toNat + p.burstWords) % capWords c0)

/-- DATA_MOVE consume (R272). The occupancy and the counts keep the bits their fields have (R43, R46, R47; log 31). -/
def consumeDataMove (p : Params) (d : Direction) (c0 c : Channel) : Channel :=
  { c with
    sqRd := (match d with | .fromMemory => nextIndex p c0 c0.sqRd | .toMemory => c.sqRd)
    sqWr := (match d with | .fromMemory => c.sqWr | .toMemory => nextIndex p c0 c0.sqWr)
    sqOcc :=
      (match d with
      | .fromMemory => c0.sqOcc - BitVec.ofNat 32 p.burstWords
      | .toMemory => c0.sqOcc + BitVec.ofNat 32 p.burstWords)
    sqChunk := truncCount p (c0.sqChunk - 1)
    sqMoved := truncCount p (c0.sqMoved + 1)
    remaining := truncCount p (c0.remaining - 1)
    state := .dataMove }

/-- STATUS_UPDATE consume (R275). -/
def consumeStatusUpdate (c : Channel) : Channel := { c with state := .lockRelease }

/-- LOCK_RELEASE consume (R277). -/
def consumeLockRelease (c0 c : Channel) : Channel :=
  { c with state := if c0.remaining = 0 then .idle else .ticketRead }

/-- The consume rule of the state, for a response without an error (R207). A state that posts nothing has none. -/
def consumeOk (p : Params) (d : Direction) (c0 c : Channel) : Channel :=
  match c0.state with
  | .bulkDataMove => consumeBulk p c0 c
  | .ticketRead => consumeTicketRead c0 c
  | .ticketCas => consumeTicketCas c0 c
  | .lockRead => consumeLockRead c0 c
  | .statusRead => consumeStatusRead p d c0 c
  | .dataMove => consumeDataMove p d c0 c
  | .statusUpdate => consumeStatusUpdate c
  | .lockRelease => consumeLockRelease c0 c
  | .idle => c
  | .ack => c
  | .success => c
  | .errorLock => c
  | .errorDescriptor => c
  | .errorData => c

/-- Consume (R207): the ready flag is cleared; an error is taken before anything else is looked at (R208, R430). -/
def consume (p : Params) (d : Direction) (c0 c : Channel) : Channel :=
  let c1 := { c with rspReady := false }
  if c0.rspErr then takeError (errState c0.state) c1 else consumeOk p d c0 c1

/-- The channel consumes a descriptor in this tick that check_descriptor refuses: DESC_INCONSISTENT (R269). -/
def descriptorFault (p : Params) (c0 : Channel) : Bool :=
  decide (c0.state = .statusRead) && c0.rspReady && !c0.rspErr &&
    !descriptorOk p c0 c0.rspData0 c0.rspData1 c0.rspData2

/-- The arm of a bus state that posts the request t (R204): consume, wait, pre-post check, post, or stay gated. A descriptor that check_descriptor refuses
is not consumed (R269; log 4). -/
def busArm (p : Params) (d : Direction) (t : ReqType) (c0 c : Channel) : Channel :=
  if c0.rspReady then (if descriptorFault p c0 then c else consume p d c0 c)
  else if c0.reqValid || c0.reqIssued then c
  else
    match prePost c0 with
    | some q => { c with state := q }
    | none => if postGate p d c0 then post t c else c

/-- IDLE (R201, R214). -/
def idleArm (p : Params) (x : PortIn) (c0 c : Channel) : Channel :=
  if c0.regs.running && x.req then { c with remaining := truncCount p x.burstCount, state := .ack } else c

/-- ACK (R202). -/
def ackArm (c0 c : Channel) : Channel :=
  { c with state := if c0.regs.mode.isBulk then .bulkDataMove else .ticketRead }

/-- chan_step (R200): one arm, chosen by the state at the start of the tick. -/
def chanStep (p : Params) (d : Direction) (x : PortIn) (c0 c : Channel) : Channel :=
  match postedRequest d c0.state with
  | some t => busArm p d t c0 c
  | none =>
    match c0.state with
    | .idle => idleArm p x c0 c
    | .ack => ackArm c0 c
    | _ => leaveTerminal c0.regs.running c

/-- The channels after chan_step of each one: channel k reads its own record of s0 and its own port only (R217). A descriptor refused is
recorded (R269). -/
def fsmPhase (s0 s : State) : State :=
  let s' := if s0.chans.any (descriptorFault s0.params) then s.recordFault .descInconsistent else s
  { s' with
    chans := s.chans.mapIdx fun k c =>
      chanStep s0.params (s0.params.dir k) (s0.port k) (s0.chans.getD k c) c }

end Sys2Proof.Machine
end

