-- ==== Sys2Proof/Machine/Demux.lean ====
section
/-!
DEFINITION. The response demultiplexer: dmx_step (R340 to R348). s0 is the state at the start of the tick, which is read, and s the state the
other agents have left, which is written (R16); a FIFO is pushed after the port's pop of the tick (R345, R373).
-/
namespace Sys2Proof.Machine

/-- Response word i of a channel, set (R344). -/
def setRspData (c : Channel) (i : Nat) (w : Word) : Channel :=
  match i with
  | 0 => { c with rspData0 := w }
  | 1 => { c with rspData1 := w }
  | 2 => { c with rspData2 := w }
  | _ => c

/-- Processing flit i of a group for a channel (R344, R345): a word is accumulated, a data word is pushed unless the FIFO is full, and the
acknowledgement of a data write is discarded. None is FIFO_OVERFLOW. -/
def processFlit (p : Params) (kind : RspKind) (i : Nat) (w : Word) (c : Channel) : Option Channel :=
  match kind with
  | .word => some (setRspData c i w)
  | .dataIn => if p.fifoDepth ≤ c.fifo.length then none else some { c with fifo := c.fifo ++ [w] }
  | .dataOut => some c

/-- complete(k, e): the channel's part (R346). -/
def completeChan (e : Bool) (c : Channel) : Channel :=
  { c with rspReady := true, rspErr := e, reqIssued := false }

/-- The flit f is accepted as flit i of a group of n for channel k, whose error bits so far give e (R341, R344 to R347). A push into a full FIFO is
FIFO_OVERFLOW, and the flit is not taken (R345; log 4). -/
def takeRsp (k i n : Nat) (kind : RspKind) (e : Bool) (d : Dmx) (f : RspFlit) (s : State) : State :=
  match s.chans[k]? with
  | none => s.recordFault .busProtocol
  | some c =>
    match processFlit s.params kind i f.rdata c with
    | none => s.recordFault .fifoOverflow
    | some c' =>
      let last := decide (i + 1 = n)
      { s with
        bus := { s.bus with rsp := none }
        dmx := if last then { d with busy := false, err := e } else { d with cnt := BitVec.ofNat 16 (i + 1), err := e }
        chans := s.chans.set k (if last then completeChan e c' else c') }

/-- The demultiplexer takes the response flit offered in this state, if it takes any: rsp_accept (R340, R341, R347). In a tick that records FIFO_OVERFLOW it is 1
by the model's choice, although the flit stays offered: the run has no meaning then (R345, R440; log 4). -/
def rspAccept (s : State) : Bool :=
  match s.bus.rsp with
  | none => false
  | some f =>
    if s.dmx.busy then decide (f.rtag = s.dmx.ch)
    else
      match s.chans[f.rtag]? with
      | none => false
      | some c => !c.rspReady && c.reqIssued && (rspShape s.params (s.params.dir f.rtag) c.state).isSome

/-- A first flit (R341): the tag names the channel, whose state gives the shape of the group. A flit that breaks a duty is not taken (R348; log 4). -/
def firstFlit (f : RspFlit) (s0 s : State) : State :=
  match s0.chans[f.rtag]? with
  | none => s.recordFault .busProtocol
  | some c =>
    if c.rspReady then s
    else if c.reqIssued then
      match rspShape s0.params (s0.params.dir f.rtag) c.state with
      | none => s.recordFault .busProtocol
      | some (n, kind) =>
        takeRsp f.rtag 0 n kind f.rerror
          (if n = 1 then s0.dmx else ⟨true, f.rtag, 1, BitVec.ofNat 16 n, f.rerror⟩) f s
    else s.recordFault .busProtocol

/-- A later flit (R347): it belongs to the group begun, or breaks a duty. -/
def laterFlit (f : RspFlit) (s0 s : State) : State :=
  if f.rtag = s0.dmx.ch then
    match s0.chans[s0.dmx.ch]? with
    | none => s.recordFault .busProtocol
    | some c =>
      match rspShape s0.params (s0.params.dir s0.dmx.ch) c.state with
      | none => s.recordFault .busProtocol
      | some (_, kind) =>
        takeRsp s0.dmx.ch s0.dmx.cnt.toNat s0.dmx.need.toNat kind (s0.dmx.err || f.rerror) s0.dmx f s
  else s.recordFault .busProtocol

/-- dmx_step (R340): at most one flit per tick. -/
def dmxPhase (s0 s : State) : State :=
  match s0.bus.rsp with
  | none => s
  | some f => if s0.dmx.busy then laterFlit f s0 s else firstFlit f s0 s

end Sys2Proof.Machine
end

