-- ==== Sys2Proof/Machine/BusCommand.lean ====
section
/-!
DEFINITION. The bus commands: the bus takes a command flit and, after a transaction's last one, performs it on memory (R85 to R87, R96 B2).
-/
namespace Sys2Proof.Machine

/-- The transaction whose last command flit is taken now: the write words in order, and the bus's choices of this tick (R96). -/
def closedTxn (op : BusOp) (addr : Addr) (plen : BitVec 16) (wdata : Word) (tag : Nat) (s : State) : Txn where
  op := op
  addr := addr
  plen := plen
  tag := tag
  wdata := s.bus.asm ++ [wdata]
  plan := s.input.plan
  rdata := List.replicate (opWords op plen) none

/-- The bus takes a command flit (R96 B2). Before the last flit it only keeps the write word; with the last one the transaction is
accepted whole, and its word accesses are all made now, or put off where the bus so chooses (log 7). -/
def takeCommand (op : BusOp) (addr : Addr) (plen : BitVec 16) (wdata : Word) (eop : Bool) (tag : Nat) (s : State) : Host.Outcome State Fault Refusal :=
  if eop then
    let t := closedTxn op addr plen wdata tag s
    let r := if s.input.deferred then (s.mem, t) else performWords s.params (List.range t.words) (s.mem, t)
    .next { s with mem := r.1, bus := { s.bus with asm := [], txns := s.bus.txns ++ [r.2] } }
  else .next { s with bus := { s.bus with asm := s.bus.asm ++ [wdata] } }

/-- BUS READ: MemRead of plen/4 words at addr after the last flit (R85). -/
def execBusRead (addr : Addr) (plen : BitVec 16) (wdata : Word) (eop : Bool) (tag : Nat) (s : State) :
    Host.Outcome State Fault Refusal :=
  takeCommand .read addr plen wdata eop tag s

/-- BUS WRITE: MemWrite of plen/4 words at addr after the last flit (R86). -/
def execBusWrite (addr : Addr) (plen : BitVec 16) (wdata : Word) (eop : Bool) (tag : Nat) (s : State) :
    Host.Outcome State Fault Refusal :=
  takeCommand .write addr plen wdata eop tag s

/-- BUS CAS: MemCAS at addr with the first flit's word as cmp and the second's as new, after the last flit (R87). -/
def execBusCas (addr : Addr) (plen : BitVec 16) (wdata : Word) (eop : Bool) (tag : Nat) (s : State) :
    Host.Outcome State Fault Refusal :=
  takeCommand .cas addr plen wdata eop tag s

end Sys2Proof.Machine
end

