-- ==== Sys2Proof/Machine/Registers.lean ====
section
/-!
DEFINITION. The shared operations of the register accesses (R160, R161, R187, R188).
-/
namespace Sys2Proof.Machine

/-- A read of a register of channel k: the value f of the start of the tick, cfg_err = 0, no state changed (R160). -/
def readReg (s : State) (k : Nat) (f : Channel → Word) : Host.Outcome State Fault Refusal :=
  withChan s k fun c => .next (s.reply (.read (f c) false))

/-- A write of an address, size or mode register of channel k: rejected while running (R161), a configuration defect when the value is not
legal, which is recorded and gives the register no value (log 4), and stored otherwise. -/
def writeStopped (s : State) (k : Nat) (legal : Bool) (f : ChanRegs → ChanRegs) : Host.Outcome State Fault Refusal :=
  withChan s k fun c =>
    if c.regs.running then .next (s.reply (.written true))
    else if legal then .next ((s.setChan k { c with regs := f c.regs }).reply (.written false))
    else .next ((s.reply .idle).recordFault .configDefect)

/-- A write of a read-only register of channel k: cfg_err = 1, nothing else changed (R182, R184). -/
def writeReadOnly (s : State) (k : Nat) : Host.Outcome State Fault Refusal :=
  withChan s k fun _ => .next (s.reply (.written true))

/-- The value is a multiple of BURST_BYTES (R164, R178). -/
def burstAligned (p : Params) (v : Word) : Bool := decide (v.toNat % p.burstBytes = 0)

/-- The value is a multiple of 4 (R168, R172). -/
def wordAligned (v : Word) : Bool := decide (v.toNat % 4 = 0)

end Sys2Proof.Machine
end

