-- ==== Sys2Proof/Machine/CfgAddress.lean ====
section
/-!
DEFINITION. The address registers: reads and writes of BUFFER_ADDR, DESC_ADDR and LOCK_ADDR, low and high halves (R163 to R174).
-/
namespace Sys2Proof.Machine

/-- RD BUFFER_ADDR_LO[k] (R163). -/
def execRdBufferAddrLo (k : Nat) (s : State) : Host.Outcome State Fault Refusal :=
  readReg s k fun c => addrLo c.regs.bufferAddr

/-- WR BUFFER_ADDR_LO[k], v: a value that is not burst-aligned is a configuration defect (R164). -/
def execWrBufferAddrLo (k : Nat) (v : Word) (s : State) : Host.Outcome State Fault Refusal :=
  writeStopped s k (burstAligned s.params v) fun r => { r with bufferAddr := setAddrLo r.bufferAddr v }

/-- RD BUFFER_ADDR_HI[k] (R165). -/
def execRdBufferAddrHi (k : Nat) (s : State) : Host.Outcome State Fault Refusal :=
  readReg s k fun c => addrHi s.params c.regs.bufferAddr

/-- WR BUFFER_ADDR_HI[k], v: never a defect (R166). -/
def execWrBufferAddrHi (k : Nat) (v : Word) (s : State) : Host.Outcome State Fault Refusal :=
  writeStopped s k true fun r => { r with bufferAddr := setAddrHi s.params r.bufferAddr v }

/-- RD DESC_ADDR_LO[k] (R167). -/
def execRdDescAddrLo (k : Nat) (s : State) : Host.Outcome State Fault Refusal :=
  readReg s k fun c => addrLo c.regs.descAddr

/-- WR DESC_ADDR_LO[k], v: a value that is not word-aligned is a configuration defect (R168). -/
def execWrDescAddrLo (k : Nat) (v : Word) (s : State) : Host.Outcome State Fault Refusal :=
  writeStopped s k (wordAligned v) fun r => { r with descAddr := setAddrLo r.descAddr v }

/-- RD DESC_ADDR_HI[k] (R169). -/
def execRdDescAddrHi (k : Nat) (s : State) : Host.Outcome State Fault Refusal :=
  readReg s k fun c => addrHi s.params c.regs.descAddr

/-- WR DESC_ADDR_HI[k], v: never a defect (R170). -/
def execWrDescAddrHi (k : Nat) (v : Word) (s : State) : Host.Outcome State Fault Refusal :=
  writeStopped s k true fun r => { r with descAddr := setAddrHi s.params r.descAddr v }

/-- RD LOCK_ADDR_LO[k] (R171). -/
def execRdLockAddrLo (k : Nat) (s : State) : Host.Outcome State Fault Refusal :=
  readReg s k fun c => addrLo c.regs.lockAddr

/-- WR LOCK_ADDR_LO[k], v: a value that is not word-aligned is a configuration defect (R172). -/
def execWrLockAddrLo (k : Nat) (v : Word) (s : State) : Host.Outcome State Fault Refusal :=
  writeStopped s k (wordAligned v) fun r => { r with lockAddr := setAddrLo r.lockAddr v }

/-- RD LOCK_ADDR_HI[k] (R173). -/
def execRdLockAddrHi (k : Nat) (s : State) : Host.Outcome State Fault Refusal :=
  readReg s k fun c => addrHi s.params c.regs.lockAddr

/-- WR LOCK_ADDR_HI[k], v: never a defect (R174). -/
def execWrLockAddrHi (k : Nat) (v : Word) (s : State) : Host.Outcome State Fault Refusal :=
  writeStopped s k true fun r => { r with lockAddr := setAddrHi s.params r.lockAddr v }

end Sys2Proof.Machine
end

