-- ==== Sys2Proof/Machine/CfgControl.lean ====
section
/-!
DEFINITION. MODE, SIZE, RUNNING, DIRECTION and STATUS (R175 to R184).
-/
namespace Sys2Proof.Machine

/-- RD MODE[k] (R175). -/
def execRdMode (k : Nat) (s : State) : Host.Outcome State Fault Refusal :=
  readReg s k fun c => modeCode c.regs.mode

/-- WR MODE[k], v: a word other than 0, 1 or 2 is a configuration defect (R176). -/
def execWrMode (k : Nat) (v : Word) (s : State) : Host.Outcome State Fault Refusal :=
  writeStopped s k (modeOfWord v).isSome fun r => { r with mode := (modeOfWord v).getD r.mode }

/-- RD SIZE[k] (R177). -/
def execRdSize (k : Nat) (s : State) : Host.Outcome State Fault Refusal :=
  readReg s k fun c => c.regs.size

/-- WR SIZE[k], v: a value that is not burst-aligned is a configuration defect (R178). -/
def execWrSize (k : Nat) (v : Word) (s : State) : Host.Outcome State Fault Refusal :=
  writeStopped s k (burstAligned s.params v) fun r => { r with size := v }

/-- RD RUNNING[k] (R179). -/
def execRdRunning (k : Nat) (s : State) : Host.Outcome State Fault Refusal :=
  readReg s k fun c => if c.regs.running then 1 else 0

/-- WR RUNNING[k], v: only bit 0 counts and the write is never rejected (R180). A 1 on a stopped channel starts it with offset 0, or is a
configuration defect; a 0 on a running channel stops it, and in the middle of a transaction records CANCEL_UNSUPPORTED as well; otherwise nothing
changes. -/
def execWrRunning (k : Nat) (v : Word) (s : State) : Host.Outcome State Fault Refusal :=
  withChan s k fun c =>
    let s' := s.reply (.written false)
    match v.getLsbD 0, c.regs.running with
    | true, false =>
      if startDefect s.params c.regs then .next ((s.reply .idle).recordFault .configDefect)
      else .next (s'.setChan k { c with regs := { c.regs with running := true }, offset := 0 })
    | false, true =>
      let stopped := s'.setChan k { c with regs := { c.regs with running := false } }
      if stopIsSafe c.state (s.port k).req then .next stopped
      else .next (stopped.recordFault .cancelUnsupported)
    | _, _ => .next s'

/-- RD DIRECTION[k] (R181). -/
def execRdDirection (k : Nat) (s : State) : Host.Outcome State Fault Refusal :=
  readReg s k fun _ => directionCode (s.params.dir k)

/-- WR DIRECTION[k], v: read-only (R182). -/
def execWrDirection (k : Nat) (_v : Word) (s : State) : Host.Outcome State Fault Refusal :=
  writeReadOnly s k

/-- RD STATUS[k] (R183). -/
def execRdStatus (k : Nat) (s : State) : Host.Outcome State Fault Refusal :=
  readReg s k fun c => statusCode c.state

/-- WR STATUS[k], v: read-only (R184). -/
def execWrStatus (k : Nat) (_v : Word) (s : State) : Host.Outcome State Fault Refusal :=
  writeReadOnly s k

end Sys2Proof.Machine
end

