-- ==== Sys2Proof/Machine/CfgScratch.lean ====
section
/-!
DEFINITION. The scratch registers and the reserved encodings (R185 to R188).
-/
namespace Sys2Proof.Machine

/-- RD SCRATCH[i] (R185). -/
def execRdScratch (i : Nat) (s : State) : Host.Outcome State Fault Refusal :=
  match s.scratch[i]? with
  | some w => .next (s.reply (.read w false))
  | none => .refused .noSuchScratch

/-- WR SCRATCH[i], v, at any time (R186). -/
def execWrScratch (i : Nat) (v : Word) (s : State) : Host.Outcome State Fault Refusal :=
  match s.scratch[i]? with
  | some _ => .next { s.reply (.written false) with scratch := s.scratch.set i v }
  | none => .refused .noSuchScratch

/-- RD of a reserved encoding: 0 with cfg_err = 1 (R187). -/
def execRdReserved (_addr : BitVec 15) (s : State) : Host.Outcome State Fault Refusal :=
  .next (s.reply (.read 0 true))

/-- WR of a reserved encoding: cfg_err = 1, nothing else changed (R188). -/
def execWrReserved (_addr : BitVec 15) (_v : Word) (s : State) : Host.Outcome State Fault Refusal :=
  .next (s.reply (.written true))

end Sys2Proof.Machine
end

