-- ==== Sys2Proof/Machine/Request.lean ====
section
/-!
DEFINITION. The requests the command generator sends (R302 to R312). The meaning of a request is the generator's sending step: it offers the
transaction's next command flit and moves on when the bus takes it.
-/
namespace Sys2Proof.Machine

/-- The generator after the bus took flit number gen.idx of a transaction of n flits (R302). -/
def genAfterFlit (n : Nat) (g : Gen) : Gen :=
  if g.idx.toNat + 1 = n then { g with busy := false } else { g with idx := g.idx + 1 }

/-- The sending step for a request of type t of channel k (R302, R303): the flit of index gen.idx is offered; when the bus takes it, it stands on the
wire, a DATA_WRITE pops the FIFO and the generator moves on; otherwise nothing changes. A DATA_WRITE flit offered from an empty FIFO is
GEN_FIFO_EMPTY, which is recorded, and is not sent (R312; log 4). -/
def sendFlit (t : ReqType) (k : Nat) (s : State) : Host.Outcome State Fault Refusal :=
  withChan s k fun c =>
    if t = .dataWrite ∧ c.fifo = [] then .next (s.recordFault .genFifoEmpty)
    else if cmdReady s then
      .next
        { s with
          gen := genAfterFlit (reqFlits s.params t) s.gen
          bus := { s.bus with wire := some (reqFlit s.params t k c s.gen.idx.toNat) }
          chans := if t = .dataWrite then s.chans.set k { c with fifo := c.fifo.tail } else s.chans }
    else .next s

/-- TICKET_READ of channel k (R304). -/
def execTicketRead (k : Nat) (s : State) : Host.Outcome State Fault Refusal :=
  sendFlit .ticketRead k s

/-- TICKET_CAS of channel k (R305). -/
def execTicketCas (k : Nat) (s : State) : Host.Outcome State Fault Refusal :=
  sendFlit .ticketCas k s

/-- LOCK_READ of channel k (R306). -/
def execLockRead (k : Nat) (s : State) : Host.Outcome State Fault Refusal :=
  sendFlit .lockRead k s

/-- STATUS_READ of channel k (R307). -/
def execStatusRead (k : Nat) (s : State) : Host.Outcome State Fault Refusal :=
  sendFlit .statusRead k s

/-- DATA_READ of channel k (R308). -/
def execDataRead (k : Nat) (s : State) : Host.Outcome State Fault Refusal :=
  sendFlit .dataRead k s

/-- DATA_WRITE of channel k (R309). -/
def execDataWrite (k : Nat) (s : State) : Host.Outcome State Fault Refusal :=
  sendFlit .dataWrite k s

/-- STATUS_WRITE of channel k (R310). -/
def execStatusWrite (k : Nat) (s : State) : Host.Outcome State Fault Refusal :=
  sendFlit .statusWrite k s

/-- LOCK_RELEASE of channel k (R311). -/
def execLockRelease (k : Nat) (s : State) : Host.Outcome State Fault Refusal :=
  sendFlit .lockRelease k s

end Sys2Proof.Machine
end

