-- ==== Sys2Proof/Machine/Dispatch.lean ====
section
/-! DEFINITION. exec: one arm per instruction, each one call of its meaning. -/
namespace Sys2Proof.Machine

def exec (i : Instr) (s : State) : Host.Outcome State Fault Refusal :=
  match i with
  | .rdBufferAddrLo k => Sys2Proof.Machine.execRdBufferAddrLo k s
  | .wrBufferAddrLo k v => Sys2Proof.Machine.execWrBufferAddrLo k v s
  | .rdBufferAddrHi k => Sys2Proof.Machine.execRdBufferAddrHi k s
  | .wrBufferAddrHi k v => Sys2Proof.Machine.execWrBufferAddrHi k v s
  | .rdDescAddrLo k => Sys2Proof.Machine.execRdDescAddrLo k s
  | .wrDescAddrLo k v => Sys2Proof.Machine.execWrDescAddrLo k v s
  | .rdDescAddrHi k => Sys2Proof.Machine.execRdDescAddrHi k s
  | .wrDescAddrHi k v => Sys2Proof.Machine.execWrDescAddrHi k v s
  | .rdLockAddrLo k => Sys2Proof.Machine.execRdLockAddrLo k s
  | .wrLockAddrLo k v => Sys2Proof.Machine.execWrLockAddrLo k v s
  | .rdLockAddrHi k => Sys2Proof.Machine.execRdLockAddrHi k s
  | .wrLockAddrHi k v => Sys2Proof.Machine.execWrLockAddrHi k v s
  | .rdDirection k => Sys2Proof.Machine.execRdDirection k s
  | .wrDirection k v => Sys2Proof.Machine.execWrDirection k v s
  | .rdMode k => Sys2Proof.Machine.execRdMode k s
  | .wrMode k v => Sys2Proof.Machine.execWrMode k v s
  | .rdSize k => Sys2Proof.Machine.execRdSize k s
  | .wrSize k v => Sys2Proof.Machine.execWrSize k v s
  | .rdRunning k => Sys2Proof.Machine.execRdRunning k s
  | .wrRunning k v => Sys2Proof.Machine.execWrRunning k v s
  | .rdStatus k => Sys2Proof.Machine.execRdStatus k s
  | .wrStatus k v => Sys2Proof.Machine.execWrStatus k v s
  | .rdScratch n => Sys2Proof.Machine.execRdScratch n s
  | .wrScratch n v => Sys2Proof.Machine.execWrScratch n v s
  | .rdReserved addr => Sys2Proof.Machine.execRdReserved addr s
  | .wrReserved addr v => Sys2Proof.Machine.execWrReserved addr v s
  | .ticketRead k => Sys2Proof.Machine.execTicketRead k s
  | .ticketCas k => Sys2Proof.Machine.execTicketCas k s
  | .lockRead k => Sys2Proof.Machine.execLockRead k s
  | .statusRead k => Sys2Proof.Machine.execStatusRead k s
  | .dataRead k => Sys2Proof.Machine.execDataRead k s
  | .dataWrite k => Sys2Proof.Machine.execDataWrite k s
  | .statusWrite k => Sys2Proof.Machine.execStatusWrite k s
  | .lockRelease k => Sys2Proof.Machine.execLockRelease k s
  | .busRead addr plen wdata eop tag => Sys2Proof.Machine.execBusRead addr plen wdata eop tag s
  | .busWrite addr plen wdata eop tag => Sys2Proof.Machine.execBusWrite addr plen wdata eop tag s
  | .busCas addr plen wdata eop tag => Sys2Proof.Machine.execBusCas addr plen wdata eop tag s

end Sys2Proof.Machine
end

