-- ==== Sys2Proof/Machine/Ports.lean ====
section
/-!
DEFINITION. The port side of the FIFOs (R370 to R376). A FROM_MEMORY port pops, a TO_MEMORY port pushes after the generator's pop of the
tick (R373).
-/
namespace Sys2Proof.Machine

/-- The port's word of the tick: c0 is the channel at the start of the tick, c the channel after the generator's pop (R374, R375). -/
def portStep (p : Params) (d : Direction) (x : PortIn) (c0 c : Channel) : Channel :=
  match d with
  | .fromMemory => if portRvalid c0 && x.rready then { c with fifo := c.fifo.tail } else c
  | .toMemory => if x.wvalid && portWready p c.fifo then { c with fifo := c.fifo ++ [x.wdata] } else c

/-- Every port's word of the tick. -/
def portPhase (s0 s : State) : State :=
  { s with
    chans := s.chans.mapIdx fun k c =>
      portStep s0.params (s0.params.dir k) (s0.port k) (s0.chans.getD k c) c }

end Sys2Proof.Machine
end

