-- ==== Sys2Proof/Machine/Tick.lean ====
section
/-!
DEFINITION. One tick (R15, R16). Every agent reads the state at the start of the tick, and all writes land together. The three places where an
instruction runs are the generator (a request), the bus (a command flit) and the configuration interface (a register access);
their order below is one in which none reads what an earlier one wrote, so each reads the start of the tick (log 25).
-/
namespace Sys2Proof.Machine

/-- Decodes what stands on an interface and runs it. -/
def runRaw (r : RawInstr) (s : State) : Host.Outcome State Fault Refusal :=
  match decode s.params r with
  | .ok i => exec i s
  | .error .reservedBusCommand => .refused .reservedBusCommand
  | .error .noSuchChannel => .refused .noSuchChannel

/-- The request the generator is sending in this tick (R302): the recorded request type of the channel it serves. -/
def fetchRequest (s : State) : Option RawInstr :=
  if s.gen.busy then
    some (.req (match s.chans[s.gen.ch]? with | some c => c.reqType.code | none => 0) s.gen.ch)
  else none

/-- The command flit on the wire. -/
def fetchCommand (s : State) : Option RawInstr := s.bus.wire.map .bus

/-- The configuration access of the tick (R120, R129). -/
def fetchAccess (s : State) : Option RawInstr := s.input.cfg.map fun a => .cfg a.word a.wdata

/-- The generator's sending step (R302). -/
def sendPhase (s : State) : Host.Outcome State Fault Refusal :=
  match fetchRequest s with
  | none => .next s
  | some r => runRaw r s

/-- The bus takes the command flit on the wire (R96 B2), which leaves the wire. -/
def commandPhase (s : State) : Host.Outcome State Fault Refusal :=
  match fetchCommand s with
  | none => .next s
  | some r => runRaw r { s with bus := { s.bus with wire := none } }

/-- The configuration access and its reply; no access, no reply (R120). -/
def accessPhase (s : State) : Host.Outcome State Fault Refusal :=
  match fetchAccess s with
  | none => .next (s.reply .idle)
  | some r => runRaw r s

/-- What each port goes on holding after a tick (R384 P1): the request it drove, until the tick of its acknowledge. -/
def heldRequests (s : State) : List (Option (BitVec 32)) :=
  s.chans.mapIdx fun k c => if (s.port k).req && !portAck c then some (s.port k).burstCount else none

/-- The end of the tick: the bus's own moves, the requests the ports go on holding, and the tick's inputs are used up. -/
def endTick (s0 s : State) : State :=
  let s1 := busActs s0.input.acts s
  { s1 with bus := busRespond s0.input.respond s1.bus, held := heldRequests s0, env := s0.env.tail }

/-- The other agents of the tick (R9), reading the state s0 of its start and writing s: the ports, the arbiter, the demultiplexer, the channels, and
the bus. -/
def agentsPhase (s0 s : State) : State :=
  endTick s0 (fsmPhase s0 (dmxPhase s0 (arbPhase s0 (portPhase s0 s))))

/-- The fault the machine is stuck in, if a tick has recorded one that gives the run no meaning: any but CANCEL_UNSUPPORTED (R440, D11; log 4). -/
def stuckIn (s : State) : Option Fault := s.faults.find? fun f => f != .cancelUnsupported

/-- One tick. -/
def tick (s : State) : Host.Outcome State Fault Refusal :=
  match stuckIn s with
  | some f => .fault f
  | none =>
    andThen (sendPhase s) fun s1 =>
    andThen (commandPhase s1) fun s2 =>
    andThen (accessPhase s2) fun s3 =>
    .next (agentsPhase s s3)

/-! ### Placing an instruction where the next step runs it (log 10) -/

/-- The state a request is posted in (R130, R206): a data request in BULK_DATA_MOVE in the bulk modes and in DATA_MOVE otherwise. -/
def postingState (m : Mode) : ReqType → FsmState
  | .ticketRead => .ticketRead
  | .ticketCas => .ticketCas
  | .lockRead => .lockRead
  | .statusRead => .statusRead
  | .dataRead => if m.isBulk then .bulkDataMove else .dataMove
  | .dataWrite => if m.isBulk then .bulkDataMove else .dataMove
  | .statusWrite => .statusUpdate
  | .lockRelease => .lockRelease

/-- The request type of a code (R130). -/
def reqTypeOfCode (code : BitVec 3) : ReqType :=
  match code.toNat with
  | 0 => .ticketRead
  | 1 => .ticketCas
  | 2 => .lockRead
  | 3 => .statusRead
  | 4 => .dataRead
  | 5 => .dataWrite
  | 6 => .statusWrite
  | _ => .lockRelease

/-- A channel whose request of type t has just been selected: it is in the state that posts it, and a DATA_WRITE has the burst of words that its
gate required (R205), zeros where the FIFO holds fewer. -/
def placeRequest (p : Params) (t : ReqType) (c : Channel) : Channel :=
  { c with
    state := postingState c.regs.mode t
    reqValid := false
    reqType := t
    reqIssued := true
    rspReady := false
    fifo := if t = .dataWrite then c.fifo ++ List.replicate (p.burstWords - c.fifo.length) 0 else c.fifo }

/-- s with r standing where the next tick runs it, and nothing on the other two interfaces. -/
def placeRaw (s : State) (r : RawInstr) : State :=
  match r with
  | .cfg word wdata =>
    { s with
      gen := { s.gen with busy := false }
      bus := { s.bus with wire := none }
      env := { s.input with cfg := some ⟨word, wdata⟩ } :: s.env.tail }
  | .req code ch =>
    { s with
      gen := ⟨true, ch, 0, s.gen.rrLast⟩
      chans := s.chans.modify ch (placeRequest s.params (reqTypeOfCode code))
      bus := { s.bus with wire := none }
      env := { s.input with cfg := none, cmdReady := true } :: s.env.tail }
  | .bus flit =>
    { s with
      gen := { s.gen with busy := false }
      bus := { s.bus with wire := some flit }
      env := { s.input with cfg := none } :: s.env.tail }

end Sys2Proof.Machine
end

