-- ==== Sys2Proof/Machine/Step.lean ====
section
/-! DEFINITION. The step of the machine, one tick (R15), and the placing of a table word where the next step runs it. -/
namespace Sys2Proof.Machine

/-- One step is one global tick of every agent (R15, R16). -/
def step (s : State) : Host.Outcome State Fault Refusal := tick s

/-- s with a table word standing where the next step runs it (log 10). -/
def State.withFetchWord (s : State) (nbits w : Nat) : State := placeRaw s (tableRaw nbits w)

end Sys2Proof.Machine
end

