-- ==== Sys2Proof/Safety.lean ====
section
/-!
DEFINITION. What a safe state is, in the terms the claims use: the shape of the state, the request and response handshake, the configuration
registers, and the progress of a running channel in a run with no recorded fault (R19, R400).
-/
namespace Sys2Proof.Machine

/-- No model fault is recorded (R19, R59). -/
abbrev NoFault (s : State) : Prop := s.faults = []

/-- The shape of the state: legal parameters (R10), one record per channel and per scratch register, channel numbers that are channels,
FIFOs no longer than FIFO_DEPTH (R370), burst counts inside BC_BITS bits (R43, R47), memory in its canonical form inside the address space (R84), and faults a set (R59). -/
structure ShapeOk (s : State) : Prop where
  params : s.params.Wf
  chans : s.chans.length = s.params.nChannels
  scratch : s.scratch.length = s.params.nScratch
  genCh : s.gen.ch < s.params.nChannels
  rrLast : s.gen.rrLast < s.params.nChannels
  dmxCh : s.dmx.ch < s.params.nChannels
  fifo : ∀ c ∈ s.chans, c.fifo.length ≤ s.params.fifoDepth
  counts : ∀ c ∈ s.chans, c.remaining.toNat < 2 ^ s.params.bcBits ∧ c.sqChunk.toNat < 2 ^ s.params.bcBits ∧
    c.sqMoved.toNat < 2 ^ s.params.bcBits
  memWf : Memory.wf s.mem
  memIn : ∀ x ∈ s.mem, x.1 < 2 ^ s.params.paddrWidth
  faultsOnce : s.faults.Nodup

/-- One channel's handshake flags: at most one of posted, outstanding and answered, and a request only of the kind its state posts
(R206, R98, R211). -/
structure ChanHandshakeOk (d : Direction) (c : Channel) : Prop where
  validAlone : c.reqValid = true → c.reqIssued = false ∧ c.rspReady = false
  issuedAlone : c.reqIssued = true → c.rspReady = false
  posted : c.reqValid = true ∨ c.reqIssued = true → postedRequest d c.state = some c.reqType
  ready : c.rspReady = true → (postedRequest d c.state).isSome = true

/-- Every channel's handshake, and the demultiplexer busy only with a channel that has a request outstanding (R341, R346). -/
structure HandshakeOk (s : State) : Prop where
  chan : ∀ (k : Nat) (c : Channel), s.chans[k]? = some c → ChanHandshakeOk (s.params.dir k) c
  dmx : s.dmx.busy = true → ∃ c, s.chans[s.dmx.ch]? = some c ∧ c.reqIssued = true

/-- The configuration registers of a channel: inside PADDR_WIDTH bits (R32 to R34), DESC_ADDR and LOCK_ADDR word-aligned, SIZE burst-aligned (R36), and
the low half of BUFFER_ADDR burst-aligned, which is what the writes check (R164; log 20). -/
structure RegsOk (p : Params) (r : ChanRegs) : Prop where
  bufferIn : r.bufferAddr.toNat < 2 ^ p.paddrWidth
  descIn : r.descAddr.toNat < 2 ^ p.paddrWidth
  lockIn : r.lockAddr.toNat < 2 ^ p.paddrWidth
  bufferAligned : (addrLo r.bufferAddr).toNat % p.burstBytes = 0
  descAligned : r.descAddr.toNat % 4 = 0
  lockAligned : r.lockAddr.toNat % 4 = 0
  sizeAligned : r.size.toNat % p.burstBytes = 0

/-- Something of the channel's is posted, outstanding or answered. -/
def Channel.engaged (c : Channel) : Bool := c.reqValid || c.reqIssued || c.rspReady

/-- The state is one of the seven protocol steps (R260). -/
def FsmState.isProtocol : FsmState → Bool
  | .ticketRead => true
  | .ticketCas => true
  | .lockRead => true
  | .statusRead => true
  | .dataMove => true
  | .statusUpdate => true
  | .lockRelease => true
  | .idle => false
  | .ack => false
  | .bulkDataMove => false
  | .success => false
  | .errorLock => false
  | .errorDescriptor => false
  | .errorData => false

/-- A channel in a run with no recorded fault: stopped only at rest (R215); started only with a size and regions that fit (R180); in the states of
its mode (R202, R216, R278); a bulk transfer's offset burst-aligned, never past SIZE, and at SIZE exactly in SUCCESS (R243). -/
structure RunOk (p : Params) (c : Channel) : Prop where
  stopped : c.regs.running = false → c.state = .idle ∨ c.state.isTerminal = true
  started : c.regs.running = true → startDefect p c.regs = false
  protocol : c.regs.running = true → c.state.isProtocol = true → c.regs.mode = .sharedQueue
  bulk : c.regs.running = true → c.state = .bulkDataMove ∨ c.state = .success → c.regs.mode.isBulk = true
  offsetAligned : c.regs.running = true → c.regs.mode.isBulk = true → c.offset.toNat % p.burstBytes = 0
  offsetLt : c.regs.running = true → c.regs.mode.isBulk = true → c.state ≠ .success → c.offset.toNat < c.regs.size.toNat
  offsetEq : c.regs.running = true → c.state = .success → c.offset = c.regs.size
  burstsLeft : c.state = .bulkDataMove → c.engaged = true → c.remaining ≠ 0

/-- A shared-queue channel's mirrors from STATUS_READ to STATUS_UPDATE: indices burst-aligned and below CAP_W, occupancy at most CAP_W (R269, R273), and in
DATA_MOVE the bursts still to move covered by the group, by the data present and by the space free, and the bursts moved counted without
wrapping (R270, R272). -/
structure QueueOk (p : Params) (d : Direction) (c : Channel) : Prop where
  mirrors : c.state = .dataMove ∨ c.state = .statusUpdate → descriptorOk p c c.sqOcc c.sqRd c.sqWr = true
  chunkLe : c.state = .dataMove → c.sqChunk.toNat ≤ c.remaining.toNat
  chunkData : c.state = .dataMove → d = .fromMemory → c.sqChunk.toNat * p.burstWords ≤ c.sqOcc.toNat
  chunkSpace : c.state = .dataMove → d = .toMemory → c.sqOcc.toNat + c.sqChunk.toNat * p.burstWords ≤ capWords c
  chunkLeft : c.state = .dataMove → c.engaged = true → c.sqChunk ≠ 0
  movedFits : c.state = .dataMove → c.sqMoved.toNat + c.remaining.toNat < 2 ^ p.bcBits

/-- The invariant of every run with no recorded fault. -/
structure MachineOk (s : State) : Prop where
  shape : ShapeOk s
  handshake : HandshakeOk s
  regs : ∀ c ∈ s.chans, RegsOk s.params c.regs
  run : NoFault s → ∀ c ∈ s.chans, RunOk s.params c
  queue : NoFault s → ∀ (k : Nat) (c : Channel), s.chans[k]? = some c → QueueOk s.params (s.params.dir k) c

/-- The states the machine reaches from s in some number of steps, whatever its environment's script says. -/
inductive Reaches : State → State → Prop where
  | refl (s : State) : Reaches s s
  | step {s t u : State} : step s = .next t → Reaches t u → Reaches s u

/-- A safe state: the invariant holds and no model fault is recorded (R19). -/
def Safe (s : State) : Prop := MachineOk s ∧ NoFault s

/-! ### Terms the claims use -/

/-- The access word w is a write (we) or a read of register index of block, at byte 00: bit 15 and the fields of R121 and R129. -/
def IsAccess (w : BitVec 16) (we : Bool) (block index : Nat) : Prop :=
  w.toNat = (if we then 32768 else 0) + 64 * block + 4 * index

/-- Every word that is a read of register index of block decodes to i. -/
def ReadDecodesTo (p : Params) (block index : Nat) (i : Instr) : Prop :=
  ∀ (w : BitVec 16) (d : Word), IsAccess w false block index → decode p (.cfg w d) = .ok i

/-- Every word that is a write of v to register index of block decodes to i. -/
def WriteDecodesTo (p : Params) (block index : Nat) (v : Word) (i : Instr) : Prop :=
  ∀ w : BitVec 16, IsAccess w true block index → decode p (.cfg w v) = .ok i

/-- The registers an access can write (R123). -/
inductive Reg where
  | bufferAddr
  | descAddr
  | lockAddr
  | mode
  | size
  | running
deriving DecidableEq, Repr

/-- The channel and register an instruction writes, if it writes one. -/
def destReg : Instr → Option (Nat × Reg)
  | .wrBufferAddrLo k _ => some (k, .bufferAddr)
  | .wrBufferAddrHi k _ => some (k, .bufferAddr)
  | .wrDescAddrLo k _ => some (k, .descAddr)
  | .wrDescAddrHi k _ => some (k, .descAddr)
  | .wrLockAddrLo k _ => some (k, .lockAddr)
  | .wrLockAddrHi k _ => some (k, .lockAddr)
  | .wrMode k _ => some (k, .mode)
  | .wrSize k _ => some (k, .size)
  | .wrRunning k _ => some (k, .running)
  | _ => none

/-- The scratch register an instruction writes, if it writes one. -/
def destScratch : Instr → Option Nat
  | .wrScratch i _ => some i
  | _ => none

/-- The request type and channel of a request, if the instruction is one (R130). -/
def requestOf : Instr → Option (ReqType × Nat)
  | .ticketRead k => some (.ticketRead, k)
  | .ticketCas k => some (.ticketCas, k)
  | .lockRead k => some (.lockRead, k)
  | .statusRead k => some (.statusRead, k)
  | .dataRead k => some (.dataRead, k)
  | .dataWrite k => some (.dataWrite, k)
  | .statusWrite k => some (.statusWrite, k)
  | .lockRelease k => some (.lockRelease, k)
  | _ => none

/-- The fields of a command flit as numbers (R133). -/
def FlitIs (f : CmdFlit) (cmd addr plen wdata : Nat) (eop : Bool) (tag : Nat) : Prop :=
  f.cmd.toNat = cmd ∧ f.addr.toNat = addr ∧ f.plen.toNat = plen ∧ f.wdata.toNat = wdata ∧ f.eop = eop ∧ f.tag = tag

/-- The generator after flit number g.idx of n was taken (R302): not busy after the last, the next index otherwise. -/
def SentOf (n : Nat) (g g' : Gen) : Prop :=
  g'.ch = g.ch ∧ g'.rrLast = g.rrLast ∧ (g.idx.toNat + 1 = n → g'.busy = false ∧ g'.idx = g.idx) ∧
    (g.idx.toNat + 1 ≠ n → g'.busy = g.busy ∧ g'.idx = g.idx + 1)

/-- No recorded fault gives the run no meaning: none but CANCEL_UNSUPPORTED is recorded (R440, D11; log 4). -/
abbrev NotStuck (s : State) : Prop := ∀ f ∈ s.faults, f = .cancelUnsupported

/-- The descriptor answered to the channel is one that check_descriptor refuses (R269). -/
def BadDescriptor (p : Params) (c : Channel) : Prop :=
  c.regs.size.toNat / 4 < c.rspData0.toNat ∨ c.regs.size.toNat / 4 ≤ c.rspData1.toNat ∨ c.regs.size.toNat / 4 ≤ c.rspData2.toNat ∨
    c.rspData1.toNat % p.burstWords ≠ 0 ∨ c.rspData2.toNat % p.burstWords ≠ 0

/-- The bus takes the flit offered in the tick about to be made. -/
def BusTakes (s : State) : Prop := s.input.cmdReady = true ∧ s.bus.wire = none

/-- The byte addresses of n bytes from a on (R95). -/
def InRange (p : Params) (a : Addr) (n b : Nat) : Prop := ∃ i < n, b = (a.toNat + i) % 2 ^ p.paddrWidth

/-- The address of word j of an access at a, as a number (R81, R95). -/
def wordAt (p : Params) (a : Addr) (j : Nat) : Addr := BitVec.ofNat 64 ((a.toNat + 4 * j) % 2 ^ p.paddrWidth)

/-- One tick takes s to t, and channel k from c to c'. -/
structure Tick (s t : State) (k : Nat) (c c' : Channel) : Prop where
  step : step s = .next t
  before : s.chans[k]? = some c
  after : t.chans[k]? = some c'

/-- The eight bus states (R127, R204). -/
def FsmState.isBus (q : FsmState) : Bool := q.isProtocol || decide (q = .bulkDataMove)

/-- Nothing of the channel's is posted, outstanding or answered (R206). -/
def Channel.quiet (c : Channel) : Prop := c.reqValid = false ∧ c.reqIssued = false ∧ c.rspReady = false

/-- A response without an error is ready for the channel (R207). -/
def Channel.answered (c : Channel) : Prop := c.rspReady = true ∧ c.rspErr = false

/-- Channel k consumes a bulk burst without an error in the tick about to be made (R242). -/
def burstDone (s : State) (k : Nat) : Bool :=
  match s.chans[k]? with
  | some c => decide (c.state = .bulkDataMove) && c.rspReady && !c.rspErr
  | none => false

/-- The cause of each model fault in the tick about to be made (R440). -/
def FaultCause (s : State) : Fault → Prop
  /- R164, R168, R172, R176, R178, R180. -/
  | .configDefect => ∃ a k c, s.input.cfg = some a ∧ s.chans[k]? = some c ∧ c.regs.running = false ∧
      let writes := fun i => decode s.params (.cfg a.word a.wdata) = .ok i
      let top := 2 ^ s.params.paddrWidth
      ((writes (.wrBufferAddrLo k a.wdata) ∧ a.wdata.toNat % s.params.burstBytes ≠ 0) ∨
       (writes (.wrDescAddrLo k a.wdata) ∧ a.wdata.toNat % 4 ≠ 0) ∨
       (writes (.wrLockAddrLo k a.wdata) ∧ a.wdata.toNat % 4 ≠ 0) ∨
       (writes (.wrMode k a.wdata) ∧ 2 < a.wdata.toNat) ∨
       (writes (.wrSize k a.wdata) ∧ a.wdata.toNat % s.params.burstBytes ≠ 0) ∨
       (writes (.wrRunning k a.wdata) ∧ a.wdata.toNat % 2 = 1 ∧
        (c.regs.size = 0 ∨ top < c.regs.bufferAddr.toNat + c.regs.size.toNat ∨
          (c.regs.mode = .sharedQueue ∧ (top < c.regs.descAddr.toNat + 12 ∨ top < c.regs.lockAddr.toNat + 8)))))
  /- R180. -/
  | .cancelUnsupported => ∃ a k c, s.input.cfg = some a ∧ s.chans[k]? = some c ∧ c.regs.running = true ∧
      decode s.params (.cfg a.word a.wdata) = .ok (.wrRunning k a.wdata) ∧ a.wdata.toNat % 2 = 0 ∧
      c.state ≠ .success ∧ c.state ≠ .errorLock ∧ c.state ≠ .errorDescriptor ∧ c.state ≠ .errorData ∧
      (c.state = .idle → (s.port k).req = true)
  /- R269. -/
  | .descInconsistent => ∃ c ∈ s.chans, c.state = .statusRead ∧ c.answered ∧ BadDescriptor s.params c
  /- R341, R342, R347, R348. -/
  | .busProtocol => ∃ f, s.bus.rsp = some f ∧
      ((s.dmx.busy = false ∧ (s.params.nChannels ≤ f.rtag ∨
          ∃ c, s.chans[f.rtag]? = some c ∧ c.rspReady = false ∧ (c.reqIssued = false ∨ c.state.isBus = false))) ∨
       (s.dmx.busy = true ∧ f.rtag ≠ s.dmx.ch))
  /- R312. -/
  | .genFifoEmpty => s.gen.busy = true ∧ ∃ c, s.chans[s.gen.ch]? = some c ∧ c.reqType = .dataWrite ∧ c.fifo = []
  /- R345. -/
  | .fifoOverflow => ∃ f c, s.bus.rsp = some f ∧ s.chans[f.rtag]? = some c ∧ rspAccept s = true ∧
      (c.state = .bulkDataMove ∨ c.state = .dataMove) ∧ s.params.dir f.rtag = .fromMemory ∧
      s.params.fifoDepth ≤ (if (s.port f.rtag).rready = true then c.fifo.tail else c.fifo).length

/-- The generator selects channel j in the tick about to be made. -/
def Selects (s : State) (j : Nat) : Prop := s.gen.busy = false ∧ selected s = some j

end Sys2Proof.Machine
end

