-- ==== Sys2Proof/Certificates/Slice0/Obligations.lean ====
section
/-!
DEFINITION. The statements for the provers. A statement about every state takes as premises only invariants that are stated here themselves
(ShapeOk, HandshakeOk, MachineOk).
-/
open Sys2Proof Sys2Proof.Machine

/-! ## The register file -/

/-- RD of the six address registers: the low half, and the bits from 32 to PADDR_WIDTH-1 zero-extended; cfg_err = 0 and nothing else
changed (R163, R165, R167, R169, R171, R173). -/
def Obligations.AddressRegisterReads : Prop :=
  ∀ (s : State) (k : Nat) (c : Channel), s.params.Wf → k < s.params.nChannels → s.chans[k]? = some c →
    (ReadDecodesTo s.params k 0 (.rdBufferAddrLo k) ∧
      ∃ v : Word, v.toNat = c.regs.bufferAddr.toNat % 2 ^ 32 ∧
        exec (.rdBufferAddrLo k) s = .next (s.reply (.read v false))) ∧
    (ReadDecodesTo s.params k 1 (.rdBufferAddrHi k) ∧
      ∃ v : Word, v.toNat = c.regs.bufferAddr.toNat % 2 ^ s.params.paddrWidth / 2 ^ 32 ∧
        exec (.rdBufferAddrHi k) s = .next (s.reply (.read v false))) ∧
    (ReadDecodesTo s.params k 2 (.rdDescAddrLo k) ∧
      ∃ v : Word, v.toNat = c.regs.descAddr.toNat % 2 ^ 32 ∧
        exec (.rdDescAddrLo k) s = .next (s.reply (.read v false))) ∧
    (ReadDecodesTo s.params k 3 (.rdDescAddrHi k) ∧
      ∃ v : Word, v.toNat = c.regs.descAddr.toNat % 2 ^ s.params.paddrWidth / 2 ^ 32 ∧
        exec (.rdDescAddrHi k) s = .next (s.reply (.read v false))) ∧
    (ReadDecodesTo s.params k 4 (.rdLockAddrLo k) ∧
      ∃ v : Word, v.toNat = c.regs.lockAddr.toNat % 2 ^ 32 ∧
        exec (.rdLockAddrLo k) s = .next (s.reply (.read v false))) ∧
    (ReadDecodesTo s.params k 5 (.rdLockAddrHi k) ∧
      ∃ v : Word, v.toNat = c.regs.lockAddr.toNat % 2 ^ s.params.paddrWidth / 2 ^ 32 ∧
        exec (.rdLockAddrHi k) s = .next (s.reply (.read v false)))

/-- RD of DIRECTION, MODE, SIZE, RUNNING and STATUS, STATUS being computed from the channel's state (R175, R177, R179, R181, R183, R39). -/
def Obligations.ControlRegisterReads : Prop :=
  ∀ (s : State) (k : Nat) (c : Channel), s.params.Wf → k < s.params.nChannels → s.chans[k]? = some c →
    (ReadDecodesTo s.params k 7 (.rdMode k) ∧
      ∃ v : Word, exec (.rdMode k) s = .next (s.reply (.read v false)) ∧
        (c.regs.mode = .sharedQueue → v = 0) ∧ (c.regs.mode = .bulkIrq → v = 1) ∧ (c.regs.mode = .bulkNoIrq → v = 2)) ∧
    (ReadDecodesTo s.params k 8 (.rdSize k) ∧ exec (.rdSize k) s = .next (s.reply (.read c.regs.size false))) ∧
    (ReadDecodesTo s.params k 9 (.rdRunning k) ∧
      ∃ v : Word, exec (.rdRunning k) s = .next (s.reply (.read v false)) ∧
        (c.regs.running = false → v = 0) ∧ (c.regs.running = true → v = 1)) ∧
    (ReadDecodesTo s.params k 6 (.rdDirection k) ∧
      ∃ v : Word, exec (.rdDirection k) s = .next (s.reply (.read v false)) ∧
        (s.params.dir k = .fromMemory → v = 0) ∧ (s.params.dir k = .toMemory → v = 1)) ∧
    (ReadDecodesTo s.params k 10 (.rdStatus k) ∧
      ∃ v : Word, exec (.rdStatus k) s = .next (s.reply (.read v false)) ∧
        (c.state = .success → v = 1) ∧ (c.state = .errorData → v = 2) ∧ (c.state = .errorLock → v = 3) ∧
        (c.state = .errorDescriptor → v = 4) ∧ (c.state.isTerminal = false → v = 0))

/-- WR of the low halves: rejected while running, CONFIG_DEFECT recorded when misaligned, and otherwise bits 31..0 are written and nothing
else (R164, R168, R172). -/
def Obligations.LowAddressWrites : Prop :=
  ∀ (s : State) (k : Nat) (c : Channel) (v : Word), s.params.Wf → k < s.params.nChannels → s.chans[k]? = some c →
    (WriteDecodesTo s.params k 0 v (.wrBufferAddrLo k v) ∧
      (c.regs.running = true → exec (.wrBufferAddrLo k v) s = .next (s.reply (.written true))) ∧
      (c.regs.running = false → v.toNat % s.params.burstBytes ≠ 0 → ∃ t, exec (.wrBufferAddrLo k v) s = .next t ∧ .configDefect ∈ t.faults) ∧
      (c.regs.running = false → v.toNat % s.params.burstBytes = 0 →
        ∃ a : Addr, a.toNat = c.regs.bufferAddr.toNat / 2 ^ 32 * 2 ^ 32 + v.toNat ∧
          exec (.wrBufferAddrLo k v) s =
            .next ((s.setChan k { c with regs := { c.regs with bufferAddr := a } }).reply (.written false)))) ∧
    (WriteDecodesTo s.params k 2 v (.wrDescAddrLo k v) ∧
      (c.regs.running = true → exec (.wrDescAddrLo k v) s = .next (s.reply (.written true))) ∧
      (c.regs.running = false → v.toNat % 4 ≠ 0 → ∃ t, exec (.wrDescAddrLo k v) s = .next t ∧ .configDefect ∈ t.faults) ∧
      (c.regs.running = false → v.toNat % 4 = 0 →
        ∃ a : Addr, a.toNat = c.regs.descAddr.toNat / 2 ^ 32 * 2 ^ 32 + v.toNat ∧
          exec (.wrDescAddrLo k v) s =
            .next ((s.setChan k { c with regs := { c.regs with descAddr := a } }).reply (.written false)))) ∧
    (WriteDecodesTo s.params k 4 v (.wrLockAddrLo k v) ∧
      (c.regs.running = true → exec (.wrLockAddrLo k v) s = .next (s.reply (.written true))) ∧
      (c.regs.running = false → v.toNat % 4 ≠ 0 → ∃ t, exec (.wrLockAddrLo k v) s = .next t ∧ .configDefect ∈ t.faults) ∧
      (c.regs.running = false → v.toNat % 4 = 0 →
        ∃ a : Addr, a.toNat = c.regs.lockAddr.toNat / 2 ^ 32 * 2 ^ 32 + v.toNat ∧
          exec (.wrLockAddrLo k v) s =
            .next ((s.setChan k { c with regs := { c.regs with lockAddr := a } }).reply (.written false))))

/-- WR of the high halves: rejected while running, never a defect; bits of v from PADDR_WIDTH-32 on are ignored, and with PADDR_WIDTH = 32 nothing
is written (R166, R170, R174). -/
def Obligations.HighAddressWrites : Prop :=
  ∀ (s : State) (k : Nat) (c : Channel) (v : Word), s.params.Wf → k < s.params.nChannels → s.chans[k]? = some c →
    let high := fun a : Addr => v.toNat % 2 ^ (s.params.paddrWidth - 32) * 2 ^ 32 + a.toNat % 2 ^ 32
    (WriteDecodesTo s.params k 1 v (.wrBufferAddrHi k v) ∧
      (c.regs.running = true → exec (.wrBufferAddrHi k v) s = .next (s.reply (.written true))) ∧
      (c.regs.running = false → ∃ a : Addr,
        a.toNat = (if 32 < s.params.paddrWidth then high c.regs.bufferAddr else c.regs.bufferAddr.toNat) ∧
          exec (.wrBufferAddrHi k v) s =
            .next ((s.setChan k { c with regs := { c.regs with bufferAddr := a } }).reply (.written false)))) ∧
    (WriteDecodesTo s.params k 3 v (.wrDescAddrHi k v) ∧
      (c.regs.running = true → exec (.wrDescAddrHi k v) s = .next (s.reply (.written true))) ∧
      (c.regs.running = false → ∃ a : Addr,
        a.toNat = (if 32 < s.params.paddrWidth then high c.regs.descAddr else c.regs.descAddr.toNat) ∧
          exec (.wrDescAddrHi k v) s =
            .next ((s.setChan k { c with regs := { c.regs with descAddr := a } }).reply (.written false)))) ∧
    (WriteDecodesTo s.params k 5 v (.wrLockAddrHi k v) ∧
      (c.regs.running = true → exec (.wrLockAddrHi k v) s = .next (s.reply (.written true))) ∧
      (c.regs.running = false → ∃ a : Addr,
        a.toNat = (if 32 < s.params.paddrWidth then high c.regs.lockAddr else c.regs.lockAddr.toNat) ∧
          exec (.wrLockAddrHi k v) s =
            .next ((s.setChan k { c with regs := { c.regs with lockAddr := a } }).reply (.written false))))

/-- WR of MODE and SIZE: rejected while running, CONFIG_DEFECT recorded when illegal, stored otherwise (R176, R178). -/
def Obligations.ModeSizeWrites : Prop :=
  ∀ (s : State) (k : Nat) (c : Channel) (v : Word), s.params.Wf → k < s.params.nChannels → s.chans[k]? = some c →
    (WriteDecodesTo s.params k 7 v (.wrMode k v) ∧
      (c.regs.running = true → exec (.wrMode k v) s = .next (s.reply (.written true))) ∧
      (c.regs.running = false → 2 < v.toNat → ∃ t, exec (.wrMode k v) s = .next t ∧ .configDefect ∈ t.faults) ∧
      (c.regs.running = false → v.toNat ≤ 2 → ∃ m : Mode,
        (v.toNat = 0 → m = .sharedQueue) ∧ (v.toNat = 1 → m = .bulkIrq) ∧ (v.toNat = 2 → m = .bulkNoIrq) ∧
          exec (.wrMode k v) s = .next ((s.setChan k { c with regs := { c.regs with mode := m } }).reply (.written false)))) ∧
    (WriteDecodesTo s.params k 8 v (.wrSize k v) ∧
      (c.regs.running = true → exec (.wrSize k v) s = .next (s.reply (.written true))) ∧
      (c.regs.running = false → v.toNat % s.params.burstBytes ≠ 0 → ∃ t, exec (.wrSize k v) s = .next t ∧ .configDefect ∈ t.faults) ∧
      (c.regs.running = false → v.toNat % s.params.burstBytes = 0 →
        exec (.wrSize k v) s = .next ((s.setChan k { c with regs := { c.regs with size := v } }).reply (.written false))))

/-- WR RUNNING: a start, a start that is a configuration defect (CONFIG_DEFECT recorded), a stop, a stop in the middle of a transaction (CANCEL_UNSUPPORTED recorded), and no change
(R180). The stop's interrupt level is low. -/
def Obligations.RunningWrite : Prop :=
  ∀ (s : State) (k : Nat) (c : Channel) (v : Word), s.params.Wf → k < s.params.nChannels → s.chans[k]? = some c →
    let top := 2 ^ s.params.paddrWidth
    let defect := c.regs.size = 0 ∨ top < c.regs.bufferAddr.toNat + c.regs.size.toNat ∨
      (c.regs.mode = .sharedQueue ∧ (top < c.regs.descAddr.toNat + 12 ∨ top < c.regs.lockAddr.toNat + 8))
    let resting := c.state = .success ∨ c.state = .errorLock ∨ c.state = .errorDescriptor ∨ c.state = .errorData ∨
      (c.state = .idle ∧ (s.port k).req = false)
    let started := { c with regs := { c.regs with running := true }, offset := 0 }
    let stopped := { c with regs := { c.regs with running := false } }
    WriteDecodesTo s.params k 9 v (.wrRunning k v) ∧
    (v.toNat % 2 = 1 → c.regs.running = false → defect → ∃ t, exec (.wrRunning k v) s = .next t ∧ .configDefect ∈ t.faults) ∧
    (v.toNat % 2 = 1 → c.regs.running = false → ¬defect →
      exec (.wrRunning k v) s = .next ((s.reply (.written false)).setChan k started)) ∧
    (v.toNat % 2 = 0 → c.regs.running = true → resting →
      exec (.wrRunning k v) s = .next ((s.reply (.written false)).setChan k stopped)) ∧
    (v.toNat % 2 = 0 → c.regs.running = true → ¬resting →
      exec (.wrRunning k v) s = .next (((s.reply (.written false)).setChan k stopped).recordFault .cancelUnsupported)) ∧
    ((v.toNat % 2 = 1 ↔ c.regs.running = true) → exec (.wrRunning k v) s = .next (s.reply (.written false))) ∧
    irq stopped = false

/-- A write to an address, SIZE or MODE register of a running channel is rejected with cfg_err = 1, changes no state and raises no fault (R161). -/
def Obligations.RejectedWhileRunning : Prop :=
  ∀ (s : State) (k : Nat) (c : Channel) (v : Word) (i : Instr), s.chans[k]? = some c → c.regs.running = true →
    (i = .wrBufferAddrLo k v ∨ i = .wrBufferAddrHi k v ∨ i = .wrDescAddrLo k v ∨ i = .wrDescAddrHi k v ∨ i = .wrLockAddrLo k v ∨
      i = .wrLockAddrHi k v ∨ i = .wrSize k v ∨ i = .wrMode k v) →
    exec i s = .next (s.reply (.written true))

/-- WR of DIRECTION and STATUS: cfg_err = 1 and no state change, at any time (R182, R184). -/
def Obligations.ReadOnlyWrites : Prop :=
  ∀ (s : State) (k : Nat) (c : Channel) (v : Word), s.params.Wf → k < s.params.nChannels → s.chans[k]? = some c →
    (WriteDecodesTo s.params k 6 v (.wrDirection k v) ∧ exec (.wrDirection k v) s = .next (s.reply (.written true))) ∧
    (WriteDecodesTo s.params k 10 v (.wrStatus k v) ∧ exec (.wrStatus k v) s = .next (s.reply (.written true)))

/-- RD and WR of a scratch register, whether channels run or not; every port sees the new value (R185, R186). -/
def Obligations.ScratchAccesses : Prop :=
  ∀ (s : State) (i : Nat) (w v : Word), s.params.Wf → i < s.params.nScratch → s.scratch[i]? = some w →
    (ReadDecodesTo s.params s.params.nChannels i (.rdScratch i) ∧
      exec (.rdScratch i) s = .next (s.reply (.read w false))) ∧
    (WriteDecodesTo s.params s.params.nChannels i v (.wrScratch i v) ∧
      ∃ t, exec (.wrScratch i v) s = .next t ∧ t = { s with cfgOut := .written false, scratch := s.scratch.set i v } ∧
        portScratch t i = some v)

/-- RD and WR of a reserved encoding: a byte offset other than 00, index 11 to 15 of a channel block, an index from N_SCRATCH on in the scratch block, or a block
past it. A read returns 0 with cfg_err = 1; a write changes nothing and returns cfg_err = 1 (R126, R187, R188). -/
def Obligations.ReservedAccesses : Prop :=
  (∀ (s : State) (w : BitVec 16) (d : Word), s.params.Wf →
    (w.toNat % 4 ≠ 0 ∨ (w.toNat / 64 % 512 < s.params.nChannels ∧ 11 ≤ w.toNat / 4 % 16) ∨
      (w.toNat / 64 % 512 = s.params.nChannels ∧ s.params.nScratch ≤ w.toNat / 4 % 16) ∨
      s.params.nChannels < w.toNat / 64 % 512) →
    (w.toNat < 32768 → ∃ a, decode s.params (.cfg w d) = .ok (.rdReserved a)) ∧
    (32768 ≤ w.toNat → ∃ a, decode s.params (.cfg w d) = .ok (.wrReserved a d))) ∧
  ∀ (s : State) (a : BitVec 15) (v : Word),
    exec (.rdReserved a) s = .next (s.reply (.read 0 true)) ∧ exec (.wrReserved a v) s = .next (s.reply (.written true))

/-- Whatever a read access addresses, it decodes, it answers, and it changes no state but the reply; cfg_err = 1 on reserved encodings
only (R160). -/
def Obligations.ReadsChangeNothing : Prop :=
  ∀ (s : State) (w : BitVec 16) (d : Word), ShapeOk s → w.toNat < 32768 →
    ∃ i v e, decode s.params (.cfg w d) = .ok i ∧ exec i s = .next (s.reply (.read v e)) ∧
      (e = true ↔ ∃ a, i = .rdReserved a)

/-- The frame of the 26 register accesses: memory, bus, generator, demultiplexer, environment and parameters are untouched; only the destination register of the
destination channel changes (WR RUNNING also clears offset), and only the destination scratch register. -/
def Obligations.AccessFrame : Prop :=
  ∀ (i : Instr) (s t : State), i.format = .cfg → exec i s = .next t →
    t = { s with chans := t.chans, scratch := t.scratch, faults := t.faults, cfgOut := t.cfgOut } ∧
    (∀ a, readByte t.mem a = readByte s.mem a) ∧
    (∀ f, f ∈ s.faults → f ∈ t.faults) ∧ t.chans.length = s.chans.length ∧ t.scratch.length = s.scratch.length ∧
    (∀ j, destScratch i ≠ some j → t.scratch[j]? = s.scratch[j]?) ∧
    ∀ (j : Nat) (c : Channel), s.chans[j]? = some c → ∃ c', t.chans[j]? = some c' ∧
      c' = { c with regs := c'.regs, offset := c'.offset } ∧
      (destReg i ≠ some (j, .bufferAddr) → c'.regs.bufferAddr = c.regs.bufferAddr) ∧
      (destReg i ≠ some (j, .descAddr) → c'.regs.descAddr = c.regs.descAddr) ∧
      (destReg i ≠ some (j, .lockAddr) → c'.regs.lockAddr = c.regs.lockAddr) ∧
      (destReg i ≠ some (j, .mode) → c'.regs.mode = c.regs.mode) ∧
      (destReg i ≠ some (j, .size) → c'.regs.size = c.regs.size) ∧
      (destReg i ≠ some (j, .running) → c'.regs.running = c.regs.running ∧ c'.offset = c.offset)

/-! ## The requests -/

/-- The one-flit READ requests, each offered and taken: TICKET_READ, LOCK_READ, STATUS_READ and DATA_READ (R304, R306, R307, R308). -/
def Obligations.ReadRequests : Prop :=
  ∀ (s : State) (k : Nat) (c : Channel), s.params.Wf → s.chans[k]? = some c → BusTakes s → s.gen.idx = 0 →
    (∃ f g, FlitIs f 0 c.regs.lockAddr.toNat 4 0 true k ∧ SentOf 1 s.gen g ∧
      exec (.ticketRead k) s = .next { s with gen := g, bus := { s.bus with wire := some f } }) ∧
    (∃ f g, FlitIs f 0 ((c.regs.lockAddr.toNat + 4) % 2 ^ s.params.paddrWidth) 4 0 true k ∧ SentOf 1 s.gen g ∧
      exec (.lockRead k) s = .next { s with gen := g, bus := { s.bus with wire := some f } }) ∧
    (∃ f g, FlitIs f 0 c.regs.descAddr.toNat 12 0 true k ∧ SentOf 1 s.gen g ∧
      exec (.statusRead k) s = .next { s with gen := g, bus := { s.bus with wire := some f } }) ∧
    (∃ f g, FlitIs f 0
        ((c.regs.bufferAddr.toNat + if c.regs.mode = .sharedQueue then 4 * c.sqRd.toNat else c.offset.toNat) % 2 ^ s.params.paddrWidth)
        s.params.burstBytes 0 true k ∧ SentOf 1 s.gen g ∧
      exec (.dataRead k) s = .next { s with gen := g, bus := { s.bus with wire := some f } })

/-- TICKET_CAS: flit 0 carries the ticket, flit 1 the ticket plus one modulo 2^32 and eop. STATUS_WRITE: the three mirrors in order, eop on the third. LOCK_RELEASE: the ticket plus
one to the current field (R305, R310, R311). -/
def Obligations.MultiFlitRequests : Prop :=
  ∀ (s : State) (k : Nat) (c : Channel), s.params.Wf → s.chans[k]? = some c → BusTakes s →
    (s.gen.idx = 0 → ∃ f g, FlitIs f 2 c.regs.lockAddr.toNat 4 c.ticket.toNat false k ∧ SentOf 2 s.gen g ∧
      exec (.ticketCas k) s = .next { s with gen := g, bus := { s.bus with wire := some f } }) ∧
    (s.gen.idx = 1 → ∃ f g, FlitIs f 2 c.regs.lockAddr.toNat 4 ((c.ticket.toNat + 1) % 2 ^ 32) true k ∧ SentOf 2 s.gen g ∧
      exec (.ticketCas k) s = .next { s with gen := g, bus := { s.bus with wire := some f } }) ∧
    (s.gen.idx = 0 → ∃ f g, FlitIs f 1 c.regs.descAddr.toNat 12 c.sqOcc.toNat false k ∧ SentOf 3 s.gen g ∧
      exec (.statusWrite k) s = .next { s with gen := g, bus := { s.bus with wire := some f } }) ∧
    (s.gen.idx = 1 → ∃ f g, FlitIs f 1 c.regs.descAddr.toNat 12 c.sqRd.toNat false k ∧ SentOf 3 s.gen g ∧
      exec (.statusWrite k) s = .next { s with gen := g, bus := { s.bus with wire := some f } }) ∧
    (s.gen.idx = 2 → ∃ f g, FlitIs f 1 c.regs.descAddr.toNat 12 c.sqWr.toNat true k ∧ SentOf 3 s.gen g ∧
      exec (.statusWrite k) s = .next { s with gen := g, bus := { s.bus with wire := some f } }) ∧
    (s.gen.idx = 0 → ∃ f g, FlitIs f 1 ((c.regs.lockAddr.toNat + 4) % 2 ^ s.params.paddrWidth) 4
        ((c.ticket.toNat + 1) % 2 ^ 32) true k ∧ SentOf 1 s.gen g ∧
      exec (.lockRelease k) s = .next { s with gen := g, bus := { s.bus with wire := some f } })

/-- DATA_WRITE: flit i carries the FIFO's head, eop on flit BURST_WORDS - 1, and the accepted flit pops the FIFO (R309); offered from an empty FIFO, taken or not,
GEN_FIFO_EMPTY is recorded (R312). -/
def Obligations.DataWriteRequest : Prop :=
  ∀ (s : State) (k : Nat) (c : Channel), s.params.Wf → s.chans[k]? = some c →
    (∀ (x : Word) (rest : List Word), c.fifo = x :: rest → BusTakes s → s.gen.idx.toNat < s.params.burstWords →
      ∃ f g, FlitIs f 1
          ((c.regs.bufferAddr.toNat + if c.regs.mode = .sharedQueue then 4 * c.sqWr.toNat else c.offset.toNat) % 2 ^ s.params.paddrWidth)
          s.params.burstBytes x.toNat (decide (s.gen.idx.toNat + 1 = s.params.burstWords)) k ∧
        SentOf s.params.burstWords s.gen g ∧
        exec (.dataWrite k) s =
          .next { s with gen := g, bus := { s.bus with wire := some f }, chans := s.chans.set k { c with fifo := rest } }) ∧
    (c.fifo = [] → ∃ t, exec (.dataWrite k) s = .next t ∧ .genFifoEmpty ∈ t.faults)

/-- The frame of the eight requests: a flit not taken changes nothing (it is offered again); a flit taken changes the generator's busy and idx, the wire, and, for a
DATA_WRITE, the FIFO of its channel, and no byte of memory; a fault is recorded only for a DATA_WRITE with an empty FIFO (R302, R312, R314). -/
def Obligations.RequestFrame : Prop :=
  ∀ (i : Instr) (ty : ReqType) (k : Nat) (s t : State), requestOf i = some (ty, k) → exec i s = .next t →
    (cmdReady s = false → t = { s with faults := t.faults }) ∧
    t = { s with chans := t.chans, gen := t.gen, faults := t.faults, bus := { s.bus with wire := t.bus.wire } } ∧
    (∀ f, f ∈ s.faults → f ∈ t.faults) ∧
    (ty ≠ .dataWrite ∨ (∀ c, s.chans[k]? = some c → c.fifo ≠ []) → t.faults = s.faults) ∧
    t.gen.ch = s.gen.ch ∧ t.gen.rrLast = s.gen.rrLast ∧ (ty ≠ .dataWrite → t.chans = s.chans) ∧
    (∀ a, readByte t.mem a = readByte s.mem a) ∧
    ∀ (j : Nat) (c : Channel), s.chans[j]? = some c →
      ∃ q, t.chans[j]? = some { c with fifo := q } ∧ (j ≠ k → q = c.fifo) ∧ (q = c.fifo ∨ q = c.fifo.tail)

/-! ## The bus commands and memory -/

/-- BUS READ, after its last flit and performed at once: the transaction keeps MemRead(addr, plen/4), the words at addr + 4j, and memory is as
before. Put off, its words are read one by one in whatever order js the bus chooses, each the word at addr + 4j (R85). -/
def Obligations.BusReadPerforms : Prop :=
  (∀ (s : State) (addr : Addr) (plen : BitVec 16) (w : Word) (tag : Nat), s.input.deferred = false →
    ∃ ws : List Word, ws.length = plen.toNat / 4 ∧
      (∀ j, j < plen.toNat / 4 → ws[j]? = some (readWord s.params s.mem (wordAt s.params addr j))) ∧
      exec (.busRead addr plen w true tag) s =
        .next { s with bus := { s.bus with asm := [], txns := s.bus.txns ++ [⟨.read, addr, plen, tag, s.bus.asm ++ [w], s.input.plan, ws.map some⟩] } }) ∧
  ∀ (s : State) (i : Nat) (x : Txn) (js : List Nat), s.bus.txns[i]? = some x → x.op = .read → js.Nodup →
    (∀ j ∈ js, x.rdata[j]? = some none) →
    let t := busActs (js.map (.word i)) s
    t.mem = s.mem ∧ ∃ y, t.bus.txns[i]? = some y ∧
      ∀ j ∈ js, y.rdata[j]? = some (some (readWord s.params s.mem (wordAt s.params x.addr j)))

/-- BUS WRITE, after its last flit and performed at once: word j of the command's words is at addr + 4j, unless the transaction reports an error and
the bus left that word out; no other byte changes. Put off, its words are written one by one in whatever order js the bus chooses: those of js made, those not in
js not yet (R86, R96). -/
def Obligations.BusWritePerforms : Prop :=
  (∀ (s : State) (addr : Addr) (plen : BitVec 16) (w : Word) (tag : Nat), s.params.Wf → Memory.wf s.mem →
    s.input.deferred = false →
    ∃ (m : Memory) (ws : List Word), ws.length = plen.toNat / 4 ∧
      exec (.busWrite addr plen w true tag) s =
        .next { s with
          mem := m
          bus := { s.bus with asm := [], txns := s.bus.txns ++ [⟨.write, addr, plen, tag, s.bus.asm ++ [w], s.input.plan, ws.map some⟩] } } ∧
      Memory.wf m ∧
      (∀ (j : Nat) (v : Word), j < plen.toNat / 4 → (s.bus.asm ++ [w])[j]? = some v →
        readWord s.params m (wordAt s.params addr j) = v ∨
        (readWord s.params m (wordAt s.params addr j) = readWord s.params s.mem (wordAt s.params addr j) ∧
          ∃ n < plen.toNat / 4, s.input.plan.errs[n]? = some true)) ∧
      ∀ b, b < 2 ^ s.params.paddrWidth → ¬InRange s.params addr (4 * (plen.toNat / 4)) b → readByte m b = readByte s.mem b) ∧
  ∀ (s : State) (i n : Nat) (x : Txn) (js : List Nat), s.params.Wf → Memory.wf s.mem → s.bus.txns[i]? = some x → x.op = .write →
    (∀ e : Nat, x.plan.errs[e]? ≠ some true) → js.Nodup → n < 2 ^ 20 → (∀ j ∈ js, j < n ∧ x.rdata[j]? = some none) →
    let t := busActs (js.map (.word i)) s
    (∀ j ∈ js, ∀ v, x.wdata[j]? = some v → readWord s.params t.mem (wordAt s.params x.addr j) = v) ∧
    (∀ j, j < n → j ∉ js → readWord s.params t.mem (wordAt s.params x.addr j) = readWord s.params s.mem (wordAt s.params x.addr j)) ∧
    ∀ b, ¬InRange s.params x.addr (4 * n) b → readByte t.mem b = readByte s.mem b

/-- BUS CAS, after its last flit, performed at once: cmp is the first flit's word and new the second's; on a match the result is 0 and new is stored, which the bus may leave
out only when the CAS reports an error; without a match the result is not 0 and memory is unchanged; no other byte changes (R87, R96). That an erroring CAS without a
match leaves memory unchanged, and that an erroring CAS keeps the result of its compare, is the model's reading (log 28, DEDUCED). -/
def Obligations.BusCasPerforms : Prop :=
  ∀ (s : State) (addr : Addr) (plen : BitVec 16) (cmp new : Word) (tag : Nat), s.params.Wf → Memory.wf s.mem →
    s.input.deferred = false → s.bus.asm = [cmp] →
    ∃ (m : Memory) (res : Word), exec (.busCas addr plen new true tag) s =
        .next { s with
          mem := m
          bus := { s.bus with asm := [], txns := s.bus.txns ++ [⟨.cas, addr, plen, tag, [cmp, new], s.input.plan, [some res]⟩] } } ∧
      (readWord s.params s.mem (wordAt s.params addr 0) = cmp →
        res = 0 ∧
        ((readWord s.params m (wordAt s.params addr 0) = new ∧
          ∀ b, b < 2 ^ s.params.paddrWidth → ¬InRange s.params addr 4 b → readByte m b = readByte s.mem b) ∨
        (s.input.plan.errs[0]? = some true ∧ m = s.mem))) ∧
      (readWord s.params s.mem (wordAt s.params addr 0) ≠ cmp → res ≠ 0 ∧ m = s.mem)

/-- A command flit that is not the last is only kept: nothing is performed before eop (R96 B2). A last flit of a transaction the bus puts off is accepted
with none of its words performed. -/
def Obligations.CommandFlitsKept : Prop :=
  ∀ (s : State) (addr : Addr) (plen : BitVec 16) (w : Word) (tag : Nat),
    (exec (.busRead addr plen w false tag) s = .next { s with bus := { s.bus with asm := s.bus.asm ++ [w] } }) ∧
    (exec (.busWrite addr plen w false tag) s = .next { s with bus := { s.bus with asm := s.bus.asm ++ [w] } }) ∧
    (exec (.busCas addr plen w false tag) s = .next { s with bus := { s.bus with asm := s.bus.asm ++ [w] } }) ∧
    (s.input.deferred = true → ∀ (i : Instr) (op : BusOp) (n : Nat), (op = .cas → n = 1) → (op ≠ .cas → n = plen.toNat / 4) →
      (i = .busRead addr plen w true tag ∧ op = .read) ∨ (i = .busWrite addr plen w true tag ∧ op = .write) ∨
        (i = .busCas addr plen w true tag ∧ op = .cas) →
      exec i s = .next { s with
        bus := { s.bus with asm := [], txns := s.bus.txns ++ [⟨op, addr, plen, tag, s.bus.asm ++ [w], s.input.plan, List.replicate n none⟩] } })

/-- The frame of the bus commands, whatever the bus chooses: the core's own state is untouched, a READ and a flit before the last leave every byte of memory as it was, and
a WRITE or a CAS changes no byte outside the words it addresses (R85 to R87). -/
def Obligations.BusCommandFrame : Prop :=
  ∀ (s t : State) (addr : Addr) (plen : BitVec 16) (w : Word) (eop : Bool) (tag : Nat) (i : Instr), s.params.Wf → Memory.wf s.mem →
    (i = .busRead addr plen w eop tag ∨ i = .busWrite addr plen w eop tag ∨ i = .busCas addr plen w eop tag) → exec i s = .next t →
    t = { s with mem := t.mem, bus := { s.bus with asm := t.bus.asm, txns := t.bus.txns } } ∧
    (eop = false → ∀ a, readByte t.mem a = readByte s.mem a) ∧
    (i = .busRead addr plen w eop tag → ∀ a, readByte t.mem a = readByte s.mem a) ∧
    (i = .busWrite addr plen w eop tag →
      ∀ a, ¬InRange s.params addr (4 * (plen.toNat / 4)) a → readByte t.mem a = readByte s.mem a) ∧
    (i = .busCas addr plen w eop tag → ∀ a, ¬InRange s.params addr 4 a → readByte t.mem a = readByte s.mem a)

/-- MemRead after MemWrite of the same words gives those words back, and memory keeps its canonical form (R85, R86). -/
def Obligations.MemReadAfterMemWrite : Prop :=
  ∀ (p : Params) (m : Memory) (a : Addr) (vs : List Word), p.Wf → Memory.wf m → vs.length ≤ 16383 →
    memRead p (memWrite p m a vs) a vs.length = vs ∧ Memory.wf (memWrite p m a vs) ∧
    ∀ b, ¬InRange p a (4 * vs.length) b → readByte (memWrite p m a vs) b = readByte m b

/-! ## Encoding -/

/-- Every well-formed instruction is read back from what stands on its interface, under all legal parameters. -/
def Obligations.DecodeUndoesEncode : Prop :=
  ∀ (p : Params) (i : Instr), p.Wf → WellFormed p i = true → decode p (encode p i) = .ok i

/-- Every access word means exactly one well-formed access, whose encoding is that word (R126, R129); every request code means one request (R130). -/
def Obligations.EncodeUndoesDecode : Prop :=
  (∀ (p : Params) (w : BitVec 16) (d : Word), p.Wf → ∃ i, decode p (.cfg w d) = .ok i ∧ WellFormed p i = true ∧
    encode p i = .cfg w (if 32768 ≤ w.toNat then d else 0)) ∧
  (∀ (p : Params) (code : BitVec 3) (k : Nat), k < p.nChannels →
    ∃ i, decode p (.req code k) = .ok i ∧ encode p i = .req code k) ∧
  ∀ (p : Params) (f : CmdFlit), f.tag < p.nChannels → f.cmd ≠ 3 → ∃ i, decode p (.bus f) = .ok i ∧ encode p i = .bus f

/-- Words written out from the tables of R123, R124, R130 and R131, for N_CHANNELS = 2 and N_SCRATCH = 4. That code 3 and a request for channel 2 of 2
are refused, and by these names, is the model's choice (log 13): no table gives them a meaning. -/
def Obligations.SampleWordsDecode : Prop :=
  let p := Params.vectors
  decode p (.cfg 0x0000 0) = .ok (.rdBufferAddrLo 0) ∧ decode p (.cfg 0x8048 5) = .ok (.wrDescAddrLo 1 5) ∧
  decode p (.cfg 0x8014 7) = .ok (.wrLockAddrHi 0 7) ∧ decode p (.cfg 0x0058 0) = .ok (.rdDirection 1) ∧
  decode p (.cfg 0x801C 2) = .ok (.wrMode 0 2) ∧ decode p (.cfg 0x8060 64) = .ok (.wrSize 1 64) ∧
  decode p (.cfg 0x8024 1) = .ok (.wrRunning 0 1) ∧ decode p (.cfg 0x0068 0) = .ok (.rdStatus 1) ∧
  decode p (.cfg 0x8084 9) = .ok (.wrScratch 1 9) ∧ decode p (.cfg 0x0090 0) = .ok (.rdReserved 0x0090) ∧
  decode p (.cfg 0x80C0 7) = .ok (.wrReserved 0x00C0 7) ∧ decode p (.req 1 1) = .ok (.ticketCas 1) ∧
  decode p (.req 7 0) = .ok (.lockRelease 0) ∧ decode p (.bus ⟨2, 0x5100, 4, 7, false, 1⟩) = .ok (.busCas 0x5100 4 7 false 1) ∧
  decode p (.bus ⟨3, 0, 4, 0, true, 0⟩) = .error .reservedBusCommand ∧ decode p (.req 0 2) = .error .noSuchChannel

/-- The core never issues a command code outside READ, WRITE and CAS: the flit it offers has the command, length and tag of the request table, and
decodes (R131, R132). -/
def Obligations.OfferedFlitsDecode : Prop :=
  ∀ (s : State) (f : CmdFlit), ShapeOk s → cmdOffer s = some f →
    f.cmd.toNat ≤ 2 ∧ f.tag = s.gen.ch ∧
    (f.plen.toNat = 4 ∨ f.plen.toNat = 12 ∨ f.plen.toNat = s.params.burstBytes) ∧
    ∃ i, decode s.params (.bus f) = .ok i ∧ i.format = .buscmd

/-! ## The tick -/

/-- A step runs what the decoder reads on each interface: a register access alone, a request with the command flit it puts on the wire, and a command flit; the
other agents of the tick then read the state of its start (R16; log 25). The machine is not stuck in a recorded fault (log 4). -/
def Obligations.StepRunsDecoded : Prop :=
  (∀ (s : State) (a : CfgAccess) (i : Instr), NotStuck s → s.gen.busy = false → s.bus.wire = none → s.input.cfg = some a →
    decode s.params (.cfg a.word a.wdata) = .ok i → step s = andThen (exec i s) fun s1 => .next (agentsPhase s s1)) ∧
  (∀ (s : State) (c : Channel) (i : Instr), NotStuck s → s.gen.busy = true → s.chans[s.gen.ch]? = some c → s.input.cfg = none →
    decode s.params (.req c.reqType.code s.gen.ch) = .ok i →
    step s = andThen (exec i s) fun s1 => andThen (commandPhase s1) fun s2 => .next (agentsPhase s (s2.reply .idle))) ∧
  (∀ (s : State) (f : CmdFlit) (i : Instr), NotStuck s → s.gen.busy = false → s.bus.wire = some f → s.input.cfg = none →
    decode s.params (.bus f) = .ok i →
    step s = andThen (exec i { s with bus := { s.bus with wire := none } }) fun s2 => .next (agentsPhase s (s2.reply .idle))) ∧
  (∀ (s : State), NotStuck s → s.gen.busy = false → s.bus.wire = none → s.input.cfg = none → step s = .next (agentsPhase s (s.reply .idle)))

/-- A tick of a state of the core's shape, whose wire carries no foreign flit, always answers a next state, whatever the environment does in it, unless an earlier tick has
recorded a fault other than CANCEL_UNSUPPORTED; then, by the model's choice, it ends in such a fault (R440; log 4). It is never refused. -/
def Obligations.StepNeverRefused : Prop :=
  ∀ (s : State), ShapeOk s → (∀ f, s.bus.wire = some f → f.cmd ≠ 3 ∧ f.tag < s.params.nChannels) →
    (NotStuck s → ∃ t, step s = .next t) ∧
    (¬NotStuck s → ∃ f, f ∈ s.faults ∧ f ≠ .cancelUnsupported ∧ step s = .fault f)

/-- A tick records exactly the faults whose cause is there (R440): CONFIG_DEFECT for a write that R164 to R180 call a defect, CANCEL_UNSUPPORTED for a stop in the middle of a
transaction, DESC_INCONSISTENT for a bad descriptor consumed, BUS_PROTOCOL for a duty of R348 broken, GEN_FIFO_EMPTY for a DATA_WRITE with an empty FIFO, FIFO_OVERFLOW for a word taken for a
full FIFO. Several in one tick are all recorded (R59). -/
def Obligations.FaultsHaveCauses : Prop :=
  ∀ (s t : State), ShapeOk s → HandshakeOk s → step s = .next t → ∀ f, f ∈ t.faults ↔ f ∈ s.faults ∨ FaultCause s f

/-! ## One channel in one tick -/

/-- IDLE: a running channel takes the port's request and goes to ACK with the burst count recorded; otherwise it stays (R201, R214). -/
def Obligations.IdleTick : Prop :=
  ∀ (s t : State) (k : Nat) (c c' : Channel), Tick s t k c c' → c.state = .idle →
    (c.regs.running = true → (s.port k).req = true →
      c'.state = .ack ∧ c'.remaining.toNat = (s.port k).burstCount.toNat % 2 ^ s.params.bcBits) ∧
    (c.regs.running = false ∨ (s.port k).req = false → c'.state = .idle ∧ c'.remaining = c.remaining)

/-- ACK takes one tick whatever RUNNING is, leads to BULK_DATA_MOVE or TICKET_READ by MODE and posts nothing; port_ack is high in ACK only (R202, R203). Until the
tick of port_ack the port holds its request and burst count: R384 P1, read as holding for a stopped channel too, by the model's choice (log 21, DESIGN CHOICE). -/
def Obligations.AckTick : Prop :=
  ∀ (s t : State) (k : Nat) (c c' : Channel), Tick s t k c c' →
    (c.state = .ack →
      (c.regs.mode = .bulkIrq ∨ c.regs.mode = .bulkNoIrq → c'.state = .bulkDataMove) ∧
      (c.regs.mode = .sharedQueue → c'.state = .ticketRead) ∧ (c.reqValid = false → c'.reqValid = false)) ∧
    (portAck c = true ↔ c.state = .ack) ∧ (portAck c = true → portAck c' = false) ∧
    ((s.port k).req = true → portAck c = false → (t.port k).req = true ∧ (t.port k).burstCount = (s.port k).burstCount)

/-- Waiting: while its request is posted or outstanding a channel stays in its state and keeps its working fields; a running one keeps its configuration and
offset too, or is stopped (R210, R211). -/
def Obligations.WaitingTick : Prop :=
  ∀ (s t : State) (k : Nat) (c c' : Channel), Tick s t k c c' → c.state.isBus = true → c.rspReady = false →
    c.reqValid = true ∨ c.reqIssued = true →
    c'.state = c.state ∧ c'.reqType = c.reqType ∧ c'.remaining = c.remaining ∧ c'.ticket = c.ticket ∧ c'.sqOcc = c.sqOcc ∧
      c'.sqRd = c.sqRd ∧ c'.sqWr = c.sqWr ∧ c'.sqChunk = c.sqChunk ∧ c'.sqMoved = c.sqMoved ∧
      (c.regs.running = true → c'.offset = c.offset ∧ c'.regs = { c.regs with running := c'.regs.running })

/-- Post: a bus state with nothing posted, outstanding or ready, and no pre-post move, posts the request of its state when its gate holds, and otherwise
stays with nothing posted. The gate of a data burst is room for a whole burst (FROM_MEMORY) or a whole burst present (TO_MEMORY) (R205, R206). -/
def Obligations.PostTick : Prop :=
  ∀ (s t : State) (k : Nat) (c c' : Channel), Tick s t k c c' → HandshakeOk s → c.state.isBus = true → c.quiet →
    (c.state = .bulkDataMove → c.remaining ≠ 0) → (c.state = .dataMove → c.sqChunk ≠ 0) →
    let data := c.state = .bulkDataMove ∨ c.state = .dataMove
    let gate := data → (s.params.dir k = .fromMemory → s.params.burstWords ≤ s.params.fifoDepth - c.fifo.length) ∧
      (s.params.dir k = .toMemory → s.params.burstWords ≤ c.fifo.length)
    c'.state = c.state ∧ c'.reqIssued = false ∧ c'.rspReady = false ∧
    (gate → c.fifo.length ≤ s.params.fifoDepth → c'.reqValid = true ∧
      (c.state = .ticketRead → c'.reqType = .ticketRead) ∧ (c.state = .ticketCas → c'.reqType = .ticketCas) ∧
      (c.state = .lockRead → c'.reqType = .lockRead) ∧ (c.state = .statusRead → c'.reqType = .statusRead) ∧
      (data → s.params.dir k = .fromMemory → c'.reqType = .dataRead) ∧ (data → s.params.dir k = .toMemory → c'.reqType = .dataWrite) ∧
      (c.state = .statusUpdate → c'.reqType = .statusWrite) ∧ (c.state = .lockRelease → c'.reqType = .lockRelease)) ∧
    (¬gate → c'.reqValid = false)

/-- The pre-post checks: BULK_DATA_MOVE with nothing remaining goes to IDLE; DATA_MOVE with its chunk done goes to STATUS_UPDATE if it moved a burst and to LOCK_RELEASE if not; no
request is posted (R240, R271). -/
def Obligations.PrePostTick : Prop :=
  ∀ (s t : State) (k : Nat) (c c' : Channel), Tick s t k c c' → HandshakeOk s → c.quiet →
    (c.state = .bulkDataMove → c.remaining = 0 → c'.state = .idle ∧ c'.quiet) ∧
    (c.state = .dataMove → c.sqChunk = 0 → c'.quiet ∧
      (c.sqMoved = 0 → c'.state = .lockRelease) ∧ (c.sqMoved ≠ 0 → c'.state = .statusUpdate))

/-- BULK_DATA_MOVE consumes a burst: offset and remaining advance; SUCCESS when the offset reaches SIZE, else IDLE when the group is done, else the next
burst (R242). -/
def Obligations.BulkTick : Prop :=
  ∀ (s t : State) (k : Nat) (c c' : Channel), Tick s t k c c' → Safe s → NoFault t → c.state = .bulkDataMove → c.answered →
    c'.offset.toNat = c.offset.toNat + s.params.burstBytes ∧ c'.remaining.toNat + 1 = c.remaining.toNat ∧ c'.rspReady = false ∧
    (c'.offset = c.regs.size → c'.state = .success) ∧
    (c'.offset ≠ c.regs.size → c'.remaining = 0 → c'.state = .idle) ∧
    (c'.offset ≠ c.regs.size → c'.remaining ≠ 0 → c'.state = .bulkDataMove)

/-- The lock steps: TICKET_READ keeps the ticket read; TICKET_CAS goes on for the result 0 and back for any other; LOCK_READ goes on when the current field is the ticket, and polls again
otherwise; STATUS_UPDATE goes to LOCK_RELEASE, which goes to IDLE when the group is complete and to TICKET_READ otherwise (R263, R265, R266, R275, R277). -/
def Obligations.LockStepTicks : Prop :=
  ∀ (s t : State) (k : Nat) (c c' : Channel), Tick s t k c c' → HandshakeOk s → c.answered →
    (c.state = .ticketRead → c'.ticket = c.rspData0 ∧ c'.state = .ticketCas ∧ c'.quiet) ∧
    (c.state = .ticketCas → c'.ticket = c.ticket ∧ c'.quiet ∧
      (c.rspData0 = 0 → c'.state = .lockRead) ∧ (c.rspData0 ≠ 0 → c'.state = .ticketRead)) ∧
    (c.state = .lockRead → c'.ticket = c.ticket ∧ c'.quiet ∧
      (c.rspData0 = c.ticket → c'.state = .statusRead) ∧ (c.rspData0 ≠ c.ticket → c'.state = .lockRead)) ∧
    (c.state = .statusUpdate → c'.state = .lockRelease ∧ c'.quiet) ∧
    (c.state = .lockRelease → c'.quiet ∧ (c.remaining = 0 → c'.state = .idle) ∧ (c.remaining ≠ 0 → c'.state = .ticketRead))

/-- STATUS_READ consumes a descriptor in range: the mirrors are loaded, the chunk is the least of remaining, the whole bursts available and the granularity's limit, and
DATA_MOVE follows (R268, R270). -/
def Obligations.StatusReadTick : Prop :=
  ∀ (s t : State) (k : Nat) (c c' : Channel), Tick s t k c c' → HandshakeOk s → c.state = .statusRead → c.answered →
    ¬BadDescriptor s.params c →
    let cap := c.regs.size.toNat / 4
    let avail := if s.params.dir k = .fromMemory then c.rspData0.toNat / s.params.burstWords
      else (cap - c.rspData0.toNat) / s.params.burstWords
    let limit := if s.params.granularity = .perBurst then 1 else c.remaining.toNat
    c'.sqOcc = c.rspData0 ∧ c'.sqRd = c.rspData1 ∧ c'.sqWr = c.rspData2 ∧
      c'.sqChunk.toNat = min c.remaining.toNat (min avail limit) ∧ c'.sqMoved = 0 ∧ c'.state = .dataMove ∧ c'.quiet ∧
      c'.remaining = c.remaining

/-- A descriptor out of range or misaligned: the tick that would consume it records DESC_INCONSISTENT (R269); the run has no next tick (log 4). A tick with nothing but
that in it answers. -/
def Obligations.BadDescriptorFaults : Prop :=
  ∀ (s : State) (k : Nat) (c : Channel), s.chans[k]? = some c → c.state = .statusRead → c.answered → BadDescriptor s.params c →
    (∀ t, step s = .next t → .descInconsistent ∈ t.faults ∧ ∀ u, step t ≠ .next u) ∧
    (NotStuck s → s.gen.busy = false → s.bus.wire = none → s.input.cfg = none → ∃ t, step s = .next t)

/-- DATA_MOVE consumes a burst: the consumer's read index or the producer's write index advances by a burst modulo the capacity, occupancy goes down or up by a burst, and the three
counts move by one (R272). -/
def Obligations.DataMoveTick : Prop :=
  ∀ (s t : State) (k : Nat) (c c' : Channel), Tick s t k c c' → Safe s → NoFault t → c.state = .dataMove → c.answered →
    c'.state = .dataMove ∧ c'.quiet ∧ c'.sqChunk.toNat + 1 = c.sqChunk.toNat ∧ c'.sqMoved.toNat = c.sqMoved.toNat + 1 ∧
      c'.remaining.toNat + 1 = c.remaining.toNat ∧
    (s.params.dir k = .fromMemory → c'.sqRd.toNat = (c.sqRd.toNat + s.params.burstWords) % (c.regs.size.toNat / 4) ∧
      c'.sqWr = c.sqWr ∧ c'.sqOcc.toNat + s.params.burstWords = c.sqOcc.toNat) ∧
    (s.params.dir k = .toMemory → c'.sqWr.toNat = (c.sqWr.toNat + s.params.burstWords) % (c.regs.size.toNat / 4) ∧
      c'.sqRd = c.sqRd ∧ c'.sqOcc.toNat = c.sqOcc.toNat + s.params.burstWords)

/-- Error entry: an erroring response takes the channel to the error state of its step before anything else is looked at; the working state and the configuration keep
their values, no later request is posted, and the FIFO keeps its words but for the generator's pop and then the port's word of the tick (R207, R208, R427, R430). -/
def Obligations.ErrorEntryTick : Prop :=
  ∀ (s t : State) (k : Nat) (c c' : Channel), Tick s t k c c' → HandshakeOk s → c.state.isBus = true →
    c.rspReady = true → c.rspErr = true →
    (c.state = .ticketRead ∨ c.state = .ticketCas ∨ c.state = .lockRead ∨ c.state = .lockRelease → c'.state = .errorLock) ∧
    (c.state = .statusRead ∨ c.state = .statusUpdate → c'.state = .errorDescriptor) ∧
    (c.state = .bulkDataMove ∨ c.state = .dataMove → c'.state = .errorData) ∧
    c'.quiet ∧ c'.remaining = c.remaining ∧ c'.ticket = c.ticket ∧ c'.sqOcc = c.sqOcc ∧ c'.sqRd = c.sqRd ∧ c'.sqWr = c.sqWr ∧
      c'.sqChunk = c.sqChunk ∧ c'.sqMoved = c.sqMoved ∧
      (c.regs.running = true → c'.offset = c.offset ∧ c'.regs = { c.regs with running := c'.regs.running }) ∧
      let pops := s.gen.busy = true ∧ s.gen.ch = k ∧ c.reqType = .dataWrite ∧ BusTakes s
      ∃ q, (pops → q = c.fifo.tail) ∧ (¬pops → q = c.fifo) ∧
        (s.params.dir k = .fromMemory → c'.fifo = if (s.port k).rready = true then q.tail else q) ∧
        (s.params.dir k = .toMemory →
          c'.fifo = q ++ if (s.port k).wvalid = true ∧ q.length < s.params.fifoDepth then [(s.port k).wdata] else [])

/-- Terminal states: with RUNNING set the channel stays, accepts no request and posts nothing; with RUNNING clear it goes to IDLE (R212, R213, R428). -/
def Obligations.TerminalTick : Prop :=
  ∀ (s t : State) (k : Nat) (c c' : Channel), Tick s t k c c' → c.state.isTerminal = true →
    (c.regs.running = true → c'.state = c.state ∧ c'.remaining = c.remaining ∧ (c.reqValid = false → c'.reqValid = false)) ∧
    (c.regs.running = false → c'.state = .idle)

/-- The interrupt is a level: high exactly for a running channel in an error state, or in SUCCESS with MODE = BULK_IRQ; once high it stays high until RUNNING is cleared, and is low
from the tick after that; IRQ is the OR of the lines (R425). -/
def Obligations.InterruptLevel : Prop :=
  (∀ c : Channel, irq c = true ↔ c.regs.running = true ∧
    (c.state = .errorLock ∨ c.state = .errorDescriptor ∨ c.state = .errorData ∨ (c.state = .success ∧ c.regs.mode = .bulkIrq))) ∧
  (∀ s : State, irqAny s = true ↔ ∃ c ∈ s.chans, irq c = true) ∧
  ∀ (s t : State) (k : Nat) (c c' : Channel), Tick s t k c c' → irq c = true →
    (c'.regs.running = true → irq c' = true) ∧ (c'.regs.running = false → irq c' = false)

/-! ## The generator's arbiter -/

/-- Selection: when the generator is not sending, the first posted channel just past the last-served one is selected and its request issued, and every other posted
channel stays posted and not issued; with none posted nothing is selected; a tick that starts with the generator not sending offers no flit (R301). -/
def Obligations.RoundRobinSelects : Prop :=
  ∀ (s t : State), ShapeOk s → HandshakeOk s → step s = .next t → s.gen.busy = false →
    let at' := fun j => (s.gen.rrLast + j) % s.params.nChannels
    cmdOffer s = none ∧
    (∀ j c, 1 ≤ j → j ≤ s.params.nChannels → s.chans[at' j]? = some c → c.reqValid = true →
      (∀ i d, 1 ≤ i → i < j → s.chans[at' i]? = some d → d.reqValid = false) →
      t.gen = ⟨true, at' j, 0, at' j⟩ ∧ ∃ c', t.chans[at' j]? = some c' ∧ c'.reqValid = false ∧ c'.reqIssued = true) ∧
    (∀ k c, selected s ≠ some k → s.chans[k]? = some c → c.reqValid = true →
      ∃ c', t.chans[k]? = some c' ∧ c'.reqValid = true ∧ c'.reqIssued = false) ∧
    ((∀ c ∈ s.chans, c.reqValid = false) → t.gen = s.gen)

/-- Bounded wait: while channel k stays posted, the generator selects each other channel at most once, and never k; so k waits at most A - 1 selections, A being the number of channels with a request
posted meanwhile (R313, R402). f is the run, m its last tick. -/
def Obligations.RoundRobinIsFair : Prop :=
  ∀ (f : Nat → State) (m k : Nat), ShapeOk (f 0) → (∀ i < m, step (f i) = .next (f (i + 1))) →
    (∀ i ≤ m, ∃ c, (f i).chans[k]? = some c ∧ c.reqValid = true) →
    (∀ i < m, ¬Selects (f i) k) ∧
    (∀ i₁ i₂ j, i₁ < m → i₂ < m → Selects (f i₁) j → Selects (f i₂) j → i₁ = i₂) ∧
    ∀ (ticks active : List Nat), ticks.Nodup → (∀ i ∈ ticks, i < m ∧ ∃ j, Selects (f i) j) →
      (∀ j, (∃ i ≤ m, ∃ c, (f i).chans[j]? = some c ∧ c.reqValid = true) → j ∈ active) →
      ticks.length + 1 ≤ active.length

/-! ## The demultiplexer and the ports -/

/-- A first flit: in a state whose groups have one flit it completes the group (the word of a lock step is kept, the response is ready with the flit's error bit, the request is no longer
outstanding); a longer group it opens, with the flit count the channel's state gives, 3 for the descriptor steps and BURST_WORDS for data that has room in the FIFO (R341, R342, R344, R346). -/
def Obligations.FirstFlitTaken : Prop :=
  ∀ (s t : State) (k : Nat) (c c' : Channel) (f : RspFlit), Tick s t k c c' → HandshakeOk s → s.params.Wf → s.dmx.busy = false →
    s.bus.rsp = some f → f.rtag = k → c.reqIssued = true →
    let room := s.params.dir k = .fromMemory → (if (s.port k).rready = true then c.fifo.tail else c.fifo).length < s.params.fifoDepth
    rspAccept s = true ∧
    (c.state = .ticketRead ∨ c.state = .ticketCas ∨ c.state = .lockRead ∨ c.state = .lockRelease →
      c'.rspReady = true ∧ c'.rspErr = f.rerror ∧ c'.rspData0 = f.rdata ∧ c'.rspData1 = c.rspData1 ∧
      c'.rspData2 = c.rspData2 ∧ c'.reqIssued = false ∧ t.dmx.busy = false) ∧
    (c.state = .statusRead ∨ c.state = .statusUpdate →
      t.dmx = ⟨true, k, 1, 3, f.rerror⟩ ∧ c'.rspData0 = f.rdata ∧ c'.rspReady = false ∧ c'.reqIssued = true) ∧
    (c.state = .bulkDataMove ∨ c.state = .dataMove → room → 2 ≤ s.params.burstWords →
      t.dmx.busy = true ∧ t.dmx.ch = k ∧ t.dmx.cnt = 1 ∧ t.dmx.need.toNat = s.params.burstWords ∧ t.dmx.err = f.rerror ∧
      c'.rspReady = false ∧ c'.reqIssued = true) ∧
    (c.state = .bulkDataMove ∨ c.state = .dataMove → room → s.params.burstWords = 1 →
      c'.rspReady = true ∧ c'.rspErr = f.rerror ∧ c'.reqIssued = false ∧ t.dmx.busy = false)

/-- A later flit of the group is always taken; before the last it counts, and the last makes the response ready with the OR of the group's error bits, a data word having
room in the FIFO (R345 to R347). -/
def Obligations.LaterFlitContinuesGroup : Prop :=
  ∀ (s t : State) (k : Nat) (c c' : Channel) (f : RspFlit), Tick s t k c c' → HandshakeOk s → s.dmx.busy = true → s.dmx.ch = k →
    s.bus.rsp = some f → f.rtag = k →
    rspAccept s = true ∧
    ((c.state = .bulkDataMove ∨ c.state = .dataMove → s.params.dir k = .fromMemory →
        (if (s.port k).rready = true then c.fifo.tail else c.fifo).length < s.params.fifoDepth) →
    (s.dmx.cnt.toNat + 1 = s.dmx.need.toNat →
      c'.rspReady = true ∧ c'.rspErr = (s.dmx.err || f.rerror) ∧ c'.reqIssued = false ∧ t.dmx.busy = false) ∧
    (s.dmx.cnt.toNat + 1 ≠ s.dmx.need.toNat →
      c'.rspReady = false ∧ c'.reqIssued = true ∧ t.dmx.busy = true ∧ t.dmx.ch = k ∧ t.dmx.need = s.dmx.need ∧
      t.dmx.cnt.toNat = (s.dmx.cnt.toNat + 1) % 2 ^ 16 ∧ t.dmx.err = (s.dmx.err || f.rerror))) ∧
    (c.state = .statusRead ∨ c.state = .statusUpdate →
      (s.dmx.cnt.toNat = 1 → c'.rspData1 = f.rdata ∧ c'.rspData0 = c.rspData0 ∧ c'.rspData2 = c.rspData2) ∧
      (s.dmx.cnt.toNat = 2 → c'.rspData2 = f.rdata ∧ c'.rspData0 = c.rspData0 ∧ c'.rspData1 = c.rspData1))

/-- BUS_PROTOCOL, for each duty the demultiplexer can see broken, in a tick with no access, nothing being sent and nothing on the wire: the tick answers and records it for a tag that is no
channel, a first flit for a channel with nothing outstanding or in a state with no shape, and a flit of another tag inside a group; and a first flit for a channel whose response still waits is left
(R341, R347, R348). The machine is not stuck in a recorded fault (log 4). -/
def Obligations.BrokenDutiesFault : Prop :=
  ∀ (s : State) (f : RspFlit), ShapeOk s → NotStuck s → s.gen.busy = false → s.bus.wire = none → s.input.cfg = none → s.bus.rsp = some f →
    let recorded := ∃ t, step s = .next t ∧ .busProtocol ∈ t.faults
    (s.dmx.busy = false → s.params.nChannels ≤ f.rtag → recorded) ∧
    (s.dmx.busy = true → f.rtag ≠ s.dmx.ch → recorded) ∧
    (∀ c, s.chans[f.rtag]? = some c → s.dmx.busy = false → c.rspReady = false → c.reqIssued = false → recorded) ∧
    (∀ c, s.chans[f.rtag]? = some c → s.dmx.busy = false → c.rspReady = false → c.reqIssued = true → c.state.isBus = false →
      recorded) ∧
    (∀ c, s.chans[f.rtag]? = some c → s.dmx.busy = false → c.rspReady = true →
      rspAccept s = false ∧ ∃ t, step s = .next t ∧ t.bus.rsp = some f ∧ t.dmx = s.dmx)

/-- Error isolation: setting or clearing the error bit of a response flit for channel i changes no other channel's record, nor the generator, memory, the scratch registers, the faults or the reply, in that
tick (R349, R405). -/
def Obligations.ErrorIsolation : Prop :=
  ∀ (s t t' : State) (f : RspFlit) (e : Bool), s.bus.rsp = some f → step s = .next t →
    step { s with bus := { s.bus with rsp := some { f with rerror := e } } } = .next t' →
    (∀ j, j ≠ f.rtag → t'.chans[j]? = t.chans[j]?) ∧ t'.gen = t.gen ∧ t'.mem = t.mem ∧ t'.scratch = t.scratch ∧
      t'.faults = t.faults ∧ t'.cfgOut = t.cfgOut ∧ t'.bus.txns = t.bus.txns

/-- The FIFO of a FROM_MEMORY channel in a tick: the port pops the head it saw at the start, if it was ready; then the demultiplexer pushes the word of a data flit it takes, and a word with no room
is FIFO_OVERFLOW; a tick with no data flit taken pushes nothing (R345, R372, R373, R374). -/
def Obligations.FromMemoryFifo : Prop :=
  ∀ (s t : State) (k : Nat) (c c' : Channel), Tick s t k c c' → HandshakeOk s → s.params.dir k = .fromMemory →
    ¬(s.gen.busy = true ∧ s.gen.ch = k ∧ c.reqType = .dataWrite) →
    let rest := if (s.port k).rready = true then c.fifo.tail else c.fifo
    let taken := fun f => s.bus.rsp = some f ∧ f.rtag = k ∧ rspAccept s = true ∧ (c.state = .bulkDataMove ∨ c.state = .dataMove)
    (portRvalid c = true ↔ c.fifo ≠ []) ∧ portRdata c = c.fifo.head? ∧
    (∀ f, taken f → rest.length < s.params.fifoDepth → c'.fifo = rest ++ [f.rdata]) ∧
    (∀ f, taken f → s.params.fifoDepth ≤ rest.length → .fifoOverflow ∈ t.faults) ∧
    ((∀ f, ¬taken f) → c'.fifo = rest)

/-- The FIFO of a TO_MEMORY channel in a tick: the generator pops the head if the bus takes a DATA_WRITE flit of the channel; then the port pushes its word if there is room; nothing else moves
it (R373, R375, R376). -/
def Obligations.ToMemoryFifo : Prop :=
  ∀ (s t : State) (k : Nat) (c c' : Channel), Tick s t k c c' → s.params.dir k = .toMemory →
    let pops := s.gen.busy = true ∧ s.gen.ch = k ∧ c.reqType = .dataWrite ∧ BusTakes s
    (pops → c'.fifo = c.fifo.tail ++
      (if (s.port k).wvalid = true ∧ c.fifo.tail.length < s.params.fifoDepth then [(s.port k).wdata] else [])) ∧
    (¬pops → c'.fifo = c.fifo ++
      (if (s.port k).wvalid = true ∧ c.fifo.length < s.params.fifoDepth then [(s.port k).wdata] else []))

/-! ## The whole machine -/

/-- A running channel's addresses, size and mode do not change under it; a tick clears its RUNNING at most (R104, R161). -/
def Obligations.RunningConfigStable : Prop :=
  ∀ (s t : State) (k : Nat) (c c' : Channel), Tick s t k c c' → c.regs.running = true →
    c'.regs = { c.regs with running := c'.regs.running } ∧ (c'.regs.running = false → ∃ a, s.input.cfg = some a ∧
      decode s.params (.cfg a.word a.wdata) = .ok (.wrRunning k a.wdata))

/-- No step removes a recorded fault; parameters never change; a scratch register changes only by its own write access (R59, R11, R40). -/
def Obligations.FaultsParamsScratch : Prop :=
  ∀ (s t : State), step s = .next t →
    (∀ f, f ∈ s.faults → f ∈ t.faults) ∧ t.params = s.params ∧
    ∀ (i : Nat) (w : Word), s.scratch[i]? = some w → t.scratch[i]? = some w ∨
      ∃ a v, s.input.cfg = some a ∧ decode s.params (.cfg a.word a.wdata) = .ok (.wrScratch i v) ∧ t.scratch[i]? = some v

/-- Three invariants that every step keeps, each on its own: the shape of the state; the handshake (a channel has at most one of posted, outstanding and answered, of the kind its state posts, and the
demultiplexer works only for a channel with a request outstanding) (R98, R206, R211); and the configuration registers, inside PADDR_WIDTH bits and aligned as the writes check it (R32 to R36, R441;
log 20). -/
def Obligations.PartInvariantsKept : Prop :=
  ∀ (s t : State), step s = .next t →
    (ShapeOk s → ShapeOk t) ∧ (HandshakeOk s → HandshakeOk t) ∧
    (s.params.Wf → (∀ c ∈ s.chans, RegsOk s.params c.regs) → ∀ c ∈ t.chans, RegsOk t.params c.regs)

/-- The whole invariant is kept by every step, whatever the environment does. -/
def Obligations.MachineInvariantKept : Prop :=
  ∀ (s t : State), MachineOk s → step s = .next t → MachineOk t

/-- The whole invariant holds at reset, for all legal parameters, any script of inputs and any memory in canonical form inside the address space. -/
def Obligations.ResetIsOk : Prop :=
  ∀ (p : Params) (m : Memory) (e : List TickIn), p.Wf → Memory.wf m → (∀ x ∈ m, x.1 < 2 ^ p.paddrWidth) →
    MachineOk { State.resetWith p with mem := m, env := e }

/-- The reset state: every register and working field at the value R460 gives, and the outputs of R461. The parameters, memory, bus, held requests and script of State.reset are the model's choice
(log 1, 2, 3, 19). -/
def Obligations.ResetValues : Prop :=
  ∀ p : Params, p.Wf →
    let s := State.resetWith p
    s.chans.length = p.nChannels ∧ s.scratch.length = p.nScratch ∧ s.faults = [] ∧
    (∀ c ∈ s.chans, c.regs = ⟨0, 0, 0, .sharedQueue, 0, false⟩ ∧ c.state = .idle ∧ c.remaining = 0 ∧ c.offset = 0 ∧ c.ticket = 0 ∧
      c.sqOcc = 0 ∧ c.sqRd = 0 ∧ c.sqWr = 0 ∧ c.sqChunk = 0 ∧ c.sqMoved = 0 ∧ c.reqValid = false ∧ c.reqType = .ticketRead ∧
      c.reqIssued = false ∧ c.rspReady = false ∧ c.rspErr = false ∧ c.rspData0 = 0 ∧ c.rspData1 = 0 ∧ c.rspData2 = 0 ∧ c.fifo = [] ∧
      statusCode c.state = 0 ∧ irq c = false ∧ portAck c = false ∧ portRvalid c = false ∧ portWready p c.fifo = true) ∧
    (∀ w ∈ s.scratch, w = 0) ∧ s.gen = ⟨false, 0, 0, p.nChannels - 1⟩ ∧ s.dmx = ⟨false, 0, 0, 0, false⟩ ∧
    (∀ k, (s.port k).req = false) ∧ irqAny s = false ∧ cmdOffer s = none ∧ State.reset = State.resetWith Params.vectors

/-- In every state a run reaches from reset with no fault recorded: a channel that is stopped is in IDLE or terminal; the protocol steps are only for a running shared-queue channel, and BULK_DATA_MOVE and
SUCCESS only for a running bulk channel (R215, R216, R278). -/
def Obligations.RunStates : Prop :=
  ∀ (p : Params) (m : Memory) (e : List TickIn) (t : State), p.Wf → Memory.wf m → (∀ x ∈ m, x.1 < 2 ^ p.paddrWidth) →
    Reaches { State.resetWith p with mem := m, env := e } t → NoFault t →
    ∀ c ∈ t.chans,
      (c.regs.running = false → c.state = .idle ∨ c.state = .success ∨ c.state = .errorLock ∨ c.state = .errorDescriptor ∨ c.state = .errorData) ∧
      (c.regs.running = true → c.regs.mode = .sharedQueue → c.state ≠ .bulkDataMove ∧ c.state ≠ .success) ∧
      (c.regs.running = true → c.regs.mode ≠ .sharedQueue → c.state.isProtocol = false)

/-- In every state a run reaches from reset with no fault recorded, a running bulk channel has offset a multiple of BURST_BYTES and below SIZE, equal to SIZE exactly in SUCCESS; and the address of a data
burst it has posted or outstanding lies with the whole burst inside [BUFFER_ADDR, BUFFER_ADDR + SIZE) (R243). -/
def Obligations.BulkOffsetInvariant : Prop :=
  ∀ (p : Params) (m : Memory) (e : List TickIn) (t : State), p.Wf → Memory.wf m → (∀ x ∈ m, x.1 < 2 ^ p.paddrWidth) →
    Reaches { State.resetWith p with mem := m, env := e } t → NoFault t →
    ∀ c ∈ t.chans, c.regs.running = true → c.regs.mode ≠ .sharedQueue →
      (c.state ≠ .success → c.offset.toNat % p.burstBytes = 0 ∧ c.offset.toNat < c.regs.size.toNat) ∧
      (c.state = .success → c.offset = c.regs.size) ∧
      (c.state = .bulkDataMove → (c.reqType = .dataRead ∨ c.reqType = .dataWrite) →
        c.regs.bufferAddr.toNat ≤ (reqAddr p c c.reqType).toNat ∧
        (reqAddr p c c.reqType).toNat + p.burstBytes ≤ c.regs.bufferAddr.toNat + c.regs.size.toNat)

/-- Bulk completion: while a bulk channel that starts at offset 0 is kept running, its offset is BURST_BYTES times the bursts it has consumed without an error, so it is in SUCCESS exactly when
they are SIZE / BURST_BYTES (R404). f is the run, n its length. -/
def Obligations.BulkCompletion : Prop :=
  ∀ (f : Nat → State) (n k : Nat) (c : Channel), MachineOk (f 0) → (∀ i < n, step (f i) = .next (f (i + 1))) → NoFault (f n) →
    (∀ i ≤ n, ∃ d, (f i).chans[k]? = some d ∧ d.regs.running = true) →
    (f 0).chans[k]? = some c → c.regs.mode ≠ .sharedQueue → c.offset = 0 →
    let consumed := fun i => ((List.range i).filter fun j => burstDone (f j) k).length
    (∀ i d, i ≤ n → (f i).chans[k]? = some d → d.offset.toNat = consumed i * (f 0).params.burstBytes) ∧
    ∀ d, (f n).chans[k]? = some d → (d.state = .success ↔ consumed n * (f 0).params.burstBytes = c.regs.size.toNat)

/-- In every state a run reaches from reset with no fault recorded, a shared-queue channel between STATUS_READ and STATUS_UPDATE has CAP_W a multiple of BURST_WORDS, occupancy at most CAP_W and burst-aligned indices below CAP_W, so the burst it
moves lies inside the circular buffer and never crosses its end (R269, R272, R273). -/
def Obligations.QueueBurstInside : Prop :=
  ∀ (p : Params) (m : Memory) (e : List TickIn) (t : State), p.Wf → Memory.wf m → (∀ x ∈ m, x.1 < 2 ^ p.paddrWidth) →
    Reaches { State.resetWith p with mem := m, env := e } t → NoFault t →
    ∀ (k : Nat) (c : Channel), t.chans[k]? = some c → c.state = .dataMove ∨ c.state = .statusUpdate →
      let cap := c.regs.size.toNat / 4
      cap % p.burstWords = 0 ∧ c.sqOcc.toNat ≤ cap ∧ c.sqRd.toNat % p.burstWords = 0 ∧ c.sqWr.toNat % p.burstWords = 0 ∧
        c.sqRd.toNat + p.burstWords ≤ cap ∧ c.sqWr.toNat + p.burstWords ≤ cap ∧
        (c.state = .dataMove → (c.reqType = .dataRead ∨ c.reqType = .dataWrite) →
          c.regs.bufferAddr.toNat ≤ (reqAddr p c c.reqType).toNat ∧
          (reqAddr p c c.reqType).toNat + p.burstBytes ≤ c.regs.bufferAddr.toNat + c.regs.size.toNat)
end

