-- ==== Sys2Proof/Laws/Memory.lean ====
section
/-!
SUPPORT. The laws of memory: reading after writing, and the canonical form kept by every operation.
-/
namespace Sys2Proof.Machine

/-- A byte write changes the byte written and no other. -/
theorem readByte_writeByte (m : Memory) (hm : Memory.wf m) (a b : Nat) (v : Byte) :
    readByte (writeByte m a v) b = if a = b then v else readByte m b := by
  induction m with
  | nil => by_cases hv : v = unlistedByte <;> by_cases hab : a = b <;> simp [writeByte, readByte, hv, hab]
  | cons x m ih =>
    obtain ⟨c, w⟩ := x
    have hm' : Memory.wf m := ⟨(List.pairwise_cons.1 hm.1).2, fun c hc => hm.2 c (List.mem_cons_of_mem _ hc)⟩
    have hlt := (List.pairwise_cons.1 hm.1).1
    have key : ∀ n : Nat, n ≤ c → n ∉ m.map Prod.fst := by
      intro n hn hmem
      obtain ⟨y, hy, rfl⟩ := List.mem_map.1 hmem
      exact absurd (hlt y hy) (by simp; omega)
    have miss : ∀ n : Nat, n ∉ m.map Prod.fst → readByte m n = unlistedByte := by
      intro n
      clear * -
      induction m with
      | nil => simp [readByte]
      | cons y m ih =>
        obtain ⟨d, u⟩ := y
        simp only [List.map_cons, List.mem_cons, not_or, readByte]
        intro ⟨h1, h2⟩
        rw [if_neg (by omega), ih h2]
    simp only [writeByte]
    split
    · simp only [readByte, ih hm']
      split <;> split <;> first | rfl | omega
    · split
      · rename_i h1 h2
        subst h2
        split
        · simp only [readByte]
          split
          · subst_vars; exact miss _ (key _ le_rfl)
          · rfl
        · simp only [readByte]
          split <;> simp_all
      · rename_i h1 h2
        split
        · simp only [readByte]
          by_cases hab : a = b
          · subst hab
            rw [if_neg (by omega), if_pos rfl, miss _ (key _ (by omega))]
            simp_all
          · simp [hab]
        · simp only [readByte]

/-- Where a write can leave an entry: at the written address, or where there was one. -/
theorem writeByte_mem (m : Memory) (a : Nat) (v : Byte) (x : Host.Cell) (h : x ∈ writeByte m a v) : x = (a, v) ∨ x ∈ m := by
  induction m with
  | nil =>
    simp only [writeByte] at h
    split at h <;> simp_all
  | cons y m ih =>
    obtain ⟨c, w⟩ := y
    simp only [writeByte] at h
    split at h
    · rcases List.mem_cons.1 h with rfl | h
      · simp
      · rcases ih h with rfl | h <;> simp_all
    · split at h <;> split at h <;> simp_all <;> tauto

/-- A byte write keeps the canonical form. -/
theorem writeByte_wf (m : Memory) (hm : Memory.wf m) (a : Nat) (v : Byte) : Memory.wf (writeByte m a v) := by
  refine ⟨?_, ?_⟩
  · induction m with
    | nil => simp only [writeByte]; split <;> simp
    | cons y m ih =>
      obtain ⟨c, w⟩ := y
      have hp := List.pairwise_cons.1 hm.1
      have hm' : Memory.wf m := ⟨hp.2, fun c hc => hm.2 c (List.mem_cons_of_mem _ hc)⟩
      simp only [writeByte]
      split
      · rename_i hlt
        refine List.pairwise_cons.2 ⟨fun z hz => ?_, ih hm'⟩
        rcases writeByte_mem m a v z hz with rfl | hz
        · exact hlt
        · exact hp.1 z hz
      · rename_i hlt
        split
        · rename_i he
          subst he
          split
          · exact hp.2
          · exact List.pairwise_cons.2 ⟨hp.1, hp.2⟩
        · rename_i hne
          split
          · exact hm.1
          · refine List.pairwise_cons.2 ⟨fun z hz => ?_, hm.1⟩
            rcases List.mem_cons.1 hz with rfl | hz
            · simp; omega
            · have := hp.1 z hz
              simp at this ⊢; omega
  · induction m with
    | nil => simp only [writeByte]; split <;> simp_all
    | cons y m ih =>
      obtain ⟨c, w⟩ := y
      have hp := List.pairwise_cons.1 hm.1
      have hm' : Memory.wf m := ⟨hp.2, fun c hc => hm.2 c (List.mem_cons_of_mem _ hc)⟩
      have hcons := hm.2
      simp only [writeByte]
      split
      · intro z hz
        rcases List.mem_cons.1 hz with rfl | hz
        · exact hcons _ (by simp)
        · exact ih hm' z hz
      · split <;> split <;> simp_all

/-- A word write keeps the canonical form. -/
theorem writeWord_wf (p : Params) (m : Memory) (hm : Memory.wf m) (a : Addr) (v : Word) : Memory.wf (writeWord p m a v) := by
  simp only [writeWord]
  exact writeByte_wf _ (writeByte_wf _ (writeByte_wf _ (writeByte_wf _ hm _ _) _ _) _ _) _ _

/-- Every entry of memory lies inside the address space. -/
def Memory.inSpace (p : Params) (m : Memory) : Prop := ∀ x ∈ m, x.1 < 2 ^ p.paddrWidth

theorem byteAddr_lt (p : Params) (a : Addr) (i : Nat) : byteAddr p a i < 2 ^ p.paddrWidth :=
  Nat.mod_lt _ (Nat.two_pow_pos _)

theorem writeByte_inSpace (p : Params) (m : Memory) (hm : Memory.inSpace p m) (a : Nat) (ha : a < 2 ^ p.paddrWidth) (v : Byte) :
    Memory.inSpace p (writeByte m a v) := by
  intro x hx
  rcases writeByte_mem m a v x hx with rfl | hx
  · exact ha
  · exact hm x hx

theorem writeWord_inSpace (p : Params) (m : Memory) (hm : Memory.inSpace p m) (a : Addr) (v : Word) :
    Memory.inSpace p (writeWord p m a v) := by
  simp only [writeWord]
  exact writeByte_inSpace p _ (writeByte_inSpace p _ (writeByte_inSpace p _ (writeByte_inSpace p _ hm _ (byteAddr_lt ..) _) _
    (byteAddr_lt ..) _) _ (byteAddr_lt ..) _) _ (byteAddr_lt ..) _

/-- A word write leaves every byte outside the word alone. -/
theorem readByte_writeWord_of_ne (p : Params) (m : Memory) (hm : Memory.wf m) (a : Addr) (v : Word) (b : Nat)
    (hb : ∀ i < 4, byteAddr p a i ≠ b) : readByte (writeWord p m a v) b = readByte m b := by
  simp only [writeWord]
  rw [readByte_writeByte _ (writeByte_wf _ (writeByte_wf _ (writeByte_wf _ hm _ _) _ _) _ _), if_neg (hb 3 (by omega)),
    readByte_writeByte _ (writeByte_wf _ (writeByte_wf _ hm _ _) _ _), if_neg (hb 2 (by omega)),
    readByte_writeByte _ (writeByte_wf _ hm _ _), if_neg (hb 1 (by omega)), readByte_writeByte _ hm, if_neg (hb 0 (by omega))]

/-- The four bytes of a word lie at four addresses. -/
theorem byteAddr_inj (p : Params) (hp : 32 ≤ p.paddrWidth) (a : Addr) (i j : Nat) (hi : i < 2 ^ 32) (hj : j < 2 ^ 32)
    (h : byteAddr p a i = byteAddr p a j) : i = j := by
  unfold byteAddr at h
  have h32 : 2 ^ 32 ≤ 2 ^ p.paddrWidth := Nat.pow_le_pow_right (by omega) hp
  have := Nat.ModEq.add_left_cancel' a.toNat (show a.toNat + i ≡ a.toNat + j [MOD 2 ^ p.paddrWidth] from h)
  unfold Nat.ModEq at this
  rwa [Nat.mod_eq_of_lt (by omega), Nat.mod_eq_of_lt (by omega)] at this

/-- Byte i of a word write reads back. -/
theorem readByte_writeWord_self (p : Params) (hp : 32 ≤ p.paddrWidth) (m : Memory) (hm : Memory.wf m) (a : Addr) (v : Word) (i : Nat)
    (hi : i < 4) : readByte (writeWord p m a v) (byteAddr p a i) = wordByteAt p v i := by
  have inj := fun i j hi hj => byteAddr_inj p hp a i j hi hj
  simp only [writeWord]
  rw [readByte_writeByte _ (writeByte_wf _ (writeByte_wf _ (writeByte_wf _ hm _ _) _ _) _ _),
    readByte_writeByte _ (writeByte_wf _ (writeByte_wf _ hm _ _) _ _), readByte_writeByte _ (writeByte_wf _ hm _ _),
    readByte_writeByte _ hm]
  have h3 := inj 3 i (by omega) (by omega)
  have h2 := inj 2 i (by omega) (by omega)
  have h1 := inj 1 i (by omega) (by omega)
  have h0 := inj 0 i (by omega) (by omega)
  interval_cases i <;> simp_all

/-- A word read after a word write to the same place gives the value written (R84). -/
theorem readWord_writeWord (p : Params) (hp : 32 ≤ p.paddrWidth) (m : Memory) (hm : Memory.wf m) (a : Addr) (v : Word) :
    readWord p (writeWord p m a v) a = v := by
  have h := readByte_writeWord_self p hp m hm a v
  simp only [readWord, h 0 (by omega), h 1 (by omega), h 2 (by omega), h 3 (by omega)]
  unfold wordByteAt
  cases p.byteOrder <;> simp only [] <;> ext j hj <;> simp [BitVec.getElem_append] <;> grind

/-- A word write leaves a word that shares no byte with it alone. -/
theorem readWord_writeWord_of_ne (p : Params) (m : Memory) (hm : Memory.wf m) (a b : Addr) (v : Word)
    (h : ∀ i < 4, ∀ j < 4, byteAddr p a i ≠ byteAddr p b j) : readWord p (writeWord p m a v) b = readWord p m b := by
  have hb : ∀ j < 4, readByte (writeWord p m a v) (byteAddr p b j) = readByte m (byteAddr p b j) := fun j hj =>
    readByte_writeWord_of_ne p m hm a v _ fun i hi => h i hi j hj
  simp only [readWord, hb 0 (by omega), hb 1 (by omega), hb 2 (by omega), hb 3 (by omega)]

end Sys2Proof.Machine
end

