-- ==== Sys2Proof/Laws/State.lean ====
section
/-!
SUPPORT. One lemma per field per named update of the state, each true by definition, so that no later proof unfolds a record update.
-/
namespace Sys2Proof.Machine

/-! ### setChan -/

@[simp] theorem State.setChan_params (s : State) (k : Nat) (c : Channel) : (s.setChan k c).params = s.params := rfl
@[simp] theorem State.setChan_chans (s : State) (k : Nat) (c : Channel) : (s.setChan k c).chans = s.chans.set k c := rfl
@[simp] theorem State.setChan_scratch (s : State) (k : Nat) (c : Channel) : (s.setChan k c).scratch = s.scratch := rfl
@[simp] theorem State.setChan_gen (s : State) (k : Nat) (c : Channel) : (s.setChan k c).gen = s.gen := rfl
@[simp] theorem State.setChan_dmx (s : State) (k : Nat) (c : Channel) : (s.setChan k c).dmx = s.dmx := rfl
@[simp] theorem State.setChan_faults (s : State) (k : Nat) (c : Channel) : (s.setChan k c).faults = s.faults := rfl
@[simp] theorem State.setChan_cfgOut (s : State) (k : Nat) (c : Channel) : (s.setChan k c).cfgOut = s.cfgOut := rfl
@[simp] theorem State.setChan_mem (s : State) (k : Nat) (c : Channel) : (s.setChan k c).mem = s.mem := rfl
@[simp] theorem State.setChan_bus (s : State) (k : Nat) (c : Channel) : (s.setChan k c).bus = s.bus := rfl
@[simp] theorem State.setChan_held (s : State) (k : Nat) (c : Channel) : (s.setChan k c).held = s.held := rfl
@[simp] theorem State.setChan_env (s : State) (k : Nat) (c : Channel) : (s.setChan k c).env = s.env := rfl

/-! ### reply -/

@[simp] theorem State.reply_params (s : State) (r : CfgReply) : (s.reply r).params = s.params := rfl
@[simp] theorem State.reply_chans (s : State) (r : CfgReply) : (s.reply r).chans = s.chans := rfl
@[simp] theorem State.reply_scratch (s : State) (r : CfgReply) : (s.reply r).scratch = s.scratch := rfl
@[simp] theorem State.reply_gen (s : State) (r : CfgReply) : (s.reply r).gen = s.gen := rfl
@[simp] theorem State.reply_dmx (s : State) (r : CfgReply) : (s.reply r).dmx = s.dmx := rfl
@[simp] theorem State.reply_faults (s : State) (r : CfgReply) : (s.reply r).faults = s.faults := rfl
@[simp] theorem State.reply_cfgOut (s : State) (r : CfgReply) : (s.reply r).cfgOut = r := rfl
@[simp] theorem State.reply_mem (s : State) (r : CfgReply) : (s.reply r).mem = s.mem := rfl
@[simp] theorem State.reply_bus (s : State) (r : CfgReply) : (s.reply r).bus = s.bus := rfl
@[simp] theorem State.reply_held (s : State) (r : CfgReply) : (s.reply r).held = s.held := rfl
@[simp] theorem State.reply_env (s : State) (r : CfgReply) : (s.reply r).env = s.env := rfl

/-! ### recordFault -/

@[simp] theorem State.recordFault_params (s : State) (f : Fault) : (s.recordFault f).params = s.params := rfl
@[simp] theorem State.recordFault_chans (s : State) (f : Fault) : (s.recordFault f).chans = s.chans := rfl
@[simp] theorem State.recordFault_scratch (s : State) (f : Fault) : (s.recordFault f).scratch = s.scratch := rfl
@[simp] theorem State.recordFault_gen (s : State) (f : Fault) : (s.recordFault f).gen = s.gen := rfl
@[simp] theorem State.recordFault_dmx (s : State) (f : Fault) : (s.recordFault f).dmx = s.dmx := rfl
@[simp] theorem State.recordFault_faults (s : State) (f : Fault) : (s.recordFault f).faults = if f ∈ s.faults then s.faults else s.faults ++ [f] := rfl
@[simp] theorem State.recordFault_cfgOut (s : State) (f : Fault) : (s.recordFault f).cfgOut = s.cfgOut := rfl
@[simp] theorem State.recordFault_mem (s : State) (f : Fault) : (s.recordFault f).mem = s.mem := rfl
@[simp] theorem State.recordFault_bus (s : State) (f : Fault) : (s.recordFault f).bus = s.bus := rfl
@[simp] theorem State.recordFault_held (s : State) (f : Fault) : (s.recordFault f).held = s.held := rfl
@[simp] theorem State.recordFault_env (s : State) (f : Fault) : (s.recordFault f).env = s.env := rfl

/-! ### The derived inputs -/

@[simp] theorem State.setChan_input (s : State) (k : Nat) (c : Channel) : (s.setChan k c).input = s.input := rfl
@[simp] theorem State.reply_input (s : State) (r : CfgReply) : (s.reply r).input = s.input := rfl
@[simp] theorem State.recordFault_input (s : State) (f : Fault) : (s.recordFault f).input = s.input := rfl
@[simp] theorem State.setChan_port (s : State) (k j : Nat) (c : Channel) : (s.setChan k c).port j = s.port j := rfl
@[simp] theorem State.reply_port (s : State) (r : CfgReply) (j : Nat) : (s.reply r).port j = s.port j := rfl
@[simp] theorem State.recordFault_port (s : State) (f : Fault) (j : Nat) : (s.recordFault f).port j = s.port j := rfl

/-! ### Error entry and return -/

@[simp] theorem takeError_state (e : FsmState) (c : Channel) : (takeError e c).state = e := rfl
@[simp] theorem takeError_regs (e : FsmState) (c : Channel) : (takeError e c).regs = c.regs := rfl
@[simp] theorem takeError_fifo (e : FsmState) (c : Channel) : (takeError e c).fifo = c.fifo := rfl

/-- Recording a fault keeps every fault recorded before (R59). -/
theorem State.mem_recordFault (s : State) (f g : Fault) : g ∈ (s.recordFault f).faults ↔ g ∈ s.faults ∨ g = f := by
  simp only [State.recordFault_faults]
  split
  · rename_i h
    exact ⟨.inl, fun h' => h'.elim id fun e => e ▸ h⟩
  · simp

/-- A set stays a set when a fault is recorded (R59). -/
theorem State.recordFault_nodup (s : State) (f : Fault) (h : s.faults.Nodup) : (s.recordFault f).faults.Nodup := by
  simp only [State.recordFault_faults]
  split
  · exact h
  · rename_i hf
    exact h.append (List.nodup_singleton f) (by simpa using hf)

/-- No fault of s is lost in t, and a set of faults stays a set (R59). -/
structure FaultsGrow (s t : State) : Prop where
  kept : ∀ f ∈ s.faults, f ∈ t.faults
  once : s.faults.Nodup → t.faults.Nodup

theorem FaultsGrow.refl (s : State) : FaultsGrow s s := ⟨fun _ h => h, id⟩

theorem FaultsGrow.of_eq {s t : State} (h : t.faults = s.faults) : FaultsGrow s t := ⟨fun _ hf => h ▸ hf, fun hn => h ▸ hn⟩

theorem FaultsGrow.trans {s t u : State} (h : FaultsGrow s t) (h' : FaultsGrow t u) : FaultsGrow s u :=
  ⟨fun f hf => h'.kept f (h.kept f hf), fun hn => h'.once (h.once hn)⟩

theorem FaultsGrow.record (s : State) (f : Fault) : FaultsGrow s (s.recordFault f) :=
  ⟨fun g hg => (s.mem_recordFault f g).2 (.inl hg), s.recordFault_nodup f⟩

/-- A tick that ends with no fault recorded began with none. -/
theorem FaultsGrow.noFault {s t : State} (h : FaultsGrow s t) (ht : t.faults = []) : s.faults = [] :=
  List.eq_nil_iff_forall_not_mem.2 fun f hf => by simpa [ht] using h.kept f hf

/-- A recorded fault is there. -/
theorem State.recordFault_ne_nil (s : State) (f : Fault) : (s.recordFault f).faults ≠ [] :=
  List.ne_nil_of_mem ((s.mem_recordFault f f).2 (.inr rfl))

end Sys2Proof.Machine
end

