-- ==== Sys2Proof/Laws/Ops.lean ====
section
/-!
SUPPORT. What each shared operation can do, said once: sequencing, access to a channel, performing a transaction, and the bus's own moves.
-/
namespace Sys2Proof.Machine

/-! ### Outcomes -/

@[simp] theorem andThen_next_eq {σ τ φ ρ : Type} (s : σ) (f : σ → Host.Outcome τ φ ρ) : andThen (.next s) f = f s := rfl

/-- A sequence that answers a next state did so in both parts. -/
theorem andThen_next {σ τ φ ρ : Type} {o : Host.Outcome σ φ ρ} {f : σ → Host.Outcome τ φ ρ} {t : τ} (h : andThen o f = .next t) :
    ∃ s, o = .next s ∧ f s = .next t := by
  cases o with
  | next s => exact ⟨s, rfl, h⟩
  | fault r => simp [andThen] at h
  | refused r => simp [andThen] at h

theorem withChan_eq {s : State} {k : Nat} {c : Channel} (hc : s.chans[k]? = some c)
    (f : Channel → Host.Outcome State Fault Refusal) : withChan s k f = f c := by
  simp [withChan, hc]

/-- An operation on a channel that answers a next state found the channel. -/
theorem withChan_next {s t : State} {k : Nat} {f : Channel → Host.Outcome State Fault Refusal} (h : withChan s k f = .next t) :
    ∃ c, s.chans[k]? = some c ∧ f c = .next t := by
  unfold withChan at h
  split at h
  · exact ⟨_, ‹_›, h⟩
  · cases h

/-! ### Performing a transaction -/

/-- A word access leaves the memory of a READ alone, and otherwise memory alone or writes one word of the transaction's range. -/
theorem wordEffect_mem (p : Params) (m : Memory) (t : Txn) (j : Nat) :
    (wordEffect p m t j).1 = m ∨ (t.op ≠ .read ∧ ∃ v, (wordEffect p m t j).1 = writeWord p m (wordAddr p t.addr j) v) := by
  unfold wordEffect
  cases t.op with
  | read => exact .inl rfl
  | write =>
    dsimp only
    split
    · exact .inl rfl
    · exact .inr ⟨nofun, _, rfl⟩
  | cas =>
    dsimp only [memCas]
    split
    · exact .inl rfl
    · split
      · exact .inr ⟨nofun, _, rfl⟩
      · exact .inl rfl

/-- The word access a transaction has not made: its effect, and its response word noted. -/
theorem performWord_todo (p : Params) (m : Memory) {t : Txn} {j : Nat} (h : t.rdata[j]? = some none) :
    performWord p m t j = ((wordEffect p m t j).1, { t with rdata := t.rdata.set j (some (wordEffect p m t j).2) }) := by
  unfold performWord
  rw [h]

/-- A word access leaves memory alone or writes one word of the transaction's range. -/
theorem performWord_mem (p : Params) (m : Memory) (t : Txn) (j : Nat) :
    (performWord p m t j).1 = m ∨ (j < t.rdata.length ∧ ∃ v, (performWord p m t j).1 = writeWord p m (wordAddr p t.addr j) v) := by
  unfold performWord
  split
  · rename_i h
    rcases wordEffect_mem p m t j with e | ⟨-, v, e⟩
    · exact .inl e
    · exact .inr ⟨(List.getElem?_eq_some_iff.1 h).1, v, e⟩
  · exact .inl rfl

theorem performWord_wf (p : Params) (m : Memory) (hm : Memory.wf m) (t : Txn) (j : Nat) : Memory.wf (performWord p m t j).1 := by
  rcases performWord_mem p m t j with h | ⟨-, v, h⟩ <;> rw [h]
  · exact hm
  · exact writeWord_wf p m hm _ _

theorem performWord_inSpace (p : Params) (m : Memory) (hm : Memory.inSpace p m) (t : Txn) (j : Nat) :
    Memory.inSpace p (performWord p m t j).1 := by
  rcases performWord_mem p m t j with h | ⟨-, v, h⟩ <;> rw [h]
  · exact hm
  · exact writeWord_inSpace p m hm _ _

theorem performWords_wf (p : Params) (js : List Nat) (x : Memory × Txn) (hm : Memory.wf x.1) : Memory.wf (performWords p js x).1 := by
  induction js generalizing x with
  | nil => exact hm
  | cons j js ih => exact ih _ (performWord_wf p _ hm _ j)

theorem performWords_inSpace (p : Params) (js : List Nat) (x : Memory × Txn) (hm : Memory.inSpace p x.1) :
    Memory.inSpace p (performWords p js x).1 := by
  induction js generalizing x with
  | nil => exact hm
  | cons j js ih => exact ih _ (performWord_inSpace p _ hm _ j)

/-! ### The bus's own moves at the end of a tick -/

/-- The word accesses of a tick change memory and the accepted transactions only. -/
theorem busActs_frame (as : List BusAct) (s : State) :
    ∃ m ts, busActs as s = { s with mem := m, bus := { s.bus with txns := ts } } := by
  induction as generalizing s with
  | nil => exact ⟨s.mem, s.bus.txns, rfl⟩
  | cons a as ih =>
    have h1 : ∃ m ts, busAct a s = { s with mem := m, bus := { s.bus with txns := ts } } := by
      cases a with
      | word i j =>
        simp only [busAct]
        split
        · exact ⟨s.mem, s.bus.txns, rfl⟩
        · exact ⟨_, _, rfl⟩
      | poke addr v => exact ⟨_, s.bus.txns, rfl⟩
    obtain ⟨m, ts, h⟩ := h1
    obtain ⟨m', ts', h'⟩ := ih (busAct a s)
    exact ⟨m', ts', by rw [busActs, h', h]⟩

theorem busActs_wf (as : List BusAct) (s : State) (hm : Memory.wf s.mem) : Memory.wf (busActs as s).mem := by
  induction as generalizing s with
  | nil => exact hm
  | cons a as ih =>
    refine ih _ ?_
    cases a with
    | word i j =>
      simp only [busAct]
      split
      · exact hm
      · exact performWord_wf _ _ hm _ _
    | poke addr v => exact writeWord_wf _ _ hm _ _

theorem busActs_inSpace (as : List BusAct) (s : State) (hm : Memory.inSpace s.params s.mem) :
    Memory.inSpace s.params (busActs as s).mem := by
  induction as generalizing s with
  | nil => exact hm
  | cons a as ih =>
    have hp : (busAct a s).params = s.params := by
      cases a with
      | word i j => simp only [busAct]; split <;> rfl
      | poke addr v => rfl
    have h1 : Memory.inSpace s.params (busAct a s).mem := by
      cases a with
      | word i j =>
        simp only [busAct]
        split
        · exact hm
        · exact performWord_inSpace _ _ hm _ _
      | poke addr v => exact writeWord_inSpace _ _ hm _ _
    have := ih (busAct a s) (by rw [hp]; exact h1)
    rwa [hp] at this

/-! ### Requests and commands -/

/-- What the sending step does when it answers a next state: GEN_FIFO_EMPTY recorded for a DATA_WRITE with an empty FIFO (R312); nothing while the bus
does not take the flit; and otherwise the flit on the wire, the generator moved on and, for a DATA_WRITE, the FIFO's head gone (R302). -/
theorem sendFlit_next {t : ReqType} {k : Nat} {s s' : State} (h : sendFlit t k s = .next s') :
    ∃ c, s.chans[k]? = some c ∧
      ((t = .dataWrite ∧ c.fifo = [] ∧ s' = s.recordFault .genFifoEmpty) ∨
       (¬(t = .dataWrite ∧ c.fifo = []) ∧ cmdReady s = false ∧ s' = s) ∨
       (¬(t = .dataWrite ∧ c.fifo = []) ∧ cmdReady s = true ∧
        s' = { s with
          gen := genAfterFlit (reqFlits s.params t) s.gen
          bus := { s.bus with wire := some (reqFlit s.params t k c s.gen.idx.toNat) }
          chans := if t = .dataWrite then s.chans.set k { c with fifo := c.fifo.tail } else s.chans })) := by
  obtain ⟨c, hc, h⟩ := withChan_next h
  refine ⟨c, hc, ?_⟩
  split at h
  · rename_i he; cases h; exact .inl ⟨he.1, he.2, rfl⟩
  · rename_i hne
    split at h
    · cases h; exact .inr (.inr ⟨hne, ‹_›, rfl⟩)
    · cases h; exact .inr (.inl ⟨hne, by simpa using ‹¬cmdReady s = true›, rfl⟩)

/-- Taking a command flit changes memory, the write words being taken and the accepted transactions only. -/
theorem takeCommand_next {op : BusOp} {a : Addr} {pl : BitVec 16} {w : Word} {e : Bool} {tag : Nat} {s s' : State}
    (h : takeCommand op a pl w e tag s = .next s') :
    ∃ m as ts, s' = { s with mem := m, bus := { s.bus with asm := as, txns := ts } } ∧
      (Memory.wf s.mem → Memory.wf m) ∧ (Memory.inSpace s.params s.mem → Memory.inSpace s.params m) := by
  unfold takeCommand at h
  split at h
  · dsimp only at h
    split at h
    · cases h; exact ⟨_, _, _, rfl, id, id⟩
    · cases h
      exact ⟨_, _, _, rfl, fun hm => performWords_wf _ _ _ hm, fun hm => performWords_inSpace _ _ _ hm⟩
  · cases h; exact ⟨s.mem, _, s.bus.txns, rfl, id, id⟩

end Sys2Proof.Machine
end

