-- ==== Sys2Proof/Laws/Access.lean ====
section
/-!
SUPPORT. What a register access can do when it answers a next state, said once for all 26 of them (R160 to R188).
-/
namespace Sys2Proof.Machine

/-- What an access may do to one channel: nothing, a stopped channel's configuration, a start, or a stop. fine says that a stop was safe (R180). -/
inductive AccessMove (p : Params) (fine : Prop) (c : Channel) : Channel → Prop where
  | same : AccessMove p fine c c
  | config (r : ChanRegs) : c.regs.running = false → r.running = false → (p.Wf → RegsOk p c.regs → RegsOk p r) →
      AccessMove p fine c { c with regs := r }
  | start : c.regs.running = false → startDefect p c.regs = false →
      AccessMove p fine c { c with regs := { c.regs with running := true }, offset := 0 }
  | stop : c.regs.running = true → fine → AccessMove p fine c { c with regs := { c.regs with running := false } }

theorem AccessMove.mono {p : Params} {fine fine' : Prop} {c c' : Channel} (hf : fine → fine') (h : AccessMove p fine c c') : AccessMove p fine' c c' := by
  cases h with
  | same => exact .same
  | config r a b d => exact .config r a b d
  | start a b => exact .start a b
  | stop a b => exact .stop a (hf b)

/-- What an access may do to the state: channels by AccessMove, scratch registers, the reply, and faults recorded. -/
structure AccessStep (s t : State) : Prop where
  frame : ∃ cs sc fs r, t = { s with chans := cs, scratch := sc, faults := fs, cfgOut := r }
  scratchLen : t.scratch.length = s.scratch.length
  chansLen : t.chans.length = s.chans.length
  faultsKept : ∀ f ∈ s.faults, f ∈ t.faults
  faultsOnce : s.faults.Nodup → t.faults.Nodup
  chan : ∀ (k : Nat) (c : Channel), s.chans[k]? = some c → ∃ c', t.chans[k]? = some c' ∧
    AccessMove s.params (t.faults = [] → stopIsSafe c.state (s.port k).req = true) c c'

/-- A reply alone. -/
theorem accessStep_reply (s : State) (r : CfgReply) : AccessStep s (s.reply r) where
  frame := ⟨_, _, _, _, rfl⟩
  scratchLen := rfl
  chansLen := rfl
  faultsKept := fun _ h => h
  faultsOnce := id
  chan := fun _ c hc => ⟨c, hc, .same⟩

/-- A reply and one channel moved. -/
theorem accessStep_setChan {s : State} {k : Nat} {c c' : Channel} (hc : s.chans[k]? = some c) (r : CfgReply)
    (h : AccessMove s.params (s.faults = [] → stopIsSafe c.state (s.port k).req = true) c c') :
    AccessStep s ((s.reply r).setChan k c') where
  frame := ⟨_, _, _, _, rfl⟩
  scratchLen := rfl
  chansLen := by simp
  faultsKept := fun _ h => h
  faultsOnce := id
  chan := fun j cj hj => by
    by_cases hjk : k = j
    · subst hjk
      obtain rfl : c = cj := by simpa [hc] using hj
      refine ⟨c', ?_, h⟩
      have := (List.getElem?_eq_some_iff.1 hc).1
      simp [this]
    · exact ⟨cj, by simp [hjk, hj], .same⟩

/-- A reply, one channel moved, and a model fault recorded. -/
theorem accessStep_setFault {s : State} {k : Nat} {c c' : Channel} (hc : s.chans[k]? = some c) (r : CfgReply) (f : Fault)
    (h : (False → stopIsSafe c.state (s.port k).req = true) → AccessMove s.params (False → stopIsSafe c.state (s.port k).req = true) c c') :
    AccessStep s (((s.reply r).setChan k c').recordFault f) where
  frame := ⟨_, _, _, _, rfl⟩
  scratchLen := rfl
  chansLen := by simp
  faultsKept := fun g hg => (State.mem_recordFault _ f g).2 (.inl hg)
  faultsOnce := fun hn => State.recordFault_nodup _ f hn
  chan := fun j cj hj => by
    have hne : (((s.reply r).setChan k c').recordFault f).faults ≠ [] := State.recordFault_ne_nil _ f
    have he : ((((s.reply r).setChan k c').recordFault f).faults = [] → stopIsSafe cj.state (s.port j).req = true) ↔
        (False → stopIsSafe cj.state (s.port j).req = true) :=
      ⟨fun _ hf => hf.elim, fun _ hf => absurd hf hne⟩
    rw [he]
    by_cases hjk : k = j
    · subst hjk
      obtain rfl : c = cj := by simpa [hc] using hj
      refine ⟨c', ?_, h False.elim⟩
      have := (List.getElem?_eq_some_iff.1 hc).1
      simp [this]
    · exact ⟨cj, by simp [hjk, hj], .same⟩

/-- A model fault recorded and nothing else. -/
theorem accessStep_fault (s : State) (r : CfgReply) (f : Fault) : AccessStep s ((s.reply r).recordFault f) where
  frame := ⟨_, _, _, _, rfl⟩
  scratchLen := rfl
  chansLen := rfl
  faultsKept := fun g hg => (State.mem_recordFault _ f g).2 (.inl hg)
  faultsOnce := fun hn => State.recordFault_nodup _ f hn
  chan := fun _ c hc => ⟨c, hc, .same⟩

theorem readReg_next {s t : State} {k : Nat} {f : Channel → Word} (h : readReg s k f = .next t) : AccessStep s t := by
  obtain ⟨c, -, h⟩ := withChan_next h
  cases h
  exact accessStep_reply s _

theorem writeReadOnly_next {s t : State} {k : Nat} (h : writeReadOnly s k = .next t) : AccessStep s t := by
  obtain ⟨c, -, h⟩ := withChan_next h
  cases h
  exact accessStep_reply s _

theorem writeStopped_next {s t : State} {k : Nat} {legal : Bool} {f : ChanRegs → ChanRegs}
    (hrun : ∀ r : ChanRegs, (f r).running = r.running)
    (hok : legal = true → ∀ r, s.params.Wf → RegsOk s.params r → RegsOk s.params (f r))
    (h : writeStopped s k legal f = .next t) : AccessStep s t := by
  obtain ⟨c, hc, h⟩ := withChan_next h
  split at h
  · cases h; exact accessStep_reply s _
  · rename_i hr
    have hr : c.regs.running = false := by simpa using hr
    split at h
    · cases h
      exact accessStep_setChan hc (.written false) (.config (f c.regs) hr (by rw [hrun, hr]) (hok ‹_› _))
    · cases h
      exact accessStep_fault s _ _

/-! ### The registers stay well formed -/

theorem toNat_append32 (a b : Word) : (a ++ b : Addr).toNat = a.toNat * 2 ^ 32 + b.toNat := by
  rw [BitVec.toNat_append, Nat.shiftLeft_eq, Nat.mul_comm, ← Nat.two_pow_add_eq_or_of_lt b.isLt]


@[simp] theorem addrLo_toNat (a : Addr) : (addrLo a).toNat = a.toNat % 2 ^ 32 := by
  simp [addrLo]

theorem setAddrLo_toNat (a : Addr) (v : Word) : (setAddrLo a v).toNat = a.toNat / 2 ^ 32 * 2 ^ 32 + v.toNat := by
  unfold setAddrLo
  rw [toNat_append32]
  congr 2
  simp only [BitVec.extractLsb'_toNat, Nat.shiftRight_eq_div_pow]
  exact Nat.mod_eq_of_lt (by have := a.isLt; omega)

theorem addrLo_setAddrLo (a : Addr) (v : Word) : addrLo (setAddrLo a v) = v := by
  apply BitVec.eq_of_toNat_eq
  rw [addrLo_toNat, setAddrLo_toNat]
  have := v.isLt
  omega

theorem truncAddr_toNat (p : Params) (a : Addr) : (truncAddr p a).toNat = a.toNat % 2 ^ p.paddrWidth := by
  unfold truncAddr
  rw [BitVec.toNat_ofNat]
  exact Nat.mod_eq_of_lt (lt_of_le_of_lt (Nat.mod_le _ _) a.isLt)

/-- The width splits the space into words of the high half. -/
theorem pow_width (p : Params) (h : 32 ≤ p.paddrWidth) : 2 ^ p.paddrWidth = 2 ^ (p.paddrWidth - 32) * 2 ^ 32 := by
  rw [← Nat.pow_add]
  congr 1
  omega

theorem setAddrLo_lt (p : Params) (hp : p.Wf) (a : Addr) (ha : a.toNat < 2 ^ p.paddrWidth) (v : Word) :
    (setAddrLo a v).toNat < 2 ^ p.paddrWidth := by
  rw [setAddrLo_toNat]
  rw [pow_width p hp.2.2.1] at ha ⊢
  have hv := v.isLt
  have : a.toNat / 2 ^ 32 < 2 ^ (p.paddrWidth - 32) := Nat.div_lt_of_lt_mul (by rwa [Nat.mul_comm] at ha)
  calc a.toNat / 2 ^ 32 * 2 ^ 32 + v.toNat < a.toNat / 2 ^ 32 * 2 ^ 32 + 2 ^ 32 := by omega
    _ = (a.toNat / 2 ^ 32 + 1) * 2 ^ 32 := by ring
    _ ≤ _ := Nat.mul_le_mul_right _ this

theorem setAddrHi_toNat (p : Params) (hp : p.Wf) (a : Addr) (v : Word) (h : 32 < p.paddrWidth) :
    (setAddrHi p a v).toNat = v.toNat % 2 ^ (p.paddrWidth - 32) * 2 ^ 32 + a.toNat % 2 ^ 32 := by
  unfold setAddrHi
  rw [if_pos h, truncAddr_toNat, toNat_append32, pow_width p hp.2.2.1]
  simp only [BitVec.extractLsb'_toNat, Nat.shiftRight_zero]
  rw [Nat.mul_comm (2 ^ (p.paddrWidth - 32)), Nat.mod_mul]
  have h1 : a.toNat % 2 ^ 32 < 2 ^ 32 := Nat.mod_lt _ (by norm_num)
  have h2 : (v.toNat * 2 ^ 32 + a.toNat % 2 ^ 32) % 2 ^ 32 = a.toNat % 2 ^ 32 := by omega
  have h3 : (v.toNat * 2 ^ 32 + a.toNat % 2 ^ 32) / 2 ^ 32 = v.toNat := by omega
  rw [h2, h3]
  ring

theorem setAddrHi_lt (p : Params) (a : Addr) (ha : a.toNat < 2 ^ p.paddrWidth) (v : Word) :
    (setAddrHi p a v).toNat < 2 ^ p.paddrWidth := by
  by_cases h : 32 < p.paddrWidth
  · unfold setAddrHi
    rw [if_pos h, truncAddr_toNat]
    exact Nat.mod_lt _ (Nat.two_pow_pos _)
  · simpa [setAddrHi, h] using ha

theorem addrLo_setAddrHi (p : Params) (hp : p.Wf) (a : Addr) (v : Word) : addrLo (setAddrHi p a v) = addrLo a := by
  by_cases h : 32 < p.paddrWidth
  · apply BitVec.eq_of_toNat_eq
    rw [addrLo_toNat, addrLo_toNat, setAddrHi_toNat p hp a v h]
    omega
  · simp [setAddrHi, h]

theorem mod4_of_lo {a b : Addr} (h : a.toNat % 2 ^ 32 = b.toNat % 2 ^ 32) : a.toNat % 4 = b.toNat % 4 := by omega

theorem setAddrLo_mod4 (a : Addr) (v : Word) : (setAddrLo a v).toNat % 4 = v.toNat % 4 := by
  rw [setAddrLo_toNat]; omega

theorem setAddrHi_mod4 (p : Params) (hp : p.Wf) (a : Addr) (v : Word) : (setAddrHi p a v).toNat % 4 = a.toNat % 4 := by
  have := congrArg BitVec.toNat (addrLo_setAddrHi p hp a v)
  rw [addrLo_toNat, addrLo_toNat] at this
  exact mod4_of_lo this

/-! ### All 26 accesses -/

theorem execWrRunning_next {k : Nat} {v : Word} {s t : State} (h : execWrRunning k v s = .next t) : AccessStep s t := by
  obtain ⟨c, hc, h⟩ := withChan_next h
  dsimp only at h
  split at h
  · split at h
    · cases h
      exact accessStep_fault s _ _
    · cases h
      exact accessStep_setChan hc _ (.start ‹_› (by simpa using ‹¬startDefect _ _ = true›))
  · split at h
    · cases h
      exact accessStep_setChan hc _ (.stop ‹_› fun _ => ‹_›)
    · cases h
      exact (accessStep_setFault hc _ _ (.stop ‹_›))
  · cases h
    exact accessStep_reply s _

theorem execRdScratch_next {i : Nat} {s t : State} (h : execRdScratch i s = .next t) : AccessStep s t := by
  unfold execRdScratch at h
  split at h <;> cases h
  exact accessStep_reply s _

theorem execWrScratch_next {i : Nat} {v : Word} {s t : State} (h : execWrScratch i v s = .next t) : AccessStep s t := by
  unfold execWrScratch at h
  split at h <;> cases h
  exact ⟨⟨_, _, _, _, rfl⟩, by simp, rfl, fun _ h => h, id, fun _ c hc => ⟨c, hc, .same⟩⟩

/-- An access that answers a next state does what AccessStep says. -/
theorem exec_access {i : Instr} {s t : State} (hi : i.format = .cfg) (h : exec i s = .next t) : AccessStep s t := by
  cases i with
  | wrBufferAddrLo k v =>
    simp only [exec, execWrBufferAddrLo] at h
    refine writeStopped_next ?_ ?_ h
    · exact fun _ => rfl
    intro hv r hp hr
    exact { hr with
      bufferIn := setAddrLo_lt _ hp _ hr.bufferIn v
      bufferAligned := by rw [addrLo_setAddrLo]; simpa [burstAligned] using hv }
  | wrBufferAddrHi k v =>
    simp only [exec, execWrBufferAddrHi] at h
    refine writeStopped_next ?_ ?_ h
    · exact fun _ => rfl
    intro _ r hp hr
    exact { hr with
      bufferIn := setAddrHi_lt _ _ hr.bufferIn v
      bufferAligned := by rw [addrLo_setAddrHi _ hp]; exact hr.bufferAligned }
  | wrDescAddrLo k v =>
    simp only [exec, execWrDescAddrLo] at h
    refine writeStopped_next ?_ ?_ h
    · exact fun _ => rfl
    intro hv r hp hr
    exact { hr with
      descIn := setAddrLo_lt _ hp _ hr.descIn v
      descAligned := by rw [setAddrLo_mod4]; simpa [wordAligned] using hv }
  | wrDescAddrHi k v =>
    simp only [exec, execWrDescAddrHi] at h
    refine writeStopped_next ?_ ?_ h
    · exact fun _ => rfl
    intro _ r hp hr
    exact { hr with
      descIn := setAddrHi_lt _ _ hr.descIn v
      descAligned := by rw [setAddrHi_mod4 _ hp]; exact hr.descAligned }
  | wrLockAddrLo k v =>
    simp only [exec, execWrLockAddrLo] at h
    refine writeStopped_next ?_ ?_ h
    · exact fun _ => rfl
    intro hv r hp hr
    exact { hr with
      lockIn := setAddrLo_lt _ hp _ hr.lockIn v
      lockAligned := by rw [setAddrLo_mod4]; simpa [wordAligned] using hv }
  | wrLockAddrHi k v =>
    simp only [exec, execWrLockAddrHi] at h
    refine writeStopped_next ?_ ?_ h
    · exact fun _ => rfl
    intro _ r hp hr
    exact { hr with
      lockIn := setAddrHi_lt _ _ hr.lockIn v
      lockAligned := by rw [setAddrHi_mod4 _ hp]; exact hr.lockAligned }
  | wrMode k v =>
    simp only [exec, execWrMode] at h
    refine writeStopped_next ?_ ?_ h
    · exact fun _ => rfl
    intro _ r _ hr
    exact { hr with }
  | wrSize k v =>
    simp only [exec, execWrSize] at h
    refine writeStopped_next ?_ ?_ h
    · exact fun _ => rfl
    intro hv r _ hr
    exact { hr with sizeAligned := by simpa [burstAligned] using hv }
  | rdBufferAddrLo k => exact readReg_next h
  | rdBufferAddrHi k => exact readReg_next h
  | rdDescAddrLo k => exact readReg_next h
  | rdDescAddrHi k => exact readReg_next h
  | rdLockAddrLo k => exact readReg_next h
  | rdLockAddrHi k => exact readReg_next h
  | rdDirection k => exact readReg_next h
  | rdMode k => exact readReg_next h
  | rdSize k => exact readReg_next h
  | rdRunning k => exact readReg_next h
  | rdStatus k => exact readReg_next h
  | wrDirection k v => exact writeReadOnly_next h
  | wrStatus k v => exact writeReadOnly_next h
  | wrRunning k v => exact execWrRunning_next h
  | rdScratch i => exact execRdScratch_next h
  | wrScratch i v => exact execWrScratch_next h
  | rdReserved a => cases h; exact accessStep_reply s _
  | wrReserved a v => cases h; exact accessStep_reply s _
  | ticketRead k => cases hi
  | ticketCas k => cases hi
  | lockRead k => cases hi
  | statusRead k => cases hi
  | dataRead k => cases hi
  | dataWrite k => cases hi
  | statusWrite k => cases hi
  | lockRelease k => cases hi
  | busRead a p w e t => cases hi
  | busWrite a p w e t => cases hi
  | busCas a p w e t => cases hi

end Sys2Proof.Machine
end

