-- ==== Sys2Proof/Laws/Bus.lean ====
section
/-!
SUPPORT. What the word accesses of a whole transaction do to memory, said once for READ, WRITE and CAS (R85 to R87, R96).
-/
namespace Sys2Proof.Machine

/-- An address after an addition, inside the address space (R12, R95). -/
theorem addAddr_toNat (p : Params) (hp : p.paddrWidth ≤ 64) (a : Addr) (n : Nat) : (addAddr p a n).toNat = (a.toNat + n) % 2 ^ p.paddrWidth := by
  unfold addAddr
  rw [BitVec.toNat_ofNat]
  apply Nat.mod_eq_of_lt
  exact lt_of_lt_of_le (Nat.mod_lt _ (Nat.two_pow_pos _)) (Nat.pow_le_pow_right (by norm_num) hp)

/-- Byte i of word j of an access is byte 4j + i of the access (R81, R95). -/
theorem byteAddr_wordAddr (p : Params) (hp : p.paddrWidth ≤ 64) (a : Addr) (j i : Nat) : byteAddr p (wordAddr p a j) i = byteAddr p a (4 * j + i) := by
  unfold byteAddr wordAddr
  rw [addAddr_toNat p hp, Nat.mod_add_mod, Nat.add_assoc]

/-- A word write of an access leaves its other words alone. -/
theorem readWord_other (p : Params) (hp : p.Wf) (m : Memory) (hm : Memory.wf m) (a : Addr) (j k : Nat) (v : Word) (hj : j < 2 ^ 20) (hk : k < 2 ^ 20) (h : j ≠ k) :
    readWord p (writeWord p m (wordAddr p a j) v) (wordAddr p a k) = readWord p m (wordAddr p a k) := by
  apply readWord_writeWord_of_ne p m hm
  intro x hx y hy e
  rw [byteAddr_wordAddr p hp.2.2.2.1, byteAddr_wordAddr p hp.2.2.2.1] at e
  have := byteAddr_inj p hp.2.2.1 a _ _ (by omega) (by omega) e
  omega

/-- A word write of an access leaves every byte outside the access alone. -/
theorem readByte_other (p : Params) (hp : p.Wf) (m : Memory) (hm : Memory.wf m) (a : Addr) (j n : Nat) (v : Word) (hj : j < n) (b : Nat) (h : ¬InRange p a (4 * n) b) :
    readByte (writeWord p m (wordAddr p a j) v) b = readByte m b := by
  apply readByte_writeWord_of_ne p m hm
  intro i hi e
  apply h
  rw [byteAddr_wordAddr p hp.2.2.2.1] at e
  exact ⟨4 * j + i, by omega, e.symm⟩

/-- The word accesses js of a READ, in whatever order: memory as before, and each of the words noted (R85). -/
theorem performWords_read (p : Params) (m : Memory) (js : List Nat) (t : Txn) (ht : t.op = .read) (hn : js.Nodup)
    (htodo : ∀ j ∈ js, t.rdata[j]? = some none) :
    ∃ r, performWords p js (m, t) = (m, { t with rdata := r }) ∧ r.length = t.rdata.length ∧
      (∀ j ∈ js, r[j]? = some (some (readWord p m (wordAddr p t.addr j)))) ∧ ∀ j, j ∉ js → r[j]? = t.rdata[j]? := by
  induction js generalizing t with
  | nil => exact ⟨t.rdata, rfl, rfl, by simp, fun _ _ => rfl⟩
  | cons j js ih =>
    obtain ⟨hj, hn⟩ := List.nodup_cons.1 hn
    have h0 := htodo j (by simp)
    have hl := (List.getElem?_eq_some_iff.1 h0).1
    have hs : performWord p m t j = (m, { t with rdata := t.rdata.set j (some (readWord p m (wordAddr p t.addr j))) }) := by
      rw [performWord_todo p m h0]; simp [wordEffect, ht]
    obtain ⟨r, he, h1, h2, h3⟩ := ih { t with rdata := t.rdata.set j (some (readWord p m (wordAddr p t.addr j))) } ht hn (by
      intro k hk
      have hne : j ≠ k := fun e => hj (e ▸ hk)
      simpa [hne] using htodo k (by simp [hk]))
    refine ⟨r, by rw [performWords, hs]; exact he, by simpa using h1, ?_, ?_⟩
    · intro k hk
      rcases List.mem_cons.1 hk with rfl | hk
      · rw [h3 k hj]; simp [hl]
      · exact h2 k hk
    · intro k hk
      simp only [List.mem_cons, not_or] at hk
      rw [h3 k hk.2]; simp [Ne.symm hk.1]

/-- The word accesses js of a WRITE, in whatever order: each word as written unless the bus left it out, nothing else changed (R86, R96). -/
theorem performWords_write (p : Params) (hp : p.Wf) (js : List Nat) (n : Nat) (hjs : ∀ j ∈ js, j < n) (hs : n < 2 ^ 20) (hn : js.Nodup)
    (m : Memory) (t : Txn) (ht : t.op = .write) (htodo : ∀ j ∈ js, t.rdata[j]? = some none) (hm : Memory.wf m) :
    ∃ m' r, performWords p js (m, t) = (m', { t with rdata := r }) ∧ r.length = t.rdata.length ∧
      (∀ j ∈ js, ∃ w, r[j]? = some (some w)) ∧ (∀ j, j ∉ js → r[j]? = t.rdata[j]?) ∧ Memory.wf m' ∧
      (∀ j ∈ js, readWord p m' (wordAddr p t.addr j) =
        if t.dropped j then readWord p m (wordAddr p t.addr j) else t.wdata.getD j 0) ∧
      (∀ j, j < 2 ^ 20 → j ∉ js → readWord p m' (wordAddr p t.addr j) = readWord p m (wordAddr p t.addr j)) ∧
      ∀ b, ¬InRange p t.addr (4 * n) b → readByte m' b = readByte m b := by
  induction js generalizing t m with
  | nil => exact ⟨m, t.rdata, rfl, rfl, by simp, fun _ _ => rfl, hm, by simp, fun _ _ _ => rfl, fun _ _ => rfl⟩
  | cons j js ih =>
    obtain ⟨hj, hn⟩ := List.nodup_cons.1 hn
    have h0 := htodo j (by simp)
    have hl := (List.getElem?_eq_some_iff.1 h0).1
    have hjn := hjs j (by simp)
    obtain ⟨m1, w, hs1, hm1, hr1, hr2, hr3⟩ : ∃ m1 w, performWord p m t j = (m1, { t with rdata := t.rdata.set j (some w) }) ∧ Memory.wf m1 ∧
        (readWord p m1 (wordAddr p t.addr j) = if t.dropped j then readWord p m (wordAddr p t.addr j) else t.wdata.getD j 0) ∧
        (∀ k, k < 2 ^ 20 → k ≠ j → readWord p m1 (wordAddr p t.addr k) = readWord p m (wordAddr p t.addr k)) ∧
        (∀ b, ¬InRange p t.addr (4 * n) b → readByte m1 b = readByte m b) := by
      refine ⟨if t.dropped j then m else writeWord p m (wordAddr p t.addr j) (t.wdata.getD j 0), t.plan.fill.getD j 0, ?_, ?_, ?_, ?_, ?_⟩
      · rw [performWord_todo p m h0]; simp [wordEffect, ht]
      · split; exact hm; exact writeWord_wf _ _ hm _ _
      · split
        · rfl
        · exact readWord_writeWord p hp.2.2.1 m hm _ _
      · intro k hk hne
        split
        · rfl
        · exact readWord_other p hp m hm _ _ _ _ (by omega) hk (Ne.symm hne)
      · intro b hb
        split
        · rfl
        · exact readByte_other p hp m hm _ _ _ _ hjn b hb
    obtain ⟨m', r, he, hlen, ha, hb, hm', hc, hd, hf⟩ := ih (fun k hk => hjs k (by simp [hk])) hn m1 { t with rdata := t.rdata.set j (some w) } ht (by
      intro k hk
      have hne : j ≠ k := fun e => hj (e ▸ hk)
      simpa [hne] using htodo k (by simp [hk])) hm1
    have hdr : ∀ r k, ({ t with rdata := r } : Txn).dropped k = t.dropped k := fun r k => rfl
    simp only [hdr] at hc
    refine ⟨m', r, by rw [performWords, hs1]; exact he, by simpa using hlen, ?_, ?_, hm', ?_, ?_, fun b hb' => by rw [hf b hb', hr3 b hb']⟩
    · intro k hk
      rcases List.mem_cons.1 hk with rfl | hk
      · exact ⟨w, by rw [hb k hj]; simp [hl]⟩
      · exact ha k hk
    · intro k hk
      simp only [List.mem_cons, not_or] at hk
      rw [hb k hk.2]; simp [Ne.symm hk.1]
    · intro k hk
      rcases List.mem_cons.1 hk with rfl | hk
      · rw [hd k (by omega) hj, hr1]
      · have hne : k ≠ j := fun e => hj (e ▸ hk)
        have hkn := hjs k (by simp [hk])
        rw [hc k hk, hr2 k (by omega) hne]
    · intro k hk hkj
      simp only [List.mem_cons, not_or] at hkj
      rw [hd k hk hkj.2, hr2 k hk hkj.1]

/-- The word access of a CAS: the swap of R87, unless it reports an error and the bus left the swap out (R87, R96). -/
theorem performWords_cas (p : Params) (m : Memory) (t : Txn) (ht : t.op = .cas) (hl : t.rdata = [none]) :
    performWords p (List.range t.words) (m, t) = (if t.dropped 0 then m else (memCas p m (wordAddr p t.addr 0) (t.wdata.getD 0 0) (t.wdata.getD 1 0)).1,
     { t with rdata := [some (if (memCas p m (wordAddr p t.addr 0) (t.wdata.getD 0 0) (t.wdata.getD 1 0)).2 then 0 else failureCode (t.plan.fill.getD 0 0))] }) := by
  have hw : t.words = 1 := by simp [Txn.words, opWords, ht]
  rw [hw, List.range_one]
  simp only [performWords]
  rw [performWord_todo p m (j := 0) (by simp [hl])]
  simp [wordEffect, ht, hl]

/-- A list of words all noted is the list of its words. -/
theorem noted_words {r : List (Option Word)} {n : Nat} (hl : r.length = n) (h : ∀ j < n, ∃ w, r[j]? = some (some w)) :
    ∃ ws : List Word, r = ws.map some ∧ ws.length = n := by
  refine ⟨r.map fun w => w.getD 0, ?_, by simpa using hl⟩
  apply List.ext_getElem?
  intro j
  by_cases hj : j < n
  · obtain ⟨w, hw⟩ := h j hj
    simp [hw]
  · simp [List.getElem?_eq_none, hl, Nat.le_of_not_lt hj]

/-- MemWrite from word l on: the words as given, in order, and nothing else changed (R86). -/
theorem memWriteFrom_spec (p : Params) (hp : p.Wf) (a : Addr) (vs : List Word) (m : Memory) (hm : Memory.wf m) (l : Nat) (hl : l + vs.length < 2 ^ 20) :
    Memory.wf (memWriteFrom p m a l vs) ∧
    (∀ j v, vs[j]? = some v → readWord p (memWriteFrom p m a l vs) (wordAddr p a (l + j)) = v) ∧
    (∀ j < l, readWord p (memWriteFrom p m a l vs) (wordAddr p a j) = readWord p m (wordAddr p a j)) ∧
    ∀ n, l + vs.length ≤ n → ∀ b, ¬InRange p a (4 * n) b → readByte (memWriteFrom p m a l vs) b = readByte m b := by
  induction vs generalizing m l with
  | nil => exact ⟨hm, by simp, fun _ _ => rfl, fun _ _ _ _ => rfl⟩
  | cons v vs ih =>
    simp only [List.length_cons] at hl
    obtain ⟨h1, h2, h3, h4⟩ := ih (writeWord p m (wordAddr p a l) v) (writeWord_wf _ _ hm _ _) (l + 1) (by omega)
    refine ⟨h1, ?_, ?_, ?_⟩
    · intro j x hx
      cases j with
      | zero =>
        simp at hx; subst hx
        show readWord p (memWriteFrom _ _ _ (l + 1) vs) _ = _
        rw [show l + 0 = l from rfl, h3 l (by omega), readWord_writeWord p hp.2.2.1 m hm]
      | succ j =>
        have := h2 j x (by simpa using hx)
        rw [← this, show l + 1 + j = l + (j + 1) by omega]; rfl
    · intro j hj
      show readWord p (memWriteFrom _ _ _ (l + 1) vs) _ = _
      rw [h3 j (by omega), readWord_other p hp m hm _ _ _ _ (by omega) (by omega) (by omega)]
    · intro n hn b hb
      simp only [List.length_cons] at hn
      show readByte (memWriteFrom _ _ _ (l + 1) vs) _ = _
      rw [h4 n (by omega) b hb, readByte_other p hp m hm a l n v (by omega) b hb]

end Sys2Proof.Machine
end

