-- ==== Sys2Proof/Laws/Channel.lean ====
section
/-!
SUPPORT. What one channel's part of a tick can do, said once: the arms of chan_step (R200), the consume rules (R207), and the port's word.
-/
namespace Sys2Proof.Machine

/-- A burst consumed by a channel that was running moves its offset on (R242). -/
theorem consumeBulk_offset {p : Params} {c0 c : Channel} (h : c0.regs.running = true) :
    (consumeBulk p c0 c).offset = BitVec.ofNat 32 (c0.offset.toNat + p.burstBytes) := by simp [consumeBulk, h]

/-- An index after a burst, of a queue that has words (R272). -/
theorem nextIndex_toNat (p : Params) (c0 : Channel) (i : Word) (h : capWords c0 ≠ 0) :
    (nextIndex p c0 i).toNat = (i.toNat + p.burstWords) % capWords c0 := by
  have hc : capWords c0 < 2 ^ 32 := lt_of_le_of_lt (Nat.div_le_self _ _) c0.regs.size.isLt
  unfold nextIndex
  rw [if_neg h, BitVec.toNat_ofNat, Nat.mod_eq_of_lt (lt_trans (Nat.mod_lt _ (Nat.pos_of_ne_zero h)) hc)]

/-- The nine things chan_step can do (R200 to R214). -/
inductive FsmMove (p : Params) (d : Direction) (x : PortIn) (c0 c : Channel) : Channel → Prop where
  /-- R207. -/
  | consumed (t : ReqType) : postedRequest d c0.state = some t → c0.rspReady = true → descriptorFault p c0 = false →
      FsmMove p d x c0 c (consume p d c0 c)
  /-- R269. -/
  | barred (t : ReqType) : postedRequest d c0.state = some t → c0.rspReady = true → descriptorFault p c0 = true → FsmMove p d x c0 c c
  /-- R210, or a closed gate (R205). -/
  | stayed (t : ReqType) : postedRequest d c0.state = some t → c0.rspReady = false → FsmMove p d x c0 c c
  /-- R240, R271. -/
  | skipped (t : ReqType) (q : FsmState) : postedRequest d c0.state = some t → c0.rspReady = false → c0.reqValid = false →
      c0.reqIssued = false → prePost c0 = some q → FsmMove p d x c0 c { c with state := q }
  /-- R206. -/
  | posted (t : ReqType) : postedRequest d c0.state = some t → c0.rspReady = false → c0.reqValid = false → c0.reqIssued = false →
      prePost c0 = none → postGate p d c0 = true → FsmMove p d x c0 c (post t c)
  /-- R201. -/
  | taken : c0.state = .idle → c0.regs.running = true → x.req = true →
      FsmMove p d x c0 c { c with remaining := truncCount p x.burstCount, state := .ack }
  /-- R214. -/
  | rested : c0.state = .idle → (c0.regs.running && x.req) = false → FsmMove p d x c0 c c
  /-- R202. -/
  | acked : c0.state = .ack → FsmMove p d x c0 c (ackArm c0 c)
  /-- R212, R213. -/
  | parked : c0.state.isTerminal = true → FsmMove p d x c0 c (leaveTerminal c0.regs.running c)

/-- A state that posts a request is one of the eight bus states, never a resting one. -/
theorem postedRequest_isTerminal {d : Direction} {q : FsmState} {t : ReqType} (h : postedRequest d q = some t) :
    q.isTerminal = false := by
  cases q <;> simp_all [postedRequest, FsmState.isTerminal, FsmState.isError]

theorem postedRequest_of_isTerminal (d : Direction) {q : FsmState} (h : q.isTerminal = true) : postedRequest d q = none := by
  cases q <;> simp_all [postedRequest, FsmState.isTerminal, FsmState.isError]

/-- A state that posts nothing is IDLE, ACK or terminal. -/
theorem isTerminal_of_postedRequest {d : Direction} {q : FsmState} (h : postedRequest d q = none) (h1 : ¬q = .idle) (h2 : ¬q = .ack) :
    q.isTerminal = true := by
  cases q <;> first | rfl | exact absurd rfl h1 | exact absurd rfl h2 | exact nomatch h

theorem chanStep_move (p : Params) (d : Direction) (x : PortIn) (c0 c : Channel) : FsmMove p d x c0 c (chanStep p d x c0 c) := by
  unfold chanStep
  split
  · rename_i t ht
    unfold busArm
    split
    · split
      · exact .barred t ht ‹_› ‹_›
      · exact .consumed t ht ‹_› (by simpa using ‹¬descriptorFault p c0 = true›)
    · have hr : c0.rspReady = false := by simpa using ‹¬c0.rspReady = true›
      split
      · exact .stayed t ht hr
      · rename_i hvi
        obtain ⟨hv, hi⟩ : c0.reqValid = false ∧ c0.reqIssued = false := by simpa using hvi
        split
        · exact .skipped t _ ht hr hv hi ‹_›
        · split
          · exact .posted t ht hr hv hi ‹_› ‹_›
          · exact .stayed t ht hr
  · rename_i ht
    split
    · unfold idleArm
      split
      · rename_i hs h
        obtain ⟨h1, h2⟩ : c0.regs.running = true ∧ x.req = true := by simpa using h
        exact .taken hs h1 h2
      · exact .rested ‹_› (Bool.eq_false_iff.2 ‹_›)
    · exact .acked ‹_›
    · exact .parked (isTerminal_of_postedRequest ht ‹_› ‹_›)

/-- The states posting a request are the states a response has a shape for (R342). -/
theorem rspShape_isSome (p : Params) (d : Direction) (q : FsmState) : (rspShape p d q).isSome = (postedRequest d q).isSome := by
  cases q <;> rfl

/-- The fields a consumed response without an error leaves alone. -/
theorem consumeOk_frame (p : Params) (d : Direction) (c0 c : Channel) :
    (consumeOk p d c0 c).regs = c.regs ∧ (consumeOk p d c0 c).fifo = c.fifo ∧ (consumeOk p d c0 c).reqValid = c.reqValid ∧
      (consumeOk p d c0 c).reqIssued = c.reqIssued ∧ (consumeOk p d c0 c).reqType = c.reqType ∧
      (consumeOk p d c0 c).rspReady = c.rspReady ∧ (consumeOk p d c0 c).rspErr = c.rspErr := by
  unfold consumeOk
  split <;> exact ⟨rfl, rfl, rfl, rfl, rfl, rfl, rfl⟩

/-- The fields consuming a response leaves alone (R207). -/
theorem consume_frame (p : Params) (d : Direction) (c0 c : Channel) :
    (consume p d c0 c).regs = c.regs ∧ (consume p d c0 c).fifo = c.fifo ∧ (consume p d c0 c).reqValid = c.reqValid ∧
      (consume p d c0 c).reqIssued = c.reqIssued ∧ (consume p d c0 c).reqType = c.reqType ∧
      (consume p d c0 c).rspReady = false := by
  unfold consume
  dsimp only
  split
  · exact ⟨rfl, rfl, rfl, rfl, rfl, rfl⟩
  · obtain ⟨h1, h2, h3, h4, h5, h6, -⟩ := consumeOk_frame p d c0 { c with rspReady := false }
    exact ⟨h1, h2, h3, h4, h5, h6⟩

/-- chan_step writes no configuration register and moves no FIFO word (R200, R217). -/
theorem chanStep_regs (p : Params) (d : Direction) (x : PortIn) (c0 c : Channel) : (chanStep p d x c0 c).regs = c.regs := by
  have m := chanStep_move p d x c0 c
  generalize chanStep p d x c0 c = c' at m
  cases m with
  | consumed t => exact (consume_frame p d c0 c).1
  | parked => unfold leaveTerminal; split <;> rfl
  | _ => rfl

theorem chanStep_fifo (p : Params) (d : Direction) (x : PortIn) (c0 c : Channel) : (chanStep p d x c0 c).fifo = c.fifo := by
  have m := chanStep_move p d x c0 c
  generalize chanStep p d x c0 c = c' at m
  cases m with
  | consumed t => exact (consume_frame p d c0 c).2.1
  | parked => unfold leaveTerminal; split <;> rfl
  | _ => rfl

/-- The port's word of the tick moves the FIFO only (R374, R375). -/
theorem portStep_eq (p : Params) (d : Direction) (x : PortIn) (c0 c : Channel) :
    ∃ q, portStep p d x c0 c = { c with fifo := q } ∧ (q.length ≤ c.fifo.length ∨ (q.length = c.fifo.length + 1 ∧ c.fifo.length < p.fifoDepth)) := by
  unfold portStep
  split
  · split
    · exact ⟨_, rfl, .inl (by simp)⟩
    · exact ⟨c.fifo, rfl, .inl le_rfl⟩
  · split
    · rename_i h
      refine ⟨_, rfl, .inr ⟨by simp, ?_⟩⟩
      have : portWready p c.fifo = true := (Bool.and_eq_true_iff.1 h).2
      simpa [portWready] using this
    · exact ⟨c.fifo, rfl, .inl le_rfl⟩

end Sys2Proof.Machine
end

