-- ==== Sys2Proof/Laws/Step.lean ====
section
/-!
SUPPORT. What one tick can do, said once: the phases of a tick that answers a next state (step_phases), what each does to the state, and what the
tick does to one channel (step_chan) and to everything else (step_frame).
-/
namespace Sys2Proof.Machine

/-- A tick that answers a next state began with the machine not stuck, and did so in each of its phases. -/
theorem step_phases {s t : State} (h : step s = .next t) :
    stuckIn s = none ∧ ∃ s1 s2 s3, sendPhase s = .next s1 ∧ commandPhase s1 = .next s2 ∧ accessPhase s2 = .next s3 ∧
      t = agentsPhase s s3 := by
  unfold step tick at h
  split at h
  · cases h
  · obtain ⟨s1, h1, h⟩ := andThen_next h
    obtain ⟨s2, h2, h⟩ := andThen_next h
    obtain ⟨s3, h3, h⟩ := andThen_next h
    exact ⟨‹_›, s1, s2, s3, h1, h2, h3, by cases h; rfl⟩

/-! ### The generator's sending step -/

/-- The instruction of a request type's code is that request (R130). -/
theorem exec_requestOfCode (t : ReqType) (k : Nat) (s : State) : exec (requestOfCode t.code k) s = sendFlit t k s := by
  cases t <;> rfl

/-- What the sending step does: nothing, or a flit of the request of the channel served (R302). -/
theorem sendPhase_next {s s' : State} (h : sendPhase s = .next s') :
    (s.gen.busy = false ∧ s' = s) ∨
      (s.gen.busy = true ∧ ∃ c, s.chans[s.gen.ch]? = some c ∧ sendFlit c.reqType s.gen.ch s = .next s') := by
  unfold sendPhase fetchRequest at h
  by_cases hb : s.gen.busy = true
  · right
    refine ⟨hb, ?_⟩
    simp only [hb, if_true] at h
    unfold runRaw decode at h
    by_cases hk : s.gen.ch < s.params.nChannels
    · simp only [hk, if_true] at h
      cases hc : s.chans[s.gen.ch]? with
      | none =>
        rw [hc] at h
        obtain ⟨c, hc', -⟩ := withChan_next (f := _) (show withChan s s.gen.ch _ = .next s' from h)
        simp [hc] at hc'
      | some c =>
        rw [hc] at h
        exact ⟨c, rfl, by rw [← exec_requestOfCode]; exact h⟩
    · simp [hk] at h
  · simp only [hb] at h
    exact .inl ⟨by simpa using hb, by cases h; rfl⟩

/-- The generator popped the head of channel k's FIFO in this tick (R302, R309). -/
def GenPopped (s : State) (k : Nat) (c : Channel) : Prop :=
  s.gen.busy = true ∧ s.gen.ch = k ∧ c.reqType = .dataWrite ∧ c.fifo ≠ [] ∧ cmdReady s = true

/-- What the sending step leaves alone, and what it does to each channel. -/
structure SendStep (s t : State) : Prop where
  frame : ∃ cs w g fs, t = { s with chans := cs, gen := g, faults := fs, bus := { s.bus with wire := w } }
  grow : FaultsGrow s t
  idle : s.gen.busy = false → t = s
  genCh : t.gen.ch = s.gen.ch
  rrLast : t.gen.rrLast = s.gen.rrLast
  chansLen : t.chans.length = s.chans.length
  chan : ∀ (k : Nat) (c : Channel), s.chans[k]? = some c →
    t.chans[k]? = some c ∨ (GenPopped s k c ∧ t.chans[k]? = some { c with fifo := c.fifo.tail })
  popped : ∀ (k : Nat) (c : Channel), s.chans[k]? = some c → GenPopped s k c → t.chans[k]? = some { c with fifo := c.fifo.tail }

theorem sendPhase_step {s t : State} (h : sendPhase s = .next t) : SendStep s t := by
  have self : (∀ k c, s.chans[k]? = some c → ¬GenPopped s k c) → SendStep s s := fun hn =>
    ⟨⟨s.chans, s.bus.wire, s.gen, s.faults, rfl⟩, .refl s, fun _ => rfl, rfl, rfl, rfl, fun _ _ hc => .inl hc, fun k c hc hp => absurd hp (hn k c hc)⟩
  rcases sendPhase_next h with ⟨hb, rfl⟩ | ⟨hb, c, hc, h⟩
  · exact self fun _ _ _ ⟨h, _⟩ => by simp [hb] at h
  have same : ∀ {k d}, s.chans[k]? = some d → GenPopped s k d → d = c := by
    rintro k d hd ⟨-, rfl, -⟩
    exact Option.some.inj (hd.symm.trans hc)
  obtain ⟨c', hc', ⟨-, he, rfl⟩ | ⟨-, hr, rfl⟩ | ⟨hne, hr, rfl⟩⟩ := sendFlit_next h <;> (obtain rfl : c = c' := by simpa [hc] using hc')
  · exact ⟨⟨s.chans, s.bus.wire, s.gen, _, rfl⟩, .record s _, fun h => by simp [hb] at h, rfl, rfl, rfl, fun _ _ hc => .inl hc,
      fun k d hd hp => absurd (same hd hp ▸ he) hp.2.2.2.1⟩
  · exact self fun _ _ _ ⟨_, _, _, _, h⟩ => by simp [hr] at h
  have hg : ∀ n, (genAfterFlit n s.gen).ch = s.gen.ch ∧ (genAfterFlit n s.gen).rrLast = s.gen.rrLast := by
    intro n; unfold genAfterFlit; split <;> exact ⟨rfl, rfl⟩
  refine ⟨⟨_, _, _, s.faults, rfl⟩, .of_eq rfl, fun h => by simp [hb] at h, (hg _).1, (hg _).2, ?_, ?_, ?_⟩
  · dsimp only; split <;> simp
  · intro k d hd
    dsimp only
    split
    · rename_i ht
      by_cases hk : s.gen.ch = k
      · subst hk
        obtain rfl : c = d := by simpa [hc] using hd
        have hl := (List.getElem?_eq_some_iff.1 hc).1
        exact .inr ⟨⟨hb, rfl, ht, fun hf => hne ⟨ht, hf⟩, hr⟩, by simp [hl]⟩
      · exact .inl (by simp [hk, hd])
    · exact .inl hd
  · intro k d hd hp
    obtain rfl := same hd hp
    obtain ⟨-, rfl, ht, -⟩ := hp
    have hl := (List.getElem?_eq_some_iff.1 hd).1
    simp [ht, hl]

/-! ### The bus's taking of a command -/

/-- Taking the command flit on the wire changes the bus and memory only. -/
theorem commandPhase_next {s t : State} (h : commandPhase s = .next t) :
    ∃ m b, t = { s with mem := m, bus := b } ∧
      (Memory.wf s.mem → Memory.wf m) ∧ (Memory.inSpace s.params s.mem → Memory.inSpace s.params m) := by
  unfold commandPhase fetchCommand at h
  cases hw : s.bus.wire with
  | none =>
    rw [hw] at h
    cases h
    exact ⟨s.mem, s.bus, rfl, id, id⟩
  | some f =>
    rw [hw] at h
    simp only [Option.map_some] at h
    unfold runRaw decode decodeFlit at h
    dsimp only at h
    split at h
    · rename_i i hi
      split at hi
      · have key : ∀ op, takeCommand op f.addr f.plen f.wdata f.eop f.tag { s with bus := { s.bus with wire := none } } = .next t →
            ∃ m b, t = { s with mem := m, bus := b } ∧
              (Memory.wf s.mem → Memory.wf m) ∧ (Memory.inSpace s.params s.mem → Memory.inSpace s.params m) := by
          intro op h
          obtain ⟨m, as, ts, rfl, h1, h2⟩ := takeCommand_next h
          exact ⟨m, _, rfl, h1, h2⟩
        split at hi
        · cases hi; exact key _ h
        · cases hi; exact key _ h
        · cases hi; exact key _ h
        · cases hi
      · cases hi
    · cases h
    · cases h

/-! ### The configuration access -/

theorem rdChannelRegister_format (k n : Nat) (i : Instr) (h : rdChannelRegister k n = some i) : i.format = .cfg := by
  unfold rdChannelRegister at h
  split at h <;> cases h <;> rfl

theorem wrChannelRegister_format (k n : Nat) (v : Word) (i : Instr) (h : wrChannelRegister k v n = some i) : i.format = .cfg := by
  unfold wrChannelRegister at h
  split at h <;> cases h <;> rfl

/-- Whatever stands on the configuration interface decodes to a register access (R126, R129). -/
theorem decode_cfg (p : Params) (w : BitVec 16) (v : Word) :
    ∃ i, decode p (.cfg w v) = .ok i ∧ i.format = .cfg := by
  refine ⟨_, rfl, ?_⟩
  split
  · unfold decodeWrite
    split
    · rfl
    · split
      · cases hr : wrChannelRegister (wordBlock w) v (wordIndex w) with
        | none => rfl
        | some i => exact wrChannelRegister_format _ _ _ _ hr
      · split <;> rfl
  · unfold decodeRead
    split
    · rfl
    · split
      · cases hr : rdChannelRegister (wordBlock w) (wordIndex w) with
        | none => rfl
        | some i => exact rdChannelRegister_format _ _ _ hr
      · split <;> rfl

theorem accessPhase_next {s t : State} (h : accessPhase s = .next t) : AccessStep s t := by
  unfold accessPhase fetchAccess at h
  cases ha : s.input.cfg with
  | none =>
    rw [ha] at h
    cases h
    exact accessStep_reply s _
  | some a =>
    rw [ha] at h
    obtain ⟨i, hi, hf⟩ := decode_cfg s.params a.word a.wdata
    simp only [Option.map_some, runRaw, hi] at h
    exact exec_access hf h

/-! ### The demultiplexer -/

/-- What the demultiplexer does to channel k, whose record is c0 at the start of the tick and c when the flit is taken (R341 to R347): flit i of a group
of n, of the kind the channel's state gives. first is for a group's first flit. -/
def DmxMove (s : State) (k : Nat) (c0 c c' : Channel) : Prop :=
  ∃ f i n m kind e c1, s.bus.rsp = some f ∧ f.rtag = k ∧ rspShape s.params (s.params.dir k) c0.state = some (m, kind) ∧
    ((s.dmx.busy = false ∧ c0.rspReady = false ∧ c0.reqIssued = true ∧ i = 0 ∧ n = m ∧ e = f.rerror) ∨
     (s.dmx.busy = true ∧ s.dmx.ch = k ∧ i = s.dmx.cnt.toNat ∧ n = s.dmx.need.toNat ∧ e = (s.dmx.err || f.rerror))) ∧
    processFlit s.params kind i f.rdata c = some c1 ∧ c' = if i + 1 = n then completeChan e c1 else c1

/-- What the demultiplexer's step leaves alone, and what it does to each channel. s0 is the state at the start of the tick. -/
structure DmxStep (s0 s t : State) : Prop where
  frame : ∃ cs d r fs, t = { s with chans := cs, dmx := d, faults := fs, bus := { s.bus with rsp := r } }
  grow : FaultsGrow s t
  chansLen : t.chans.length = s.chans.length
  dmx : (t.dmx = s0.dmx ∧ t.chans = s.chans) ∨
    (∃ k c0 c c', s0.chans[k]? = some c0 ∧ s.chans[k]? = some c ∧ t.chans = s.chans.set k c' ∧ DmxMove s0 k c0 c c' ∧
      (t.dmx.busy = true → t.dmx.ch = k ∧ c'.reqIssued = c.reqIssued ∧ c'.rspReady = c.rspReady) ∧
      (t.dmx.ch = k ∨ t.dmx.ch = s0.dmx.ch))

theorem processFlit_some {p : Params} {kind : RspKind} {i : Nat} {w : Word} {c c' : Channel} (h : processFlit p kind i w c = some c') :
    ∃ d0 d1 d2 fifo, c' = { c with rspData0 := d0, rspData1 := d1, rspData2 := d2, fifo := fifo } ∧
      (fifo = c.fifo ∨ (kind = .dataIn ∧ c.fifo.length < p.fifoDepth ∧ fifo = c.fifo ++ [w])) := by
  unfold processFlit at h
  split at h
  · cases h
    unfold setRspData
    split
    · exact ⟨w, c.rspData1, c.rspData2, c.fifo, rfl, .inl rfl⟩
    · exact ⟨c.rspData0, w, c.rspData2, c.fifo, rfl, .inl rfl⟩
    · exact ⟨c.rspData0, c.rspData1, w, c.fifo, rfl, .inl rfl⟩
    · exact ⟨c.rspData0, c.rspData1, c.rspData2, c.fifo, rfl, .inl rfl⟩
  · split at h
    · cases h
    · cases h
      exact ⟨c.rspData0, c.rspData1, c.rspData2, _, rfl, .inr ⟨rfl, by omega, rfl⟩⟩
  · cases h
    exact ⟨c.rspData0, c.rspData1, c.rspData2, c.fifo, rfl, .inl rfl⟩

/-- What taking a flit does: a fault recorded and nothing else, or the flit taken. -/
theorem takeRsp_cases (k i n : Nat) (kind : RspKind) (e : Bool) (d : Dmx) (f : RspFlit) (s : State) :
    (∃ g, takeRsp k i n kind e d f s = s.recordFault g) ∨
    ∃ c c1, s.chans[k]? = some c ∧ processFlit s.params kind i f.rdata c = some c1 ∧
      takeRsp k i n kind e d f s = { s with
        bus := { s.bus with rsp := none }
        dmx := if i + 1 = n then { d with busy := false, err := e } else { d with cnt := BitVec.ofNat 16 (i + 1), err := e }
        chans := s.chans.set k (if i + 1 = n then completeChan e c1 else c1) } := by
  unfold takeRsp
  split
  · exact .inl ⟨_, rfl⟩
  · split
    · exact .inl ⟨_, rfl⟩
    · rename_i c hc _ c1 hp
      refine .inr ⟨c, c1, hc, hp, ?_⟩
      by_cases hl : i + 1 = n <;> simp [hl]

/-- Taking a flit that can be processed (R341, R344 to R347). -/
theorem takeRsp_ok {k i n : Nat} {kind : RspKind} {e : Bool} {d : Dmx} {f : RspFlit} {s : State} {c c1 : Channel} (hc : s.chans[k]? = some c) (hp : processFlit s.params kind i f.rdata c = some c1) :
    takeRsp k i n kind e d f s = { s with
        bus := { s.bus with rsp := none }
        dmx := if i + 1 = n then { d with busy := false, err := e } else { d with cnt := BitVec.ofNat 16 (i + 1), err := e }
        chans := s.chans.set k (if i + 1 = n then completeChan e c1 else c1) } := by
  unfold takeRsp
  rw [hc]; simp only [hp]
  by_cases hl : i + 1 = n <;> simp [hl]

/-- Every flit but a data word for a full FIFO can be processed (R344, R345). -/
theorem processFlit_ok {p : Params} {kind : RspKind} {i : Nat} {w : Word} {c : Channel} (h : kind = .dataIn → c.fifo.length < p.fifoDepth) : ∃ c1, processFlit p kind i w c = some c1 := by
  cases kind with
  | word => exact ⟨_, rfl⟩
  | dataOut => exact ⟨_, rfl⟩
  | dataIn => refine ⟨{ c with fifo := c.fifo ++ [w] }, ?_⟩; unfold processFlit; simp [Nat.not_le.2 (h rfl)]

/-- The demultiplexer's step, whose state s differs from the start of the tick s0 in neither parameters nor its own record. -/
theorem dmxPhase_step {s0 s : State} (hp : s.params = s0.params) (hd : s.dmx = s0.dmx) : DmxStep s0 s (dmxPhase s0 s) := by
  have self : DmxStep s0 s s := ⟨⟨s.chans, s.dmx, s.bus.rsp, s.faults, rfl⟩, .refl s, rfl, .inl ⟨hd, rfl⟩⟩
  have fault : ∀ g, DmxStep s0 s (s.recordFault g) := fun g =>
    ⟨⟨s.chans, s.dmx, s.bus.rsp, _, rfl⟩, .record s g, rfl, .inl ⟨hd, rfl⟩⟩
  unfold dmxPhase
  split
  · exact self
  · rename_i f hf
    split
    · rename_i hbusy
      unfold laterFlit
      split
      · rename_i hk
        split
        · exact fault _
        · rename_i c0 hc0
          split
          · exact fault _
          · rename_i m kind hs
            obtain ⟨g, he⟩ | ⟨c, c1, hc, hpf, he⟩ := takeRsp_cases s0.dmx.ch s0.dmx.cnt.toNat s0.dmx.need.toNat kind (s0.dmx.err || f.rerror) s0.dmx f s
            · rw [he]; exact fault g
            rw [he]
            refine ⟨⟨_, _, _, s.faults, rfl⟩, .of_eq rfl, by simp, .inr ⟨s0.dmx.ch, c0, c, _, hc0, hc, rfl, ?_, ?_, ?_⟩⟩
            · exact ⟨f, _, _, m, kind, _, c1, hf, hk, hs, .inr ⟨hbusy, rfl, rfl, rfl, rfl⟩, hp ▸ hpf, rfl⟩
            · dsimp only
              split
              · intro hx; cases hx
              · intro _
                obtain ⟨_, _, _, _, rfl, -⟩ := processFlit_some hpf
                exact ⟨rfl, rfl, rfl⟩
            · dsimp only; split <;> exact .inl rfl
      · exact fault _
    · rename_i hbusy
      unfold firstFlit
      split
      · exact fault _
      · rename_i c0 hc0
        split
        · exact self
        · rename_i hrdy
          split
          · rename_i hiss
            split
            · exact fault _
            · rename_i m kind hs
              obtain ⟨g, he⟩ | ⟨c, c1, hc, hpf, he⟩ := takeRsp_cases f.rtag 0 m kind f.rerror
                (if m = 1 then s0.dmx else ⟨true, f.rtag, 1, BitVec.ofNat 16 m, f.rerror⟩) f s
              · rw [he]; exact fault g
              rw [he]
              refine ⟨⟨_, _, _, s.faults, rfl⟩, .of_eq rfl, by simp, .inr ⟨f.rtag, c0, c, _, hc0, hc, rfl, ?_, ?_, ?_⟩⟩
              · exact ⟨f, 0, m, m, kind, _, c1, hf, rfl, hs,
                  .inl ⟨by simpa using hbusy, by simpa using hrdy, hiss, rfl, rfl, rfl⟩, hp ▸ hpf, rfl⟩
              · dsimp only
                split
                · intro hx; cases hx
                · rename_i hm
                  intro _
                  obtain ⟨_, _, _, _, rfl, -⟩ := processFlit_some hpf
                  have : m ≠ 1 := by omega
                  exact ⟨by simp [this], rfl, rfl⟩
              · dsimp only
                split
                · dsimp only; split
                  · exact .inr rfl
                  · exact .inl rfl
                · dsimp only; split
                  · exact .inr rfl
                  · exact .inl rfl
          · exact fault _

/-! ### A whole tick -/

/-- What a tick does to channel k: c0 at its start, c' at its end. c1 is after the generator's pop, c2 after the access, c3 after the port's word, c4 after the
arbiter, c5 after the demultiplexer. -/
structure ChanTick (s t : State) (k : Nat) (c0 c1 c2 c3 c4 c5 c' : Channel) : Prop where
  send : c1 = c0 ∨ (GenPopped s k c0 ∧ c1 = { c0 with fifo := c0.fifo.tail })
  popped : GenPopped s k c0 → c1 = { c0 with fifo := c0.fifo.tail }
  access : AccessMove s.params (t.faults = [] → stopIsSafe c0.state (s.port k).req = true) c1 c2
  port : c3 = portStep s.params (s.params.dir k) (s.port k) c0 c2
  arb : c4 = c3 ∨ (s.gen.busy = false ∧ selected s = some k ∧ c4 = issueRequest c3)
  arbSelects : s.gen.busy = false → selected s = some k → c4 = issueRequest c3
  dmx : c5 = c4 ∨ DmxMove s k c0 c4 c5
  dmxBusy : t.dmx.busy = true → t.dmx.ch = k → c5.reqIssued = c4.reqIssued ∧ c5.rspReady = c4.rspReady
  sound : t.faults = [] → descriptorFault s.params c0 = false
  fsm : c' = chanStep s.params (s.params.dir k) (s.port k) c0 c5

/-- What a tick does to everything but the channels. -/
structure TickFrame (s t : State) : Prop where
  params : t.params = s.params
  chansLen : t.chans.length = s.chans.length
  scratchLen : t.scratch.length = s.scratch.length
  env : t.env = s.env.tail
  faultsKept : ∀ f ∈ s.faults, f ∈ t.faults
  faultsOnce : s.faults.Nodup → t.faults.Nodup
  memWf : Memory.wf s.mem → Memory.wf t.mem
  memIn : Memory.inSpace s.params s.mem → Memory.inSpace s.params t.mem
  genCh : t.gen.ch = s.gen.ch ∨ selected s = some t.gen.ch
  rrLast : t.gen.rrLast = s.gen.rrLast ∨ (s.gen.busy = false ∧ selected s = some t.gen.rrLast)
  dmxCh : t.dmx.ch = s.dmx.ch ∨ ∃ c, s.chans[t.dmx.ch]? = some c

theorem selected_posted {s : State} {k : Nat} (h : selected s = some k) : ∃ c, s.chans[k]? = some c ∧ c.reqValid = true := by
  have := List.find?_some h
  unfold hasPosted at this
  split at this
  · exact ⟨_, ‹_›, this⟩
  · cases this

/-! ### The fields each part leaves alone -/

namespace SendStep
variable {s t : State} (h : SendStep s t)
include h
theorem params : t.params = s.params := by obtain ⟨_, _, _, _, rfl⟩ := h.frame; rfl
theorem scratch : t.scratch = s.scratch := by obtain ⟨_, _, _, _, rfl⟩ := h.frame; rfl
theorem dmx : t.dmx = s.dmx := by obtain ⟨_, _, _, _, rfl⟩ := h.frame; rfl
theorem mem : t.mem = s.mem := by obtain ⟨_, _, _, _, rfl⟩ := h.frame; rfl
theorem env : t.env = s.env := by obtain ⟨_, _, _, _, rfl⟩ := h.frame; rfl
theorem held : t.held = s.held := by obtain ⟨_, _, _, _, rfl⟩ := h.frame; rfl
end SendStep

namespace AccessStep
variable {s t : State} (h : AccessStep s t)
include h
theorem params : t.params = s.params := by obtain ⟨_, _, _, _, rfl⟩ := h.frame; rfl
theorem gen : t.gen = s.gen := by obtain ⟨_, _, _, _, rfl⟩ := h.frame; rfl
theorem dmx : t.dmx = s.dmx := by obtain ⟨_, _, _, _, rfl⟩ := h.frame; rfl
theorem mem : t.mem = s.mem := by obtain ⟨_, _, _, _, rfl⟩ := h.frame; rfl
theorem bus : t.bus = s.bus := by obtain ⟨_, _, _, _, rfl⟩ := h.frame; rfl
theorem env : t.env = s.env := by obtain ⟨_, _, _, _, rfl⟩ := h.frame; rfl
theorem held : t.held = s.held := by obtain ⟨_, _, _, _, rfl⟩ := h.frame; rfl
end AccessStep

namespace DmxStep
variable {s0 s t : State} (h : DmxStep s0 s t)
include h
theorem params : t.params = s.params := by obtain ⟨_, _, _, _, rfl⟩ := h.frame; rfl
theorem scratch : t.scratch = s.scratch := by obtain ⟨_, _, _, _, rfl⟩ := h.frame; rfl
theorem gen : t.gen = s.gen := by obtain ⟨_, _, _, _, rfl⟩ := h.frame; rfl
theorem mem : t.mem = s.mem := by obtain ⟨_, _, _, _, rfl⟩ := h.frame; rfl
end DmxStep

/-- The arbiter's step: it changes the generator and the selected channel's handshake only (R301). -/
structure ArbStep (s0 s t : State) : Prop where
  params : t.params = s.params
  scratch : t.scratch = s.scratch
  dmx : t.dmx = s.dmx
  faults : t.faults = s.faults
  mem : t.mem = s.mem
  act : ((s0.gen.busy = false → selected s0 = none) ∧ t.gen = s.gen ∧ t.chans = s.chans) ∨
    (s0.gen.busy = false ∧ ∃ k, selected s0 = some k ∧ t.gen = ⟨true, k, 0, k⟩ ∧ t.chans = s.chans.modify k issueRequest)

theorem arbPhase_step (s0 s : State) : ArbStep s0 s (arbPhase s0 s) := by
  unfold arbPhase
  split
  · rename_i hb
    exact ⟨rfl, rfl, rfl, rfl, rfl, .inl ⟨fun h => by simp [h] at hb, rfl, rfl⟩⟩
  · rename_i hb
    split
    · rename_i hs
      exact ⟨rfl, rfl, rfl, rfl, rfl, .inl ⟨fun _ => hs, rfl, rfl⟩⟩
    · rename_i k hk
      exact ⟨rfl, rfl, rfl, rfl, rfl, .inr ⟨by simpa using hb, k, hk, rfl, rfl⟩⟩

/-- What chan_step of every channel does to the rest of the state: DESC_INCONSISTENT recorded when some descriptor is refused (R269). -/
theorem fsmPhase_frame (s0 s : State) :
    ∃ cs fs, fsmPhase s0 s = { s with chans := cs, faults := fs } ∧ cs.length = s.chans.length := by
  unfold fsmPhase
  dsimp only
  split <;> exact ⟨_, _, rfl, by simp⟩

theorem fsmPhase_grow (s0 s : State) : FaultsGrow s (fsmPhase s0 s) := by
  unfold fsmPhase
  dsimp only
  split
  · exact (FaultsGrow.record s .descInconsistent).trans (.of_eq rfl)
  · exact .of_eq rfl

/-- A tick in which a channel consumes a descriptor that is refused ends with a fault recorded (R269). -/
theorem fsmPhase_sound {s0 s : State} (h : (fsmPhase s0 s).faults = []) {c : Channel} (hc : c ∈ s0.chans) : descriptorFault s0.params c = false := by
  by_contra hd
  have hany : s0.chans.any (descriptorFault s0.params) = true := List.any_eq_true.2 ⟨c, hc, by simpa using hd⟩
  unfold fsmPhase at h
  simp only [hany, if_true] at h
  exact State.recordFault_ne_nil s _ h

/-- The parts of a tick as relations between states. -/
structure TickParts (s s1 s2 s3 sa s4 t : State) : Prop where
  send : SendStep s s1
  command : ∃ m b, s2 = { s1 with mem := m, bus := b } ∧
    (Memory.wf s1.mem → Memory.wf m) ∧ (Memory.inSpace s1.params s1.mem → Memory.inSpace s1.params m)
  access : AccessStep s2 s3
  arb : ArbStep s (portPhase s s3) sa
  arbEq : sa = arbPhase s (portPhase s s3)
  dmx : DmxStep s sa s4
  dmxEq : s4 = dmxPhase s sa
  fin : t = endTick s (fsmPhase s s4)

theorem step_parts {s t : State} (h : step s = .next t) : ∃ s1 s2 s3 sa s4, TickParts s s1 s2 s3 sa s4 t := by
  obtain ⟨-, s1, s2, s3, h1, h2, h3, rfl⟩ := step_phases h
  have st1 := sendPhase_step h1
  have st2 := commandPhase_next h2
  have st3 := accessPhase_next h3
  have sta := arbPhase_step s (portPhase s s3)
  have hp : s2.params = s1.params ∧ s2.dmx = s1.dmx := by obtain ⟨_, _, rfl, -⟩ := st2; exact ⟨rfl, rfl⟩
  refine ⟨s1, s2, s3, _, _, st1, st2, st3, sta, rfl, dmxPhase_step ?_ ?_, rfl, rfl⟩
  · exact sta.params.trans (st3.params.trans (hp.1.trans st1.params))
  · exact sta.dmx.trans (st3.dmx.trans (hp.2.trans st1.dmx))

@[simp] theorem endTick_chans (s0 s : State) : (endTick s0 s).chans = s.chans := by
  obtain ⟨m, ts, h⟩ := busActs_frame s0.input.acts s
  simp [endTick, h]

@[simp] theorem endTick_params (s0 s : State) : (endTick s0 s).params = s.params := by
  obtain ⟨m, ts, h⟩ := busActs_frame s0.input.acts s
  simp [endTick, h]

@[simp] theorem endTick_scratch (s0 s : State) : (endTick s0 s).scratch = s.scratch := by
  obtain ⟨m, ts, h⟩ := busActs_frame s0.input.acts s
  simp [endTick, h]

@[simp] theorem endTick_gen (s0 s : State) : (endTick s0 s).gen = s.gen := by
  obtain ⟨m, ts, h⟩ := busActs_frame s0.input.acts s
  simp [endTick, h]

@[simp] theorem endTick_dmx (s0 s : State) : (endTick s0 s).dmx = s.dmx := by
  obtain ⟨m, ts, h⟩ := busActs_frame s0.input.acts s
  simp [endTick, h]

@[simp] theorem endTick_faults (s0 s : State) : (endTick s0 s).faults = s.faults := by
  obtain ⟨m, ts, h⟩ := busActs_frame s0.input.acts s
  simp [endTick, h]

@[simp] theorem endTick_cfgOut (s0 s : State) : (endTick s0 s).cfgOut = s.cfgOut := by
  obtain ⟨m, ts, h⟩ := busActs_frame s0.input.acts s
  simp [endTick, h]

@[simp] theorem endTick_held (s0 s : State) : (endTick s0 s).held = heldRequests s0 := rfl

@[simp] theorem endTick_mem (s0 s : State) : (endTick s0 s).mem = (busActs s0.input.acts s).mem := rfl

@[simp] theorem endTick_env (s0 s : State) : (endTick s0 s).env = s0.env.tail := rfl

theorem portPhase_getElem? {s0 s : State} {k : Nat} {c0 c : Channel} (h0 : s0.chans[k]? = some c0) (h : s.chans[k]? = some c) :
    (portPhase s0 s).chans[k]? = some (portStep s0.params (s0.params.dir k) (s0.port k) c0 c) := by
  simp [portPhase, List.getElem?_mapIdx, h, h0]

theorem fsmPhase_getElem? {s0 s : State} {k : Nat} {c0 c : Channel} (h0 : s0.chans[k]? = some c0) (h : s.chans[k]? = some c) :
    (fsmPhase s0 s).chans[k]? = some (chanStep s0.params (s0.params.dir k) (s0.port k) c0 c) := by
  simp [fsmPhase, List.getElem?_mapIdx, h, h0]

/-- What the demultiplexer's step does to channel k. -/
theorem DmxStep.chan {s0 s t : State} (h : DmxStep s0 s t) {k : Nat} {c0 c : Channel} (h0 : s0.chans[k]? = some c0)
    (hc : s.chans[k]? = some c) : ∃ c', t.chans[k]? = some c' ∧ (c' = c ∨ DmxMove s0 k c0 c c') ∧
      (t.dmx.busy = true → t.dmx.ch = k → c'.reqIssued = c.reqIssued ∧ c'.rspReady = c.rspReady) := by
  rcases h.dmx with ⟨-, he⟩ | ⟨j, d0, d, d', hd0, hdj, he, hm, hbk, -⟩
  · exact ⟨c, by rw [he]; exact hc, .inl rfl, fun _ _ => ⟨rfl, rfl⟩⟩
  · rw [he]
    by_cases hjk : j = k
    · subst hjk
      obtain rfl : c0 = d0 := by simpa [h0] using hd0
      obtain rfl : c = d := by simpa using hc.symm.trans hdj
      have hl := (List.getElem?_eq_some_iff.1 hc).1
      exact ⟨d', by simp [hl], .inr hm, fun hb _ => (hbk hb).2⟩
    · exact ⟨c, by simp [hjk, hc], .inl rfl, fun _ _ => ⟨rfl, rfl⟩⟩

/-- What the arbiter's step does to channel k. -/
theorem ArbStep.chan {s0 s t : State} (h : ArbStep s0 s t) {k : Nat} {c : Channel} (hc : s.chans[k]? = some c) :
    ∃ c', t.chans[k]? = some c' ∧ (c' = c ∨ (s0.gen.busy = false ∧ selected s0 = some k ∧ c' = issueRequest c)) ∧
      (s0.gen.busy = false → selected s0 = some k → c' = issueRequest c) := by
  rcases h.act with ⟨hn, -, he⟩ | ⟨hb, j, hj, -, he⟩
  · exact ⟨c, by rw [he]; exact hc, .inl rfl, fun h1 h2 => by rw [hn h1] at h2; cases h2⟩
  · rw [he, List.getElem?_modify, hc]
    by_cases hjk : j = k
    · subst hjk
      exact ⟨_, by simp, .inr ⟨hb, hj, rfl⟩, fun _ _ => rfl⟩
    · exact ⟨_, by simp [hjk], .inl rfl, fun _ h2 => absurd (Option.some.inj (hj.symm.trans h2)) hjk⟩

/-- The faults the demultiplexer leaves stay to the end of the tick. -/
theorem TickParts.faultsEnd {s s1 s2 s3 sa s4 t : State} (P : TickParts s s1 s2 s3 sa s4 t) : FaultsGrow s4 t :=
  (fsmPhase_grow s s4).trans (by rw [P.fin]; exact .of_eq (endTick_faults _ _))

/-- The faults of a tick grow through its parts. -/
theorem TickParts.faults {s s1 s2 s3 sa s4 t : State} (P : TickParts s s1 s2 s3 sa s4 t) : FaultsGrow s s3 ∧ FaultsGrow s3 t := by
  have hend := P.faultsEnd
  obtain ⟨m, b, rfl, -⟩ := P.command
  exact ⟨(P.send.grow.trans (.of_eq rfl)).trans ⟨P.access.faultsKept, P.access.faultsOnce⟩,
    ((FaultsGrow.of_eq (show sa.faults = s3.faults from P.arb.faults)).trans P.dmx.grow).trans hend⟩

/-- The demultiplexer's record at the end of the tick is the one its step leaves. -/
theorem TickParts.dmxEnd {s s1 s2 s3 sa s4 t : State} (P : TickParts s s1 s2 s3 sa s4 t) : t.dmx = s4.dmx := by
  obtain ⟨_, _, he, -⟩ := fsmPhase_frame s s4
  rw [P.fin, endTick_dmx, he]

/-- The channels at the end of the tick are the ones chan_step leaves. -/
theorem TickParts.chanEnd {s s1 s2 s3 sa s4 t : State} (P : TickParts s s1 s2 s3 sa s4 t) {k : Nat} {c0 c5 : Channel} (h0 : s.chans[k]? = some c0)
    (h5 : s4.chans[k]? = some c5) : t.chans[k]? = some (chanStep s.params (s.params.dir k) (s.port k) c0 c5) := by
  rw [P.fin, endTick_chans]
  exact fsmPhase_getElem? h0 h5

/-- What a tick does to each channel. -/
theorem step_chan {s t : State} (h : step s = .next t) (k : Nat) (c0 : Channel) (hc : s.chans[k]? = some c0) :
    ∃ c1 c2 c3 c4 c5 c', t.chans[k]? = some c' ∧ ChanTick s t k c0 c1 c2 c3 c4 c5 c' := by
  obtain ⟨s1, s2, s3, sa, s4, P⟩ := step_parts h
  obtain ⟨c1, hc1, hsend⟩ : ∃ c1, s1.chans[k]? = some c1 ∧
      (c1 = c0 ∨ (GenPopped s k c0 ∧ c1 = { c0 with fifo := c0.fifo.tail })) := by
    rcases P.send.chan k c0 hc with h1 | ⟨hp, h1⟩
    · exact ⟨_, h1, .inl rfl⟩
    · exact ⟨_, h1, .inr ⟨hp, rfl⟩⟩
  have hpop : GenPopped s k c0 → c1 = { c0 with fifo := c0.fifo.tail } := fun hp =>
    Option.some.inj (hc1.symm.trans (P.send.popped k c0 hc hp))
  have h2 : s2.chans = s1.chans ∧ s2.params = s.params ∧ s2.env = s.env ∧ s2.held = s.held := by
    obtain ⟨_, _, rfl, -⟩ := P.command
    exact ⟨rfl, P.send.params, P.send.env, P.send.held⟩
  obtain ⟨c2, hc2, hacc⟩ := P.access.chan k c1 (h2.1 ▸ hc1)
  have hport : s2.port k = s.port k := by simp only [State.port, State.input, h2.2.2]
  have hst : c1.state = c0.state := by rcases hsend with rfl | ⟨-, rfl⟩ <;> rfl
  rw [h2.2.1, hport, hst] at hacc
  replace hacc := hacc.mono fun hf (hn : t.faults = []) => hf (P.faults.2.noFault hn)
  obtain ⟨c4, hc4, harb, hsel⟩ := P.arb.chan (portPhase_getElem? hc hc2)
  obtain ⟨c5, hc5, hdm, hbk⟩ := P.dmx.chan hc hc4
  have ht := P.dmxEnd
  refine ⟨c1, c2, _, c4, c5, _, ?_, hsend, hpop, hacc, rfl, harb, hsel, hdm, ht ▸ hbk, ?_, rfl⟩
  · exact P.chanEnd hc hc5
  · intro hn
    rw [P.fin, endTick_faults] at hn
    exact fsmPhase_sound hn (List.mem_of_getElem? hc)

/-- What a tick does to everything else. -/
theorem step_frame {s t : State} (h : step s = .next t) : TickFrame s t := by
  obtain ⟨s1, s2, s3, sa, s4, P⟩ := step_parts h
  have hgrow := P.faults.1.trans P.faults.2
  obtain ⟨m, b, rfl, hwf, hin⟩ := P.command
  have hch := P.send.genCh
  have hrr := P.send.rrLast
  have hl1 := P.send.chansLen
  have hl3 := P.access.chansLen
  have hla : sa.chans.length = s3.chans.length := by
    rcases P.arb.act with ⟨-, -, he⟩ | ⟨-, _, -, -, he⟩ <;> simp [he, portPhase]
  have hl4 := P.dmx.chansLen
  have hg4 := P.dmx.gen
  have hm4 : s4.mem = m := P.dmx.mem.trans (P.arb.mem.trans P.access.mem)
  have hp4 : s4.params = s.params := P.dmx.params.trans (P.arb.params.trans (P.access.params.trans P.send.params))
  have hsc : s4.scratch.length = s.scratch.length := (congrArg List.length (P.dmx.scratch.trans P.arb.scratch)).trans
      (P.access.scratchLen.trans (congrArg List.length P.send.scratch))
  obtain ⟨cs, fs, hfsm, hl5⟩ := fsmPhase_frame s s4
  have hfin := P.fin
  rw [hfsm] at hfin
  have hkept := hgrow.kept
  have honce := hgrow.once
  constructor
  · rw [hfin]; exact (endTick_params _ _).trans hp4
  · rw [hfin, endTick_chans]
    exact hl5.trans (hl4.trans (hla.trans (hl3.trans hl1)))
  · rw [hfin, endTick_scratch]; exact hsc
  · rw [hfin]; rfl
  · exact hkept
  · exact honce
  · intro hm
    rw [hfin]
    exact busActs_wf _ _ (show Memory.wf s4.mem from hm4 ▸ hwf (P.send.mem ▸ hm))
  · intro hm
    have h' : Memory.inSpace s4.params s4.mem := hm4 ▸ hp4 ▸ P.send.params ▸ hin (P.send.params ▸ P.send.mem ▸ hm)
    rw [hfin]
    exact hp4 ▸ busActs_inSpace s.input.acts { s4 with chans := cs, faults := fs } h'
  · rw [hfin, endTick_gen]
    rcases P.arb.act with ⟨-, he, -⟩ | ⟨-, k, hk, he, -⟩
    · exact .inl ((congrArg Gen.ch (hg4.trans (he.trans P.access.gen))).trans hch)
    · exact .inr (hk.trans (congrArg some (congrArg Gen.ch (hg4.trans he)).symm))
  · rw [hfin, endTick_gen]
    rcases P.arb.act with ⟨-, he, -⟩ | ⟨hb, k, hk, he, -⟩
    · exact .inl ((congrArg Gen.rrLast (hg4.trans (he.trans P.access.gen))).trans hrr)
    · exact .inr ⟨hb, hk.trans (congrArg some (congrArg Gen.rrLast (hg4.trans he)).symm)⟩
  · rw [hfin, endTick_dmx]
    rcases P.dmx.dmx with ⟨he, -⟩ | ⟨k, c0, _, _, hc0, -, -, -, -, hx | hx⟩
    · exact .inl (congrArg Dmx.ch he)
    · exact .inr ⟨c0, hx ▸ hc0⟩
    · exact .inl hx

/-- The demultiplexer busy at the end of a tick: it was not touched, or it took a flit for its channel that did not complete the group. -/
theorem step_dmx_busy {s t : State} (h : step s = .next t) (hb : t.dmx.busy = true) :
    s.dmx = t.dmx ∨ ∃ c0, s.chans[t.dmx.ch]? = some c0 ∧
      ((s.dmx.busy = false ∧ c0.reqIssued = true ∧ c0.rspReady = false) ∨ (s.dmx.busy = true ∧ s.dmx.ch = t.dmx.ch)) := by
  obtain ⟨s1, s2, s3, sa, s4, P⟩ := step_parts h
  have ht := P.dmxEnd
  rcases P.dmx.dmx with ⟨he, -⟩ | ⟨k, c0, c, c', hc0, -, -, hm, hbk, -⟩
  · exact .inl (he.symm.trans ht.symm)
  · obtain ⟨hk, -, -⟩ := hbk (ht ▸ hb)
    refine .inr ⟨c0, by rw [ht, hk]; exact hc0, ?_⟩
    obtain ⟨_, _, _, _, _, _, _, -, -, -, ⟨h1, h2, h3, -⟩ | ⟨h1, h2, -⟩, -⟩ := hm
    · exact .inl ⟨h1, h3, h2⟩
    · exact .inr ⟨h1, by rw [h2, ht, hk]⟩

end Sys2Proof.Machine
end

