-- ==== Sys2Proof/Laws/Tick.lean ====
section
/-!
SUPPORT. What one channel goes through in one tick: what stands when its own state machine writes, and how the parts of the
invariant of Safety.lean that speak of one channel come through.
-/
namespace Sys2Proof.Machine

/-- Channel k when its own state machine writes (c5) against the start of the tick (c0): the other agents have moved the handshake flags, the
response words and the FIFO only, and an access the registers and the offset (R57, R211). -/
structure BeforeFsm (s : State) (k : Nat) (c0 c5 : Channel) : Prop where
  state : c5.state = c0.state
  reqType : c5.reqType = c0.reqType
  remaining : c5.remaining = c0.remaining
  ticket : c5.ticket = c0.ticket
  sqOcc : c5.sqOcc = c0.sqOcc
  sqRd : c5.sqRd = c0.sqRd
  sqWr : c5.sqWr = c0.sqWr
  sqChunk : c5.sqChunk = c0.sqChunk
  sqMoved : c5.sqMoved = c0.sqMoved
  flags : (c5.reqValid = c0.reqValid ∧ c5.reqIssued = c0.reqIssued ∧ c5.rspReady = c0.rspReady) ∨
    (c0.reqValid = true ∧ c5.reqValid = false ∧ c5.reqIssued = true ∧ c5.rspReady = c0.rspReady) ∨
    (c0.reqIssued = true ∧ c5.reqValid = c0.reqValid ∧ c5.reqIssued = false ∧ c5.rspReady = true ∧
      (postedRequest (s.params.dir k) c0.state).isSome = true)

theorem beforeFsm_of_tick {s t : State} {k : Nat} {c0 c1 c2 c3 c4 c5 c' : Channel} (h : ChanTick s t k c0 c1 c2 c3 c4 c5 c')
    (hh : ChanHandshakeOk (s.params.dir k) c0) (hd : s.dmx.busy = true → s.dmx.ch = k → c0.reqIssued = true)
    (hc : s.chans[k]? = some c0) : BeforeFsm s k c0 c5 ∧ c5.regs = c2.regs ∧ c5.offset = c2.offset := by
  have e1 : ∃ q, c1 = { c0 with fifo := q } := by
    rcases h.send with e | ⟨-, e⟩
    · exact ⟨c0.fifo, e⟩
    · exact ⟨_, e⟩
  obtain ⟨q1, e1⟩ := e1
  have e2 : ∃ r o, c2 = { c1 with regs := r, offset := o } := by
    cases h.access with
    | same => exact ⟨c1.regs, c1.offset, rfl⟩
    | config r => exact ⟨r, c1.offset, rfl⟩
    | start => exact ⟨_, _, rfl⟩
    | stop => exact ⟨_, c1.offset, rfl⟩
  obtain ⟨r, o, e2⟩ := e2
  obtain ⟨q3, e3, -⟩ := portStep_eq s.params (s.params.dir k) (s.port k) c0 c2
  rw [← h.port] at e3
  have e4 := h.arb
  have e5 := h.dmx
  have f4 : c4 = c3 ∨ (c0.reqValid = true ∧ c4 = issueRequest c3) := by
    rcases e4 with e | ⟨-, hs, e⟩
    · exact .inl e
    · obtain ⟨c, hc', hv⟩ := selected_posted hs
      obtain rfl : c0 = c := by simpa [hc] using hc'
      exact .inr ⟨hv, e⟩
  have f5 : ∃ d0 d1 d2 q, (c5 = { c4 with rspData0 := d0, rspData1 := d1, rspData2 := d2, fifo := q }) ∨
      (c0.reqIssued = true ∧ (postedRequest (s.params.dir k) c0.state).isSome = true ∧
        ∃ e, c5 = completeChan e { c4 with rspData0 := d0, rspData1 := d1, rspData2 := d2, fifo := q }) := by
    rcases e5 with e | ⟨f, i, n, m, kind, e, c6, -, -, hs, hw, hp, hc5⟩
    · exact ⟨c4.rspData0, c4.rspData1, c4.rspData2, c4.fifo, .inl e⟩
    · obtain ⟨d0, d1, d2, q, rfl, -⟩ := processFlit_some hp
      refine ⟨d0, d1, d2, q, ?_⟩
      have hiss : c0.reqIssued = true := by
        rcases hw with ⟨-, -, h, -⟩ | ⟨hb, hk, -⟩
        · exact h
        · exact hd hb hk
      split at hc5
      · refine .inr ⟨hiss, ?_, e, hc5⟩
        rw [← rspShape_isSome s.params, hs]; rfl
      · exact .inl hc5
  obtain ⟨d0, d1, d2, q5, f5⟩ := f5
  have hne : ¬ (c0.reqValid = true ∧ c0.reqIssued = true) := fun ⟨a, b⟩ => by simp [(hh.validAlone a).1] at b
  subst e3 e2 e1
  rcases f4 with rfl | ⟨hv, rfl⟩
  · rcases f5 with rfl | ⟨hi, hp, e, rfl⟩
    · exact ⟨⟨rfl, rfl, rfl, rfl, rfl, rfl, rfl, rfl, rfl, .inl ⟨rfl, rfl, rfl⟩⟩, rfl, rfl⟩
    · exact ⟨⟨rfl, rfl, rfl, rfl, rfl, rfl, rfl, rfl, rfl, .inr (.inr ⟨hi, rfl, rfl, rfl, hp⟩)⟩, rfl, rfl⟩
  · rcases f5 with rfl | ⟨hi, hp, e, rfl⟩
    · exact ⟨⟨rfl, rfl, rfl, rfl, rfl, rfl, rfl, rfl, rfl, .inr (.inl ⟨hv, rfl, rfl, rfl⟩)⟩, rfl, rfl⟩
    · exact absurd ⟨hv, hi⟩ hne

/-- The handshake flags of one channel stay consistent through its own state machine (R206, R207). -/
theorem handshake_fsm {s : State} {k : Nat} {c0 c5 : Channel} {x : PortIn} (hp : BeforeFsm s k c0 c5) (hh : ChanHandshakeOk (s.params.dir k) c0) :
    ChanHandshakeOk (s.params.dir k) (chanStep s.params (s.params.dir k) x c0 c5) := by
  obtain ⟨hst, hty, -, -, -, -, -, -, -, hfl⟩ := hp
  have h1 := hh.validAlone
  have h2 := hh.issuedAlone
  have h3 := hh.posted
  have h4 := hh.ready
  have noflags : postedRequest (s.params.dir k) c0.state = none → c5.reqValid = false ∧ c5.reqIssued = false ∧ c5.rspReady = false := by
    intro hn
    rw [hn] at h3 h4
    have hv : c0.reqValid = false := by
      cases hx : c0.reqValid with
      | false => rfl
      | true => exact nomatch h3 (.inl hx)
    have hi : c0.reqIssued = false := by
      cases hx : c0.reqIssued with
      | false => rfl
      | true => exact nomatch h3 (.inr hx)
    have hr : c0.rspReady = false := by
      cases hx : c0.rspReady with
      | false => rfl
      | true => exact nomatch h4 hx
    rcases hfl with ⟨a, b, c⟩ | ⟨a, -⟩ | ⟨a, -⟩
    · exact ⟨a ▸ hv, b ▸ hi, c ▸ hr⟩
    · simp [hv] at a
    · simp [hi] at a
  have quiet : ∀ c : Channel, c.reqValid = false → c.reqIssued = false → c.rspReady = false → ChanHandshakeOk (s.params.dir k) c :=
    fun c a b d => ⟨by simp [a], by simp [b], by simp [a, b], by simp [d]⟩
  have m := chanStep_move s.params (s.params.dir k) x c0 c5
  generalize chanStep s.params (s.params.dir k) x c0 c5 = c' at m
  cases m with
  | consumed t ht hr =>
    obtain ⟨-, -, e1, e2, -, e3⟩ := consume_frame s.params (s.params.dir k) c0 c5
    have hv : c0.reqValid = false := by cases hx : c0.reqValid with
      | false => rfl
      | true => simp [(h1 hx).2] at hr
    have hi : c0.reqIssued = false := by cases hx : c0.reqIssued with
      | false => rfl
      | true => simp [h2 hx] at hr
    rcases hfl with ⟨a, b, -⟩ | ⟨a, -⟩ | ⟨a, -⟩
    · exact quiet _ (by rw [e1, a, hv]) (by rw [e2, b, hi]) e3
    · simp [hv] at a
    · simp [hi] at a
  | barred t ht hr =>
    have hv : c0.reqValid = false := by cases hx : c0.reqValid with
      | false => rfl
      | true => simp [(h1 hx).2] at hr
    have hi : c0.reqIssued = false := by cases hx : c0.reqIssued with
      | false => rfl
      | true => simp [h2 hx] at hr
    rcases hfl with ⟨a, b, -⟩ | ⟨a, -⟩ | ⟨a, -⟩
    · exact ⟨by simp [a, hv], by simp [b, hi], by simp [a, hv, b, hi], fun _ => by rw [hst]; exact h4 hr⟩
    · simp [hv] at a
    · simp [hi] at a
  | stayed t ht hr =>
    rcases hfl with ⟨a, b, c⟩ | ⟨a, b, c, d⟩ | ⟨a, b, c, d, e⟩
    · exact ⟨by rw [a, b, c]; exact h1, by rw [b, c]; exact h2, by rw [a, b, hst, hty]; exact h3, by rw [c, hst]; exact h4⟩
    · refine ⟨by simp [b], by simp [d, hr], fun _ => ?_, by simp [d, hr]⟩
      rw [hst, hty]; exact h3 (.inl a)
    · have hv : c0.reqValid = false := by cases hx : c0.reqValid with
        | false => rfl
        | true => simp [(h1 hx).1] at a
      exact ⟨by simp [b, hv], by simp [c], by simp [b, hv, c], fun _ => by rw [hst]; exact e⟩
  | skipped t q ht hr hv hi =>
    rcases hfl with ⟨a, b, c⟩ | ⟨a, -⟩ | ⟨a, -⟩
    · exact quiet _ (by simp [a, hv]) (by simp [b, hi]) (by simp [c, hr])
    · simp [hv] at a
    · simp [hi] at a
  | posted t ht hr hv hi =>
    rcases hfl with ⟨a, b, c⟩ | ⟨a, -⟩ | ⟨a, -⟩
    · exact ⟨fun _ => ⟨by simp [post, b, hi], by simp [post, c, hr]⟩, by simp [post, b, hi],
        fun _ => by simp [post, hst, ht], by simp [post, c, hr]⟩
    · simp [hv] at a
    · simp [hi] at a
  | taken hs => obtain ⟨a, b, c⟩ := noflags (by rw [hs]; rfl); exact quiet _ a b c
  | rested hs => obtain ⟨a, b, c⟩ := noflags (by rw [hs]; rfl); exact quiet _ a b c
  | acked hs => obtain ⟨a, b, c⟩ := noflags (by rw [hs]; rfl); exact quiet _ a b c
  | parked hs =>
    obtain ⟨a, b, c⟩ := noflags (postedRequest_of_isTerminal _ hs)
    unfold leaveTerminal
    split <;> exact quiet _ a b c


/-- Every channel at the end of a tick is what the tick made of the channel of that number. -/
theorem tick_of {s t : State} (h : step s = .next t) (k : Nat) (c' : Channel) (hc' : t.chans[k]? = some c') :
    ∃ c0 c1 c2 c3 c4 c5, s.chans[k]? = some c0 ∧ ChanTick s t k c0 c1 c2 c3 c4 c5 c' := by
  have hl : k < s.chans.length := by
    have := (List.getElem?_eq_some_iff.1 hc').1
    rw [(step_frame h).chansLen] at this; exact this
  have hc : s.chans[k]? = some s.chans[k] := by simp [hl]
  obtain ⟨c1, c2, c3, c4, c5, c6, h6, T⟩ := step_chan h k _ hc
  obtain rfl : c6 = c' := by rw [h6] at hc'; exact Option.some.inj hc'
  exact ⟨_, c1, c2, c3, c4, c5, hc, T⟩

theorem truncCount_lt (p : Params) (n : BitVec 32) : (truncCount p n).toNat < 2 ^ p.bcBits := by
  unfold truncCount
  rw [BitVec.toNat_ofNat]
  exact lt_of_le_of_lt (Nat.mod_le _ _) (Nat.mod_lt _ (Nat.two_pow_pos _))

/-- A FIFO stays within FIFO_DEPTH (R370). -/
theorem fifo_step {s t : State} {k : Nat} {c0 c1 c2 c3 c4 c5 c' : Channel} (T : ChanTick s t k c0 c1 c2 c3 c4 c5 c')
    (h0 : c0.fifo.length ≤ s.params.fifoDepth) : c'.fifo.length ≤ s.params.fifoDepth := by
  have h1 : c1.fifo.length ≤ s.params.fifoDepth := by
    rcases T.send with rfl | ⟨-, rfl⟩
    · exact h0
    · simp; omega
  have h2 : c2.fifo = c1.fifo := by cases T.access <;> rfl
  obtain ⟨q, e, hq⟩ := portStep_eq s.params (s.params.dir k) (s.port k) c0 c2
  have h3 : c3.fifo.length ≤ s.params.fifoDepth := by
    rw [T.port, e, ]; simp only
    rw [h2] at hq; omega
  have h4 : c4.fifo = c3.fifo := by rcases T.arb with rfl | ⟨-, -, rfl⟩ <;> rfl
  have h5 : c5.fifo.length ≤ s.params.fifoDepth := by
    rcases T.dmx with rfl | ⟨f, i, n, m, kind, e, c6, -, -, hs, hw, hp, hc5⟩
    · rw [h4]; exact h3
    · obtain ⟨d0, d1, d2, q, rfl, hq⟩ := processFlit_some hp
      have : c5.fifo = q := by rw [hc5]; split <;> rfl
      rw [this]
      rcases hq with rfl | ⟨-, hlt, rfl⟩
      · rw [h4]; exact h3
      · simp; omega
  rw [T.fsm, chanStep_fifo]
  exact h5

/-- The burst counts stay within BC_BITS bits (R43, R47). -/
theorem counts_step {s t : State} {k : Nat} {c0 c1 c2 c3 c4 c5 c' : Channel} (T : ChanTick s t k c0 c1 c2 c3 c4 c5 c')
    (h0 : c0.remaining.toNat < 2 ^ s.params.bcBits ∧ c0.sqChunk.toNat < 2 ^ s.params.bcBits ∧ c0.sqMoved.toNat < 2 ^ s.params.bcBits) :
    c'.remaining.toNat < 2 ^ s.params.bcBits ∧ c'.sqChunk.toNat < 2 ^ s.params.bcBits ∧ c'.sqMoved.toNat < 2 ^ s.params.bcBits := by
  have h5 : c5.remaining = c0.remaining ∧ c5.sqChunk = c0.sqChunk ∧ c5.sqMoved = c0.sqMoved := by
    have a1 : c1.remaining = c0.remaining ∧ c1.sqChunk = c0.sqChunk ∧ c1.sqMoved = c0.sqMoved := by
      rcases T.send with e | ⟨-, e⟩ <;> rw [e] <;> exact ⟨rfl, rfl, rfl⟩
    have a2 : c2.remaining = c1.remaining ∧ c2.sqChunk = c1.sqChunk ∧ c2.sqMoved = c1.sqMoved := by cases T.access <;> exact ⟨rfl, rfl, rfl⟩
    obtain ⟨q, e, hq⟩ := portStep_eq s.params (s.params.dir k) (s.port k) c0 c2
    have a3 : c3.remaining = c2.remaining ∧ c3.sqChunk = c2.sqChunk ∧ c3.sqMoved = c2.sqMoved := by rw [T.port, e]; exact ⟨rfl, rfl, rfl⟩
    have a4 : c4.remaining = c3.remaining ∧ c4.sqChunk = c3.sqChunk ∧ c4.sqMoved = c3.sqMoved := by
      rcases T.arb with e | ⟨-, -, e⟩ <;> rw [e] <;> exact ⟨rfl, rfl, rfl⟩
    have a5 : c5.remaining = c4.remaining ∧ c5.sqChunk = c4.sqChunk ∧ c5.sqMoved = c4.sqMoved := by
      rcases T.dmx with e | ⟨f, i, n, m, kind, e, c6, -, -, hs, hw, hp, hc5⟩
      · rw [e]; exact ⟨rfl, rfl, rfl⟩
      · obtain ⟨d0, d1, d2, q, rfl, hq⟩ := processFlit_some hp
        rw [hc5]; split <;> exact ⟨rfl, rfl, rfl⟩
    simp only [a5, a4, a3, a2, a1, and_self]
  rw [← h5.1, ← h5.2.1, ← h5.2.2] at h0
  have hr0 := h5.1
  rw [T.fsm]
  have m := chanStep_move s.params (s.params.dir k) (s.port k) c0 c5
  generalize chanStep s.params (s.params.dir k) (s.port k) c0 c5 = c' at m
  cases m with
  | consumed t ht hr =>
    unfold consume
    dsimp only
    split
    · exact h0
    · unfold consumeOk
      split
      all_goals try exact h0
      · exact ⟨truncCount_lt _ _, h0.2⟩
      · refine ⟨h0.1, ?_, Nat.two_pow_pos _⟩
        unfold consumeStatusRead chunkOf
        dsimp only
        rw [BitVec.toNat_ofNat]
        refine lt_of_le_of_lt (Nat.mod_le _ _) (lt_of_le_of_lt (min_le_left _ _) (hr0 ▸ h0.1))
      · exact ⟨truncCount_lt _ _, truncCount_lt _ _, truncCount_lt _ _⟩
  | taken => exact ⟨truncCount_lt _ _, h0.2⟩
  | parked => unfold leaveTerminal; split <;> exact h0
  | _ => exact h0


/-- Within a tick only the access writes configuration registers. -/
theorem regs_chain {s t : State} {k : Nat} {c0 c1 c2 c3 c4 c5 c' : Channel} (T : ChanTick s t k c0 c1 c2 c3 c4 c5 c') :
    c1.regs = c0.regs ∧ c'.regs = c2.regs := by
  have a1 : c1.regs = c0.regs := by
    rcases T.send with e | ⟨-, e⟩ <;> simp [e]
  obtain ⟨q, e, hq⟩ := portStep_eq s.params (s.params.dir k) (s.port k) c0 c2
  have a3 : c3.regs = c2.regs := by rw [T.port, e]
  have a4 : c4.regs = c3.regs := by
    rcases T.arb with e | ⟨-, -, e⟩ <;> rw [e] <;> rfl
  have a5 : c5.regs = c4.regs := by
    rcases T.dmx with e | ⟨f, i, n, m, kind, e, c6, -, -, hs, hw, hp, hc5⟩
    · rw [e]
    · obtain ⟨d0, d1, d2, q, rfl, hq⟩ := processFlit_some hp
      rw [hc5]; split <;> rfl
  exact ⟨a1, by rw [T.fsm, chanStep_regs, a5, a4, a3]⟩


/-- One more burst fits below a burst-aligned bound. -/
theorem burst_step {a b n : Nat} (ha : a % n = 0) (hb : b % n = 0) (h : a < b) : a + n ≤ b := by
  obtain ⟨x, rfl⟩ := Nat.dvd_of_mod_eq_zero ha
  obtain ⟨y, rfl⟩ := Nat.dvd_of_mod_eq_zero hb
  have : x < y := Nat.lt_of_mul_lt_mul_left h
  calc n * x + n = n * (x + 1) := by ring
    _ ≤ n * y := Nat.mul_le_mul_left _ this

/-- One channel in a run with no recorded fault, through one tick (R180, R202, R215, R242, R243). -/
theorem run_step {s t : State} {k : Nat} {c0 c1 c2 c3 c4 c5 c' : Channel} (T : ChanTick s t k c0 c1 c2 c3 c4 c5 c')
    (hc : s.chans[k]? = some c0)
    (hh : HandshakeOk s) (hr : RegsOk s.params c0.regs) (hi : RunOk s.params c0) (hf : NoFault t) :
    RunOk s.params c' := by
  have hdm : s.dmx.busy = true → s.dmx.ch = k → c0.reqIssued = true := by
    intro hb hk
    obtain ⟨c, hc', hr⟩ := hh.dmx hb
    rw [hk, hc] at hc'
    cases hc'; exact hr
  obtain ⟨P, hreg, hoff⟩ := beforeFsm_of_tick T (hh.chan k _ hc) hdm hc
  have H := handshake_fsm (x := s.port k) P (hh.chan k _ hc)
  rw [← T.fsm] at H
  have hreg' : c'.regs = c2.regs := (regs_chain T).2
  have e1 : c1.regs = c0.regs ∧ c1.offset = c0.offset := by
    rcases T.send with e | ⟨-, e⟩ <;> rw [e] <;> exact ⟨rfl, rfl⟩
  have m := chanStep_move s.params (s.params.dir k) (s.port k) c0 c5
  rw [← T.fsm] at m
  have hst := P.state
  -- the four moves
  have A := T.access
  -- resting or terminal channel keeps
  have atRest : c0.state = .idle ∨ c0.state.isTerminal = true → (c0.regs.running = false ∨ (c0.state = .idle → (s.port k).req = false)) →
      (c' = c5 ∨ (c0.regs.running = false ∧ c' = { c5 with state := .idle })) := by
    intro hrest hno
    have hn : postedRequest (s.params.dir k) c0.state = none := by
      rcases hrest with e | e
      · rw [e]; rfl
      · exact postedRequest_of_isTerminal _ e
    cases m with
    | consumed t ht => simp [hn] at ht
    | barred t ht => simp [hn] at ht
    | stayed t ht => simp [hn] at ht
    | skipped t q ht => simp [hn] at ht
    | posted t ht => simp [hn] at ht
    | taken h1 h2 h3 =>
      rcases hno with e | e
      · simp [e] at h2
      · simp [e h1] at h3
    | rested => exact .inl rfl
    | acked h1 => rcases hrest with e | e <;> simp [h1, FsmState.isTerminal, FsmState.isError] at e
    | parked =>
      unfold leaveTerminal
      split
      · exact .inl rfl
      · exact .inr ⟨Bool.eq_false_iff.2 ‹_›, rfl⟩
  have idle_of : c0.regs.running = false → c'.state = .idle ∧ c'.offset = c5.offset := by
    intro hrun
    have := hi.stopped hrun
    rcases atRest this (.inl hrun) with e | ⟨-, e⟩
    · rcases this with h1 | h1
      · rw [e, hst]; exact ⟨h1, rfl⟩
      · -- terminal with running false : left
        exfalso
        revert e
        cases m with
        | parked h =>
          intro e
          have := congrArg Channel.state e
          simp [leaveTerminal, hrun] at this
          rw [hst] at this
          rw [← this] at h1
          simp [FsmState.isTerminal, FsmState.isError] at h1
        | consumed t ht => simp [postedRequest_of_isTerminal _ h1] at ht
        | barred t ht => simp [postedRequest_of_isTerminal _ h1] at ht
        | stayed t ht => simp [postedRequest_of_isTerminal _ h1] at ht
        | skipped t q ht => simp [postedRequest_of_isTerminal _ h1] at ht
        | posted t ht => simp [postedRequest_of_isTerminal _ h1] at ht
        | taken h => simp [h, FsmState.isTerminal, FsmState.isError] at h1
        | rested h => simp [h, FsmState.isTerminal, FsmState.isError] at h1
        | acked h => simp [h, FsmState.isTerminal, FsmState.isError] at h1
    · rw [e]; exact ⟨rfl, rfl⟩
  have resting : ∀ c : Channel, c.state = .idle → (c.regs.running = true → startDefect s.params c.regs = false ∧ c.offset = 0) → RunOk s.params c := by
    intro c h1 h2
    refine ⟨fun _ => .inl h1, fun h => (h2 h).1, fun _ h => ?_, fun _ h => ?_, fun h _ => ?_, fun h _ _ => ?_, fun _ h => ?_, fun h => ?_⟩
    · rw [h1] at h; cases h
    · rcases h with h | h <;> simp [h1] at h
    · rw [(h2 h).2]; simp
    · have := (h2 h).1
      rw [(h2 h).2]
      simp only [startDefect, Bool.or_eq_false_iff, decide_eq_false_iff_not] at this
      have := this.1.1
      have h3 : c.regs.size.toNat ≠ 0 := fun e => this (BitVec.eq_of_toNat_eq (by simpa using e))
      simp; omega
    · simp [h1] at h
    · simp [h1] at h
  cases hrun : c0.regs.running with
  | false =>
    obtain ⟨h1, h2⟩ := idle_of hrun
    refine resting _ h1 ?_
    rw [hreg', h2, hoff]
    rw [← e1.1] at hrun
    cases A with
    | same => intro h; simp [hrun] at h
    | config r a b => intro h; simp [b] at h
    | start a b => intro _; exact ⟨b, rfl⟩
    | stop a => simp [hrun] at a
  | true =>
    have hrun1 : c1.regs.running = true := by rw [e1.1]; exact hrun
    -- either regs unchanged or stopped safely
    have hcase : (c2 = c1) ∨ (c2.regs.running = false ∧ stopIsSafe c0.state (s.port k).req = true) := by
      cases A with
      | same => exact .inl rfl
      | config r a => simp [hrun1] at a
      | start a => simp [hrun1] at a
      | stop a f => exact .inr ⟨rfl, f hf⟩
    rcases hcase with rfl | ⟨hs, hsafe⟩
    · -- regs unchanged
      have R : c'.regs = c0.regs := hreg'.trans e1.1
      have O : c5.offset = c0.offset := hoff.trans e1.2
      have eng : c5.engaged = true → c0.engaged = true := by
        unfold Channel.engaged
        rcases P.flags with ⟨a, b, c⟩ | ⟨a, b, c, d⟩ | ⟨a, b, c, d, -⟩ <;> simp [*]
      have D := hi.started hrun
      have Sz : c0.regs.size.toNat % s.params.burstBytes = 0 := hr.sizeAligned
      -- generic: offset unchanged, state q
      have gen : ∀ c : Channel, c.regs = c0.regs → c.offset = c0.offset →
          (c.state.isProtocol = true → c0.regs.mode = .sharedQueue) →
          (c.state = .bulkDataMove → c0.regs.mode.isBulk = true) →
          (c.state = .success → c0.state = .success) → (c0.state = .success → c.state = .success) →
          (c.state = .bulkDataMove → c.engaged = true → c.remaining ≠ 0) → RunOk s.params c := by
        intro c g1 g2 g3 g4 g5 g5' g6
        refine ⟨fun h => ?_, fun _ => by rw [g1]; exact D, fun _ h => by rw [g1]; exact g3 h, fun _ h => ?_, fun _ h => ?_, fun _ h h' => ?_, fun _ h => ?_, g6⟩
        · rw [g1, hrun] at h; cases h
        · rw [g1]
          rcases h with h | h
          · exact g4 h
          · exact hi.bulk hrun (.inr (g5 h))
        · rw [g2]; exact hi.offsetAligned hrun (g1 ▸ h)
        · rw [g2, g1]
          refine hi.offsetLt hrun (g1 ▸ h) (fun e => h' (g5' e))
        · rw [g2, g1]; exact hi.offsetEq hrun (g5 h)
      cases m with
      | barred tt ht hrd hb => simp [T.sound hf] at hb
      | consumed tt ht hrd =>
        have hnt := postedRequest_isTerminal ht
        have hns : c0.state ≠ .success := by intro e; simp [e, FsmState.isTerminal] at hnt
        obtain ⟨f1, -, f3, f4, -, f6⟩ := consume_frame s.params (s.params.dir k) c0 c5
        have hv : c0.reqValid = false := by
          cases hx : c0.reqValid with
          | false => rfl
          | true => simp [((hh.chan k _ hc).validAlone hx).2] at hrd
        have hi' : c0.reqIssued = false := by
          cases hx : c0.reqIssued with
          | false => rfl
          | true => simp [(hh.chan k _ hc).issuedAlone hx] at hrd
        have hneng : (consume s.params (s.params.dir k) c0 c5).engaged = false := by
          unfold Channel.engaged
          rw [f3, f4, f6]
          rcases P.flags with ⟨a, b, -⟩ | ⟨a, -⟩ | ⟨a, -⟩
          · simp [a, b, hv, hi']
          · simp [hv] at a
          · simp [hi'] at a
        have g6 : (consume s.params (s.params.dir k) c0 c5).state = .bulkDataMove → (consume s.params (s.params.dir k) c0 c5).engaged = true →
            (consume s.params (s.params.dir k) c0 c5).remaining ≠ 0 := fun _ h => by simp [hneng] at h
        revert R g6
        unfold consume
        dsimp only
        split
        · intro R g6
          refine gen _ R O ?_ ?_ ?_ ?_ g6
          · intro h; cases hq : c0.state <;> simp [hq, takeError, errState, FsmState.isProtocol, postedRequest] at h ht
          · intro h; cases hq : c0.state <;> simp [hq, takeError, errState, postedRequest] at h ht
          · intro h; cases hq : c0.state <;> simp [hq, takeError, errState, postedRequest] at h ht
          · exact fun e => absurd e hns
        · have prot : c0.state.isProtocol = true → c0.regs.mode = .sharedQueue := hi.protocol hrun
          cases hq : c0.state <;> simp only [hq, postedRequest, reduceCtorEq] at ht <;> simp only [consumeOk, hq]
          · -- bulk
            intro R g6
            have hb := hi.bulk hrun (.inl hq)
            have hal := hi.offsetAligned hrun hb
            have hlt := hi.offsetLt hrun hb hns
            have hle := burst_step hal Sz hlt
            have hn : (BitVec.ofNat 32 (c0.offset.toNat + s.params.burstBytes)).toNat = c0.offset.toNat + s.params.burstBytes := by
              rw [BitVec.toNat_ofNat]
              exact Nat.mod_eq_of_lt (lt_of_le_of_lt hle c0.regs.size.isLt)
            refine ⟨fun h => ?_, fun _ => ?_, fun _ h => ?_, fun _ _ => ?_, fun _ _ => ?_, fun _ _ h => ?_, fun _ h => ?_, g6⟩
            · rw [R, hrun] at h; cases h
            · rw [R]; exact D
            · revert h; unfold consumeBulk; dsimp only; split
              · intro h; cases h
              · split <;> (intro h; cases h)
            · rw [R]; exact hb
            · rw [consumeBulk_offset hrun, hn, Nat.add_mod, hal]; simp
            · have h2 : c0.offset.toNat + s.params.burstBytes ≠ c0.regs.size.toNat := by
                intro e; apply h; simp [consumeBulk, e]
              rw [R]
              rw [consumeBulk_offset hrun, hn]; omega
            · have h2 : c0.offset.toNat + s.params.burstBytes = c0.regs.size.toNat := by
                by_contra e
                revert h; unfold consumeBulk; dsimp only; rw [if_neg e]; split <;> (intro h; cases h)
              rw [R]
              apply BitVec.eq_of_toNat_eq
              rw [consumeBulk_offset hrun, hn, h2]
          all_goals
            intro R g6
            have pm := prot (by simp [hq, FsmState.isProtocol])
            refine gen _ R O (fun _ => pm) ?_ ?_ (fun e => absurd e hns) g6
            all_goals
              intro h
              exfalso
              revert h
              first
                | simp only [consumeTicketRead]; intro h; cases h
                | simp only [consumeTicketCas]; split <;> (intro h; cases h)
                | simp only [consumeLockRead]; split <;> (intro h; cases h)
                | simp only [consumeStatusRead]; intro h; cases h
                | simp only [consumeDataMove]; intro h; cases h
                | simp only [consumeStatusUpdate]; intro h; cases h
                | simp only [consumeLockRelease]; split <;> (intro h; cases h)
      | stayed tt ht hrd =>
        refine gen _ R O ?_ ?_ ?_ ?_ ?_
        · rw [hst]; exact hi.protocol hrun
        · rw [hst]; exact fun h => hi.bulk hrun (.inl h)
        · rw [hst]; exact id
        · rw [hst]; exact id
        · rw [hst, P.remaining]; exact fun h1 h2 => hi.burstsLeft h1 (eng h2)
      | skipped tt q ht hrd hv hi' hpp =>
        have hq : (c0.state = .bulkDataMove ∧ q = .idle) ∨ (c0.state = .dataMove ∧ (q = .lockRelease ∨ q = .statusUpdate)) := by
          revert hpp; unfold prePost; split
          · split
            · intro h; cases h; exact .inl ⟨‹_›, rfl⟩
            · intro h; cases h
          · split
            · split <;> (intro h; cases h)
              · exact .inr ⟨‹_›, .inl rfl⟩
              · exact .inr ⟨‹_›, .inr rfl⟩
            · intro h; cases h
          · intro h; cases h
        refine gen _ R O ?_ ?_ ?_ ?_ ?_
        · rcases hq with ⟨h1, rfl⟩ | ⟨h1, rfl | rfl⟩
          · intro h; cases h
          · intro _; exact hi.protocol hrun (by simp [h1, FsmState.isProtocol])
          · intro _; exact hi.protocol hrun (by simp [h1, FsmState.isProtocol])
        · rcases hq with ⟨h1, rfl⟩ | ⟨h1, rfl | rfl⟩ <;> (intro h; cases h)
        · rcases hq with ⟨h1, rfl⟩ | ⟨h1, rfl | rfl⟩ <;> (intro h; cases h)
        · rcases hq with ⟨h1, rfl⟩ | ⟨h1, rfl | rfl⟩ <;> (intro h; rw [h1] at h; cases h)
        · rcases hq with ⟨h1, rfl⟩ | ⟨h1, rfl | rfl⟩ <;> (intro h; cases h)
      | posted tt ht hrd hv hi' hpp hg =>
        refine gen _ R O ?_ ?_ ?_ ?_ ?_
        · simp only [post, hst]; exact hi.protocol hrun
        · simp only [post, hst]; exact fun h => hi.bulk hrun (.inl h)
        · simp only [post, hst]; exact id
        · simp only [post, hst]; exact id
        · simp only [post, hst, P.remaining]
          intro h1 _ h3
          simp [prePost, h1, h3] at hpp
      | taken h1 =>
        refine gen _ R O ?_ ?_ ?_ ?_ ?_ <;> first | (intro h; cases h) | (intro h; rw [h1] at h; cases h)
      | rested h1 =>
        refine gen _ R O ?_ ?_ ?_ ?_ ?_ <;> (rw [hst, h1]; intro h; cases h)
      | acked h1 =>
        unfold ackArm
        have hb : ∀ b, c0.regs.mode.isBulk = b → b = false → c0.regs.mode = .sharedQueue := by
          cases c0.regs.mode <;> simp [Mode.isBulk]
        refine gen _ R O ?_ ?_ ?_ ?_ ?_ <;> dsimp only
        · split
          · intro h; cases h
          · intro _; exact hb _ rfl (Bool.eq_false_iff.2 ‹_›)
        · split
          · intro _; assumption
          · intro h; cases h
        · split <;> (intro h; cases h)
        · intro h; rw [h1] at h; cases h
        · intro _ he
          exfalso
          have : c0.engaged = true := eng he
          have h3 := (hh.chan k _ hc).posted
          have h4 := (hh.chan k _ hc).ready
          rw [h1] at h3 h4
          simp only [Channel.engaged, Bool.or_eq_true] at this
          rcases this with h | h
          · exact nomatch h3 h
          · exact nomatch h4 h
      | parked h1 =>
        have : leaveTerminal c0.regs.running c5 = c5 := by simp [leaveTerminal, hrun]
        rw [this] at R ⊢
        refine gen _ R O ?_ ?_ ?_ ?_ ?_ <;> rw [hst]
        · exact hi.protocol hrun
        · exact fun h => hi.bulk hrun (.inl h)
        · exact id
        · exact id
        · intro h; simp [h, FsmState.isTerminal, FsmState.isError] at h1
    · -- safe stop
      have hrest : (c0.state = .idle ∨ c0.state.isTerminal = true) ∧ (c0.state = .idle → (s.port k).req = false) := by
        simp only [stopIsSafe, Bool.or_eq_true, Bool.and_eq_true, decide_eq_true_eq, Bool.not_eq_true'] at hsafe
        rcases hsafe with h | ⟨h1, h2⟩
        · exact ⟨.inr h, fun e => by simp [e, FsmState.isTerminal, FsmState.isError] at h⟩
        · exact ⟨.inl h1, fun _ => h2⟩
      have hc5 : c' = c5 := by
        rcases atRest hrest.1 (.inr hrest.2) with e | ⟨e, -⟩
        · exact e
        · simp [hrun] at e
      have hR : c'.regs.running = false := by rw [hreg']; exact hs
      refine ⟨fun _ => ?_, ?_, ?_, ?_, ?_, ?_, ?_, ?_⟩
      · rw [hc5, hst]; exact hrest.1
      all_goals try (intro h; rw [hR] at h; cases h)
      intro h
      rw [hc5, hst] at h
      rcases hrest.1 with e | e <;> simp [h, FsmState.isTerminal, FsmState.isError] at e

theorem truncCount_pred (p : Params) (n : BitVec 32) (h : n ≠ 0) (hn : n.toNat < 2 ^ p.bcBits) :
    (truncCount p (n - 1)).toNat = n.toNat - 1 := by
  have h1 : n.toNat ≠ 0 := fun e => h (BitVec.eq_of_toNat_eq (by simpa using e))
  have h2 : (n - 1).toNat = n.toNat - 1 := by
    have := n.isLt
    rw [BitVec.toNat_sub]; simp; omega
  unfold truncCount
  rw [BitVec.toNat_ofNat, h2, Nat.mod_eq_of_lt (a := n.toNat - 1) (by omega)]
  exact Nat.mod_eq_of_lt (by have := n.isLt; omega)

theorem truncCount_succ (p : Params) (hp : p.Wf) (n : BitVec 32) (h : n.toNat + 1 < 2 ^ p.bcBits) :
    (truncCount p (n + 1)).toNat = n.toNat + 1 := by
  have h32 : 2 ^ p.bcBits ≤ 2 ^ 32 := Nat.pow_le_pow_right (by norm_num) hp.2.2.2.2.2.2.2.2.2.2.1
  have h2 : (n + 1).toNat = n.toNat + 1 := by
    rw [BitVec.toNat_add]
    simp
    omega
  unfold truncCount
  rw [BitVec.toNat_ofNat, h2, Nat.mod_eq_of_lt h]
  exact Nat.mod_eq_of_lt (by omega)

/-- A shared-queue channel's mirrors, through one tick (R268 to R273). -/
theorem queue_step {s t : State} {k : Nat} {c0 c1 c2 c3 c4 c5 c' : Channel} (T : ChanTick s t k c0 c1 c2 c3 c4 c5 c')
    (hc : s.chans[k]? = some c0) (hp : s.params.Wf)
    (hcnt : c0.remaining.toNat < 2 ^ s.params.bcBits ∧ c0.sqChunk.toNat < 2 ^ s.params.bcBits ∧ c0.sqMoved.toNat < 2 ^ s.params.bcBits)
    (hh : HandshakeOk s) (hr : RegsOk s.params c0.regs) (hi : RunOk s.params c0) (hqk : QueueOk s.params (s.params.dir k) c0) (hf : NoFault t) :
    QueueOk s.params (s.params.dir k) c' := by
  have hdm : s.dmx.busy = true → s.dmx.ch = k → c0.reqIssued = true := by
    intro hb hk
    obtain ⟨c, hc', hr⟩ := hh.dmx hb
    rw [hk, hc] at hc'
    cases hc'; exact hr
  obtain ⟨P, hreg, hoff⟩ := beforeFsm_of_tick T (hh.chan k _ hc) hdm hc
  have hreg' : c'.regs = c2.regs := (regs_chain T).2
  have e1 : c1.regs = c0.regs := (regs_chain T).1
  have m := chanStep_move s.params (s.params.dir k) (s.port k) c0 c5
  rw [← T.fsm] at m
  have hst := P.state
  have hbw : 4 * s.params.burstWords = s.params.burstBytes := by
    unfold Params.burstWords; have := hp.2.2.2.2.1; omega
  have hbw0 : 0 < s.params.burstWords := by have := hp.2.2.2.2.2.1; omega
  have hcap : capWords c0 % s.params.burstWords = 0 := by
    have := hr.sizeAligned
    rw [← hbw] at this
    obtain ⟨x, hx⟩ := Nat.dvd_of_mod_eq_zero this
    unfold capWords
    rw [hx]
    have : 4 * s.params.burstWords * x / 4 = s.params.burstWords * x := by
      rw [Nat.mul_assoc, Nat.mul_div_cancel_left _ (by norm_num)]
    rw [this]; simp
  -- outside the two states nothing to show
  have triv : ∀ c : Channel, c.state ≠ .dataMove → c.state ≠ .statusUpdate → QueueOk s.params (s.params.dir k) c := by
    intro c h1 h2
    exact ⟨fun h => (h.elim h1 h2).elim, fun h => (h1 h).elim, fun h => (h1 h).elim, fun h => (h1 h).elim, fun h => (h1 h).elim, fun h => (h1 h).elim⟩
  -- a protocol state at the start: registers unchanged in this tick
  have keep : c0.state.isProtocol = true → c'.regs = c0.regs := by
    intro hpr
    have hrun : c0.regs.running = true := by
      cases hx : c0.regs.running with
      | true => rfl
      | false => rcases hi.stopped hx with e | e
                 · simp [e, FsmState.isProtocol] at hpr
                 · cases hq : c0.state <;> simp_all [FsmState.isProtocol, FsmState.isTerminal, FsmState.isError]
    rw [hreg', ← e1]
    rw [← e1] at hrun
    cases T.access with
    | same => rfl
    | config r a => simp [hrun] at a
    | start a => simp [hrun] at a
    | stop a f =>
      have := f hf
      cases hq : c0.state <;> simp_all [FsmState.isProtocol, stopIsSafe, FsmState.isTerminal, FsmState.isError]
  have eng : c5.engaged = true → c0.engaged = true := by
    unfold Channel.engaged
    rcases P.flags with ⟨a, b, c⟩ | ⟨a, b, c, d⟩ | ⟨a, b, c, d, -⟩ <;> simp [*]
  have gen : ∀ c : Channel, c.regs = c0.regs → c.state = c0.state ∨ (c0.state = .dataMove ∧ c.state ≠ .dataMove) → c.sqOcc = c0.sqOcc → c.sqRd = c0.sqRd → c.sqWr = c0.sqWr →
      c.sqChunk = c0.sqChunk → c.sqMoved = c0.sqMoved → c.remaining = c0.remaining → (c.engaged = true → c.state = .dataMove → c.sqChunk ≠ 0) →
      QueueOk s.params (s.params.dir k) c := by
    intro c g1 g2 g3 g4 g5 g6 gm g7 g8
    have hdm : c.state = .dataMove → c0.state = .dataMove := by
      intro h; rcases g2 with e | ⟨e, -⟩
      · rw [← e]; exact h
      · exact e
    have hcw : capWords c = capWords c0 := by unfold capWords; rw [g1]
    refine ⟨fun h => ?_, fun h => ?_, fun h hd => ?_, fun h hd => ?_, fun h he => g8 he h, fun h => ?_⟩
    · have : c0.state = .dataMove ∨ c0.state = .statusUpdate := by
        rcases g2 with e | ⟨e, -⟩
        · rw [← e]; exact h
        · exact .inl e
      have := hqk.mirrors this
      unfold descriptorOk at this ⊢
      rw [hcw, g3, g4, g5]; exact this
    · rw [g6, g7]; exact hqk.chunkLe (hdm h)
    · rw [g6, g3]; exact hqk.chunkData (hdm h) hd
    · rw [g6, g3, hcw]; exact hqk.chunkSpace (hdm h) hd
    · rw [gm, g7]; exact hqk.movedFits (hdm h)
  by_cases hpr : c0.state.isProtocol = true
  case neg =>
    have : c'.state ≠ .dataMove ∧ c'.state ≠ .statusUpdate := by
      generalize hd : s.params.dir k = d at m
      cases m with
      | barred tt ht hrd hb => simp [T.sound hf] at hb
      | consumed tt ht =>
        unfold consume; dsimp only
        cases hq : c0.state <;> simp [hq, FsmState.isProtocol, postedRequest] at hpr ht
        split
        · simp [takeError, errState]
        · simp only [consumeOk, hq, consumeBulk]
          split
          · simp
          · split <;> simp
      | stayed => rw [hst]; constructor <;> (intro e; simp [e, FsmState.isProtocol] at hpr)
      | skipped tt q a b c d e =>
        revert e; unfold prePost
        cases hq : c0.state <;> simp [hq, FsmState.isProtocol] at hpr ⊢
        intro _ e; subst e; simp
      | posted => simp only [post, hst]; constructor <;> (intro e; simp [e, FsmState.isProtocol] at hpr)
      | taken => simp
      | rested => rw [hst]; constructor <;> (intro e; simp [e, FsmState.isProtocol] at hpr)
      | acked => unfold ackArm; dsimp only; split <;> simp
      | parked => unfold leaveTerminal; split
                  · rw [hst]; constructor <;> (intro e; simp [e, FsmState.isProtocol] at hpr)
                  · simp
    exact triv _ this.1 this.2
  have R := keep hpr
  have nterm : ∀ d, (postedRequest d c0.state).isSome = true := by
    intro d; cases hq : c0.state <;> simp_all [FsmState.isProtocol, postedRequest]
  cases m with
  | barred tt ht hrd hb => simp [T.sound hf] at hb
  | consumed tt ht hrd =>
    have H := hh.chan k _ hc
    have hv : c0.reqValid = false := by
      cases hx : c0.reqValid with
      | false => rfl
      | true => simp [(H.validAlone hx).2] at hrd
    have hi' : c0.reqIssued = false := by
      cases hx : c0.reqIssued with
      | false => rfl
      | true => simp [H.issuedAlone hx] at hrd
    have hneng : (consume s.params (s.params.dir k) c0 c5).engaged = false := by
      obtain ⟨f1, -, f3, f4, -, f6⟩ := consume_frame s.params (s.params.dir k) c0 c5
      unfold Channel.engaged
      rw [f3, f4, f6]
      rcases P.flags with ⟨a, b, -⟩ | ⟨a, -⟩ | ⟨a, -⟩
      · simp [a, b, hv, hi']
      · simp [hv] at a
      · simp [hi'] at a
    revert R hneng
    unfold consume
    dsimp only
    split
    · intro R hneng
      refine triv _ ?_ ?_ <;>
      · cases hq : c0.state <;> simp_all [FsmState.isProtocol, takeError, errState]
    · rename_i herr
      cases hq : c0.state <;> simp only [hq, FsmState.isProtocol, reduceCtorEq] at hpr <;> simp only [consumeOk, hq]
      · intro _ _; exact triv _ (by simp [consumeTicketRead]) (by simp [consumeTicketRead])
      · intro _ _; refine triv _ ?_ ?_ <;> (unfold consumeTicketCas; dsimp only; split <;> simp)
      · intro _ _; refine triv _ ?_ ?_ <;> (unfold consumeLockRead; dsimp only; split <;> simp)
      · -- statusRead
        intro R hneng
        have hs := T.sound hf
        have hok : descriptorOk s.params c0 c0.rspData0 c0.rspData1 c0.rspData2 = true := by
          have he : c0.rspErr = false := Bool.eq_false_iff.2 herr
          cases hx : descriptorOk s.params c0 c0.rspData0 c0.rspData1 c0.rspData2 with
          | true => rfl
          | false => simp [descriptorFault, hq, hrd, he, hx] at hs
        have hcw : capWords (consumeStatusRead s.params (s.params.dir k) c0 { c5 with rspReady := false }) = capWords c0 := by
          unfold capWords; rw [R]
        have hchunk : (BitVec.ofNat 32 (chunkOf s.params (s.params.dir k) c0 c0.rspData0)).toNat = chunkOf s.params (s.params.dir k) c0 c0.rspData0 := by
          rw [BitVec.toNat_ofNat]
          refine Nat.mod_eq_of_lt (lt_of_le_of_lt (min_le_left _ _) c0.remaining.isLt)
        refine ⟨fun _ => ?_, fun _ => ?_, fun _ hd => ?_, fun _ hd => ?_, fun _ he => ?_, fun _ => ?_⟩
        · unfold descriptorOk at hok ⊢
          rw [hcw]; exact hok
        · show (BitVec.ofNat 32 _).toNat ≤ c5.remaining.toNat
          rw [hchunk, P.remaining]
          exact min_le_left _ _
        · show (BitVec.ofNat 32 _).toNat * _ ≤ c0.rspData0.toNat
          rw [hchunk]
          have : chunkOf s.params (s.params.dir k) c0 c0.rspData0 ≤ c0.rspData0.toNat / s.params.burstWords := by
            unfold chunkOf; rw [hd]; dsimp only
            exact (min_le_right _ _).trans (min_le_left _ _)
          exact (Nat.mul_le_mul_right _ this).trans (Nat.div_mul_le_self _ _)
        · show c0.rspData0.toNat + (BitVec.ofNat 32 _).toNat * _ ≤ _
          rw [hchunk, hcw]
          have : chunkOf s.params (s.params.dir k) c0 c0.rspData0 ≤ (capWords c0 - c0.rspData0.toNat) / s.params.burstWords := by
            unfold chunkOf; rw [hd]; dsimp only
            exact (min_le_right _ _).trans (min_le_left _ _)
          have h3 := (Nat.mul_le_mul_right s.params.burstWords this).trans (Nat.div_mul_le_self _ _)
          have h4 : c0.rspData0.toNat ≤ capWords c0 := by
            simp only [descriptorOk, Bool.and_eq_true, decide_eq_true_eq] at hok
            exact hok.1.1.1.1
          omega
        · rw [hneng] at he; cases he
        · show (0 : BitVec 32).toNat + c5.remaining.toNat < _
          rw [P.remaining]
          simpa using hcnt.1
      · -- dataMove
        intro R hneng
        have hm := hqk.mirrors (.inl hq)
        have hle := hqk.chunkLe hq
        have hlft : c0.sqChunk ≠ 0 := hqk.chunkLeft hq (by simp [Channel.engaged, hrd])
        have hl1 : c0.sqChunk.toNat ≠ 0 := fun e => hlft (BitVec.eq_of_toNat_eq (by simpa using e))
        have hcp := truncCount_pred s.params _ hlft hcnt.2.1
        have hrp := truncCount_pred s.params c0.remaining (by intro e; simp [e] at hle; exact hl1 hle) hcnt.1
        have hfit := hqk.movedFits hq
        have hrem : c0.remaining.toNat ≠ 0 := by omega
        have hmv := truncCount_succ s.params hp c0.sqMoved (by omega)
        have hcw : capWords (consumeDataMove s.params (s.params.dir k) c0 { c5 with rspReady := false }) = capWords c0 := by
          unfold capWords; rw [R]
        simp only [descriptorOk, Bool.and_eq_true, decide_eq_true_eq] at hm
        obtain ⟨⟨⟨⟨m1, m2⟩, m3⟩, m4⟩, m5⟩ := hm
        have hnx : ∀ i : Word, i.toNat % s.params.burstWords = 0 → (nextIndex s.params c0 i).toNat < capWords c0 ∧
            (nextIndex s.params c0 i).toNat % s.params.burstWords = 0 := by
          intro i h
          have hlt : (i.toNat + s.params.burstWords) % capWords c0 < capWords c0 := Nat.mod_lt _ (by omega)
          have hc32 : capWords c0 < 2 ^ 32 := lt_of_le_of_lt (Nat.div_le_self _ _) c0.regs.size.isLt
          rw [nextIndex_toNat s.params c0 i (by omega)]
          refine ⟨hlt, ?_⟩
          obtain ⟨x, hx⟩ := Nat.dvd_of_mod_eq_zero hcap
          rw [hx, Nat.mod_mul_right_mod]
          rw [Nat.add_mod, h]; simp
        have hbw32 : s.params.burstWords < 2 ^ 32 := by have := hp.2.2.2.2.2.2.1; omega
        have hofn : (BitVec.ofNat 32 s.params.burstWords).toNat = s.params.burstWords := by
          rw [BitVec.toNat_ofNat, Nat.mod_eq_of_lt hbw32]
        have hc32 : capWords c0 < 2 ^ 32 := lt_of_le_of_lt (Nat.div_le_self _ _) c0.regs.size.isLt
        have hmul : c0.sqChunk.toNat * s.params.burstWords = (c0.sqChunk.toNat - 1) * s.params.burstWords + s.params.burstWords := by
          obtain ⟨n, hn⟩ := Nat.exists_eq_succ_of_ne_zero hl1
          rw [hn]; simp [Nat.succ_mul]
        cases hd : s.params.dir k with
        | fromMemory =>
          have hdat := hqk.chunkData hq hd
          have hocc : (c0.sqOcc - BitVec.ofNat 32 s.params.burstWords).toNat = c0.sqOcc.toNat - s.params.burstWords := by
            rw [BitVec.toNat_sub, hofn]
            have := c0.sqOcc.isLt
            omega
          rw [hd] at hcw hneng
          refine ⟨fun _ => ?_, fun _ => ?_, fun _ _ => ?_, fun _ h => (nomatch h), fun _ he => ?_, fun _ => ?_⟩
          · unfold descriptorOk
            rw [hcw]
            simp only [consumeDataMove, Bool.and_eq_true, decide_eq_true_eq, hocc, P.sqWr]
            obtain ⟨n1, n2⟩ := hnx _ m4
            exact ⟨⟨⟨⟨by omega, n1⟩, m3⟩, n2⟩, m5⟩
          · simp only [consumeDataMove, hcp, hrp]; omega
          · simp only [consumeDataMove, hcp, hocc]; omega
          · rw [hneng] at he; cases he
          · simp only [consumeDataMove, hmv, hrp]; omega
        | toMemory =>
          have hdat := hqk.chunkSpace hq hd
          have hocc : (c0.sqOcc + BitVec.ofNat 32 s.params.burstWords).toNat = c0.sqOcc.toNat + s.params.burstWords := by
            rw [BitVec.toNat_add, hofn]
            omega
          rw [hd] at hcw hneng
          refine ⟨fun _ => ?_, fun _ => ?_, fun _ h => (nomatch h), fun _ _ => ?_, fun _ he => ?_, fun _ => ?_⟩
          · unfold descriptorOk
            rw [hcw]
            simp only [consumeDataMove, Bool.and_eq_true, decide_eq_true_eq, hocc, P.sqRd]
            obtain ⟨n1, n2⟩ := hnx _ m5
            exact ⟨⟨⟨⟨by omega, m2⟩, n1⟩, m4⟩, n2⟩
          · simp only [consumeDataMove, hcp, hrp]; omega
          · rw [hcw]; simp only [consumeDataMove, hcp, hocc]; omega
          · rw [hneng] at he; cases he
          · simp only [consumeDataMove, hmv, hrp]; omega
      · intro _ _; exact triv _ (by simp [consumeStatusUpdate]) (by simp [consumeStatusUpdate])
      · intro _ _; refine triv _ ?_ ?_ <;> (unfold consumeLockRelease; dsimp only; split <;> simp)
  | stayed tt ht hrd =>
    exact gen _ R (.inl hst) P.sqOcc P.sqRd P.sqWr P.sqChunk P.sqMoved P.remaining
      (fun he h => by rw [P.sqChunk]; exact hqk.chunkLeft (hst ▸ h) (eng he))
  | skipped tt q ht hrd hv hi' hpp =>
    have hq : c0.state = .dataMove ∧ (q = .lockRelease ∨ q = .statusUpdate) := by
      revert hpp; unfold prePost; split
      · rename_i h; simp [h, FsmState.isProtocol] at hpr
      · split
        · split <;> (intro h; cases h)
          · exact ⟨‹_›, .inl rfl⟩
          · exact ⟨‹_›, .inr rfl⟩
        · intro h; cases h
      · intro h; cases h
    have hq2 : q ≠ .dataMove := by rcases hq.2 with rfl | rfl <;> simp
    exact gen _ R (.inr ⟨hq.1, hq2⟩) P.sqOcc P.sqRd P.sqWr P.sqChunk P.sqMoved P.remaining (fun _ h => (hq2 h).elim)
  | posted tt ht hrd hv hi' hpp hg =>
    refine gen _ R (.inl hst) P.sqOcc P.sqRd P.sqWr P.sqChunk P.sqMoved P.remaining (fun _ h => ?_)
    simp only [post] at h ⊢
    rw [hst] at h
    rw [P.sqChunk]
    intro h3
    simp only [prePost, h, h3, if_true] at hpp
    split at hpp <;> cases hpp
  | taken h1 => simp [h1, FsmState.isProtocol] at hpr
  | rested h1 => simp [h1, FsmState.isProtocol] at hpr
  | acked h1 => simp [h1, FsmState.isProtocol] at hpr
  | parked h1 =>
    have := nterm .fromMemory
    simp [postedRequest_of_isTerminal _ h1] at this

end Sys2Proof.Machine
end

