-- ==== Sys2Proof/Laws/Run.lean ====
section
/-!
SUPPORT. A tick as the claims speak of it (Tick, Selects): the channel just before its own state machine writes, the consume, the terminal states, the
arbiter's selection, and the demultiplexer's part with the channel it finds.
-/
namespace Sys2Proof.Machine

/-- A tick of the claims is a tick of the laws. -/
theorem Tick.chanTick {s t : State} {k : Nat} {c c' : Channel} (T : Tick s t k c c') : ∃ c1 c2 c3 c4 c5, ChanTick s t k c c1 c2 c3 c4 c5 c' := by
  obtain ⟨c1, c2, c3, c4, c5, d, hd, X⟩ := step_chan T.step k c T.before
  obtain rfl : d = c' := by have := T.after; rw [hd] at this; exact Option.some.inj this
  exact ⟨c1, c2, c3, c4, c5, X⟩

/-- What the other agents leave of channel k when its own state machine writes, in any state: its own state and working fields, and a running channel's
configuration (R57, R161, R211). -/
structure TickKeeps (s : State) (k : Nat) (c0 c5 : Channel) : Prop where
  state : c5.state = c0.state
  reqType : c5.reqType = c0.reqType
  remaining : c5.remaining = c0.remaining
  ticket : c5.ticket = c0.ticket
  sqOcc : c5.sqOcc = c0.sqOcc
  sqRd : c5.sqRd = c0.sqRd
  sqWr : c5.sqWr = c0.sqWr
  sqChunk : c5.sqChunk = c0.sqChunk
  sqMoved : c5.sqMoved = c0.sqMoved
  valid : c5.reqValid = c0.reqValid ∨ c5.reqValid = false
  regs : c0.regs.running = true → c5.offset = c0.offset ∧ c5.regs = { c0.regs with running := c5.regs.running }

theorem tickKeeps_of_tick {s t : State} {k : Nat} {c0 c1 c2 c3 c4 c5 c' : Channel} (h : ChanTick s t k c0 c1 c2 c3 c4 c5 c') : TickKeeps s k c0 c5 := by
  have e1 : ∃ q, c1 = { c0 with fifo := q } := by
    rcases h.send with e | ⟨-, e⟩
    · exact ⟨c0.fifo, e⟩
    · exact ⟨_, e⟩
  obtain ⟨q1, rfl⟩ := e1
  have e2 : ∃ r o, c2 = { c0 with fifo := q1, regs := r, offset := o } ∧ (c0.regs.running = true → o = c0.offset ∧ r = { c0.regs with running := r.running }) := by
    cases h.access with
    | same => exact ⟨c0.regs, c0.offset, rfl, fun _ => ⟨rfl, rfl⟩⟩
    | config r a => exact ⟨r, c0.offset, rfl, fun b => by simp [b] at a⟩
    | start a => exact ⟨_, _, rfl, fun b => by simp [b] at a⟩
    | stop => exact ⟨_, c0.offset, rfl, fun _ => ⟨rfl, rfl⟩⟩
  obtain ⟨r, o, rfl, hr⟩ := e2
  obtain ⟨q3, e3, -⟩ := portStep_eq s.params (s.params.dir k) (s.port k) c0 { c0 with fifo := q1, regs := r, offset := o }
  rw [← h.port] at e3
  subst e3
  have e4 : ∃ v i, c4 = { c0 with fifo := q3, regs := r, offset := o, reqValid := v, reqIssued := i } ∧ (v = c0.reqValid ∨ v = false) := by
    rcases h.arb with e | ⟨-, -, e⟩
    · exact ⟨c0.reqValid, c0.reqIssued, e, .inl rfl⟩
    · exact ⟨false, true, e, .inr rfl⟩
  obtain ⟨v, i, rfl, hv⟩ := e4
  rcases h.dmx with e | ⟨f, i, n, m, kind, e, c6, -, -, hs, hw, hp, hc5⟩
  · subst e; exact ⟨rfl, rfl, rfl, rfl, rfl, rfl, rfl, rfl, rfl, hv, hr⟩
  · obtain ⟨d0, d1, d2, q, rfl, -⟩ := processFlit_some hp
    split at hc5 <;> subst hc5 <;> exact ⟨rfl, rfl, rfl, rfl, rfl, rfl, rfl, rfl, rfl, hv, hr⟩

/-- A bus state posts a request (R204, R206). -/
theorem isBus_posted {d : Direction} {q : FsmState} (h : q.isBus = true) : ∃ t, postedRequest d q = some t := by
  cases q <;> simp [FsmState.isBus, FsmState.isProtocol] at h <;> exact ⟨_, rfl⟩

/-- BeforeFsm from the claims' premises. -/
theorem Tick.beforeFsm {s t : State} {k : Nat} {c c1 c2 c3 c4 c5 c' : Channel} (hh : HandshakeOk s) (T : Tick s t k c c') (X : ChanTick s t k c c1 c2 c3 c4 c5 c') : BeforeFsm s k c c5 := by
  refine (beforeFsm_of_tick X (hh.chan k c T.before) ?_ T.before).1
  intro hb hk
  obtain ⟨d, hd, hi⟩ := hh.dmx hb
  rw [hk, T.before] at hd; cases hd; exact hi

/-- A quiet channel is still quiet when its own state machine writes. -/
theorem BeforeFsm.quiet {s : State} {k : Nat} {c c5 : Channel} (B : BeforeFsm s k c c5) (hq : c.quiet) : c5.quiet := by
  obtain ⟨a, b, d⟩ := hq
  rcases B.flags with ⟨x, y, z⟩ | ⟨x, -⟩ | ⟨x, -⟩
  · exact ⟨x.trans a, y.trans b, z.trans d⟩
  · simp [a] at x
  · simp [b] at x

/-- A channel with a response ready has nothing posted or outstanding when its own state machine writes (R211). -/
theorem BeforeFsm.ready {s : State} {k : Nat} {c c5 : Channel} (B : BeforeFsm s k c c5) (hh : ChanHandshakeOk (s.params.dir k) c) (hr : c.rspReady = true) :
    c5.reqValid = false ∧ c5.reqIssued = false := by
  have hv : c.reqValid = false := by
    cases hx : c.reqValid with
    | false => rfl
    | true => simp [(hh.validAlone hx).2] at hr
  have hi : c.reqIssued = false := by
    cases hx : c.reqIssued with
    | false => rfl
    | true => simp [hh.issuedAlone hx] at hr
  rcases B.flags with ⟨x, y, z⟩ | ⟨x, -⟩ | ⟨x, -⟩
  · exact ⟨x.trans hv, y.trans hi⟩
  · simp [hv] at x
  · simp [hi] at x

/-- With a response ready, a bus state consumes, but for a descriptor that check_descriptor refuses (R207, R269). -/
theorem ChanTick.consume_eq {s t : State} {k : Nat} {c c1 c2 c3 c4 c5 c' : Channel} (hb : c.state.isBus = true) (hr : c.rspReady = true)
    (hd : descriptorFault s.params c = false) (X : ChanTick s t k c c1 c2 c3 c4 c5 c') :
   c' = consume s.params (s.params.dir k) c c5 := by
  obtain ⟨ty, hty⟩ := isBus_posted (d := s.params.dir k) hb
  have hf := X.fsm
  unfold chanStep at hf
  simpa only [hty, busArm, hr, hd, if_true, Bool.false_eq_true, if_false] using hf

/-- A terminal state stays or leaves as RUNNING says (R212, R213). -/
theorem ChanTick.terminal_eq {s t : State} {k : Nat} {c c1 c2 c3 c4 c5 c' : Channel} (ht : c.state.isTerminal = true) (X : ChanTick s t k c c1 c2 c3 c4 c5 c') :
   c' = leaveTerminal c.regs.running c5 := by
  have hf := X.fsm
  unfold chanStep at hf
  rw [postedRequest_of_isTerminal _ ht] at hf
  cases hq : c.state <;> simp [hq, FsmState.isTerminal, FsmState.isError] at ht <;> simpa [hq] using hf

/-- The selecting step in a tick that starts with the generator not sending: nothing, or the selected channel (R301). What it does to channels is
ChanTick's. -/
theorem step_select {s t : State} (h : step s = .next t) (hb : s.gen.busy = false) :
    (selected s = none ∧ t.gen = s.gen) ∨ ∃ k, selected s = some k ∧ t.gen = ⟨true, k, 0, k⟩ := by
  obtain ⟨s1, s2, s3, sa, s4, P⟩ := step_parts h
  have hg : s3.gen = s.gen := by
    have := P.access.gen
    obtain ⟨m, b, rfl, -⟩ := P.command
    rw [this, P.send.idle hb]
  have ht : t.gen = sa.gen := by
    obtain ⟨_, _, he, -⟩ := fsmPhase_frame s s4
    rw [P.fin, endTick_gen, he]; exact P.dmx.gen
  rcases P.arb.act with ⟨hn, he, -⟩ | ⟨-, k, hk, he, -⟩
  · exact .inl ⟨hn hb, ht.trans (he.trans hg)⟩
  · exact .inr ⟨k, hk, ht.trans he⟩

theorem hasPosted_iff {s : State} {j : Nat} : hasPosted s j = true ↔ ∃ c, s.chans[j]? = some c ∧ c.reqValid = true := by
  unfold hasPosted; split
  · rename_i c hc; exact ⟨fun h => ⟨c, hc, h⟩, fun ⟨d, hd, h⟩ => by rw [hc] at hd; cases hd; exact h⟩
  · rename_i hc; exact ⟨fun h => by simp at h, fun ⟨d, hd, h⟩ => by rw [hc] at hd; cases hd⟩

/-- The channel the demultiplexer finds in a tick, and the demultiplexer's step itself (R340, R373). -/
theorem Tick.dmx_step {s t : State} {k : Nat} {c c' : Channel} (T : Tick s t k c c') :
    ∃ c2 c4 sa, (c2.fifo = c.fifo ∨ (GenPopped s k c ∧ c2.fifo = c.fifo.tail)) ∧ (GenPopped s k c → c2.fifo = c.fifo.tail) ∧ (∃ q r o, c2 = { c with fifo := q, regs := r, offset := o }) ∧
      (c4 = portStep s.params (s.params.dir k) (s.port k) c c2 ∨ (s.gen.busy = false ∧ selected s = some k ∧ c4 = issueRequest (portStep s.params (s.params.dir k) (s.port k) c c2))) ∧
      sa.chans[k]? = some c4 ∧ sa.params = s.params ∧ sa.dmx = s.dmx ∧ t.dmx = (dmxPhase s sa).dmx ∧
      (∀ f ∈ (dmxPhase s sa).faults, f ∈ t.faults) ∧
      ∃ c5, (dmxPhase s sa).chans[k]? = some c5 ∧ c' = chanStep s.params (s.params.dir k) (s.port k) c c5 := by
  obtain ⟨h, hc, hc'⟩ := T
  obtain ⟨s1, s2, s3, sa, s4, P⟩ := step_parts h
  have hdE := P.dmxEnd
  have hfE := P.faultsEnd.kept
  have hcE := @TickParts.chanEnd _ _ _ _ _ _ _ P
  obtain ⟨m, b, rfl, -⟩ := P.command
  obtain ⟨c1, hc1, e1⟩ : ∃ c1, s1.chans[k]? = some c1 ∧ (c1 = c ∨ (GenPopped s k c ∧ c1 = { c with fifo := c.fifo.tail })) := by
    rcases P.send.chan k c hc with h | ⟨g, h⟩
    · exact ⟨_, h, .inl rfl⟩
    · exact ⟨_, h, .inr ⟨g, rfl⟩⟩
  have hpop : GenPopped s k c → c1 = { c with fifo := c.fifo.tail } := fun hp =>
    Option.some.inj (hc1.symm.trans (P.send.popped k c hc hp))
  obtain ⟨c2, hc2, hm⟩ := P.access.chan k c1 hc1
  obtain ⟨c4, hc4, he4, -⟩ := P.arb.chan (portPhase_getElem? hc hc2)
  obtain ⟨c5, hc5, -⟩ := P.dmx.chan hc hc4
  have e2 : ∃ r o, c2 = { c1 with regs := r, offset := o } := by
    cases hm with
    | same => exact ⟨c1.regs, c1.offset, rfl⟩
    | config r => exact ⟨r, c1.offset, rfl⟩
    | start => exact ⟨_, _, rfl⟩
    | stop => exact ⟨_, c1.offset, rfl⟩
  obtain ⟨r, o, e2⟩ := e2
  have hs4 := P.dmxEq
  subst hs4
  refine ⟨c2, c4, sa, ?_, fun hp => by rw [e2, hpop hp], ?_, he4, hc4, P.arb.params.trans (P.access.params.trans P.send.params), P.arb.dmx.trans (P.access.dmx.trans P.send.dmx), hdE, hfE, c5, hc5, ?_⟩
  · rcases e1 with rfl | ⟨g, rfl⟩
    · left; rw [e2]
    · right; exact ⟨g, by rw [e2]⟩
  · rcases e1 with rfl | ⟨g, rfl⟩
    · exact ⟨c1.fifo, r, o, e2⟩
    · exact ⟨_, r, o, e2⟩
  · rw [hcE hc hc5] at hc'
    exact (Option.some.inj hc').symm

/-- A channel with a request outstanding reaches the demultiplexer with its handshake as it was. -/
theorem outstanding_before_dmx {s : State} {k : Nat} {c c2 c4 : Channel} (hh : HandshakeOk s) (hc : s.chans[k]? = some c) (hi : c.reqIssued = true)
   (h2 : ∃ q r o, c2 = { c with fifo := q, regs := r, offset := o })
   (h4 : c4 = portStep s.params (s.params.dir k) (s.port k) c c2 ∨ (s.gen.busy = false ∧ selected s = some k ∧ c4 = issueRequest (portStep s.params (s.params.dir k) (s.port k) c c2))) :
   (∃ q r o, c4 = { c with fifo := q, regs := r, offset := o }) ∧ c.reqValid = false ∧ c.rspReady = false ∧ ∃ ty, postedRequest (s.params.dir k) c.state = some ty := by
  have H := hh.chan k c hc
  have hv : c.reqValid = false := by
    cases hx : c.reqValid with
    | false => rfl
    | true => rw [(H.validAlone hx).1] at hi; cases hi
  refine ⟨?_, hv, H.issuedAlone hi, _, H.posted (.inr hi)⟩
  obtain ⟨q, r, o, rfl⟩ := h2
  rcases h4 with rfl | ⟨-, hs, -⟩
  · obtain ⟨q', e, -⟩ := portStep_eq s.params (s.params.dir k) (s.port k) c { c with fifo := q, regs := r, offset := o }
    exact ⟨q', r, o, e⟩
  · obtain ⟨d, hd, hv'⟩ := selected_posted hs
    rw [hc] at hd; cases hd; rw [hv] at hv'; cases hv'

/-- The FIFO of a FROM_MEMORY channel when the demultiplexer writes: the port has popped the head it saw, if it was ready (R373, R374). -/
theorem fifo_before_dmx {s : State} {k : Nat} {c c2 c4 : Channel} (hdir : s.params.dir k = .fromMemory) (hf2 : c2.fifo = c.fifo)
    (h4 : c4 = portStep s.params (s.params.dir k) (s.port k) c c2 ∨ (s.gen.busy = false ∧ selected s = some k ∧ c4 = issueRequest (portStep s.params (s.params.dir k) (s.port k) c c2))) :
    c4.fifo = if (s.port k).rready = true then c.fifo.tail else c.fifo := by
  have : (portStep s.params (s.params.dir k) (s.port k) c c2).fifo = if (s.port k).rready = true then c.fifo.tail else c.fifo := by
    rw [hdir]; unfold portStep portRvalid
    by_cases hr : (s.port k).rready = true
    · by_cases hf : c.fifo = []
      · simp [hr, hf, hf2]
      · have e : c.fifo.isEmpty = false := by simpa using hf
        simp [hr, hf2, e]
    · simp [hr, hf2]
  rcases h4 with rfl | ⟨-, -, rfl⟩ <;> exact this

/-- The generator does not pop a FROM_MEMORY channel with a request outstanding: that request is no DATA_WRITE (R206). -/
theorem not_genPopped {s : State} {k : Nat} {c : Channel} (hh : HandshakeOk s) (hc : s.chans[k]? = some c) (hi : c.reqIssued = true) (hdir : s.params.dir k = .fromMemory) : ¬GenPopped s k c := by
  intro g
  have hpost := (hh.chan k c hc).posted (.inr hi)
  rw [g.2.2.1, hdir] at hpost
  revert hpost; cases c.state <;> simp [postedRequest]

end Sys2Proof.Machine
end

