-- ==== Sys2Proof/Laws/Faults.lean ====
section
/-!
SUPPORT. Which faults each part of a tick records, said once: the generator's sending step (R312), a register access (R164 to R180), the demultiplexer (R341 to R348)
and the consuming of a descriptor (R269).
-/
namespace Sys2Proof.Machine

/-! ### The generator -/

/-- GEN_FIFO_EMPTY, and no other fault, by the sending step (R312). -/
theorem send_faults {s s1 : State} (h : sendPhase s = .next s1) (f : Fault) : f ∈ s1.faults ↔ f ∈ s.faults ∨ (f = .genFifoEmpty ∧ FaultCause s .genFifoEmpty) := by
  rcases sendPhase_next h with ⟨hb, rfl⟩ | ⟨hb, c, hc, h⟩
  · constructor
    · exact .inl
    · rintro (h | ⟨-, h, -⟩)
      · exact h
      · rw [hb] at h; cases h
  · have hcause : FaultCause s .genFifoEmpty ↔ (c.reqType = .dataWrite ∧ c.fifo = []) := by
      constructor
      · rintro ⟨-, d, hd, h⟩
        rw [hc] at hd; cases hd; exact h
      · intro h; exact ⟨hb, c, hc, h⟩
    rw [hcause]
    obtain ⟨c', hc', ⟨h1, h2, rfl⟩ | ⟨hne, -, rfl⟩ | ⟨hne, -, rfl⟩⟩ := sendFlit_next h <;> (rw [hc] at hc'; cases hc')
    · rw [State.mem_recordFault]; simp [h1, h2]
    · simp only [hne, and_false, or_false]
    · simp only [hne, and_false, or_false]

/-! ### The register access -/

/-- The data word of a write, if the instruction is one. -/
def dataOf : Instr → Option Word
  | .wrBufferAddrLo _ v => some v
  | .wrBufferAddrHi _ v => some v
  | .wrDescAddrLo _ v => some v
  | .wrDescAddrHi _ v => some v
  | .wrLockAddrLo _ v => some v
  | .wrLockAddrHi _ v => some v
  | .wrDirection _ v => some v
  | .wrMode _ v => some v
  | .wrSize _ v => some v
  | .wrRunning _ v => some v
  | .wrStatus _ v => some v
  | .wrScratch _ v => some v
  | .wrReserved _ v => some v
  | _ => none

/-- A read access decodes to no write (R126). -/
theorem decodeRead_noData (p : Params) (w : BitVec 16) : dataOf (decodeRead p w) = none := by
  unfold decodeRead
  split
  · rfl
  split
  · cases hr : rdChannelRegister (wordBlock w) (wordIndex w) with
    | none => rfl
    | some i =>
      unfold rdChannelRegister at hr
      split at hr <;> cases hr <;> rfl
  · split <;> rfl

/-- A write decoded from an access carries the access's data word (R120). -/
theorem decode_data {p : Params} {w : BitVec 16} {d v : Word} {i : Instr} (h : decode p (.cfg w d) = .ok i) (hv : dataOf i = some v) : v = d := by
  simp only [decode] at h
  split at h
  · cases h
    unfold decodeWrite at hv
    split at hv
    · simpa [dataOf, eq_comm] using hv
    split at hv
    · cases hr : wrChannelRegister (wordBlock w) d (wordIndex w) with
      | none => rw [hr] at hv; simpa [dataOf, eq_comm] using hv
      | some i =>
        rw [hr] at hv
        unfold wrChannelRegister at hr
        split at hr <;> cases hr <;> simpa [dataOf, eq_comm] using hv
    · split at hv <;> simpa [dataOf, eq_comm] using hv
  · cases h
    rw [decodeRead_noData] at hv; cases hv

/-- The write i is a configuration defect in s (R164, R168, R172, R176, R178, R180). -/
def DefectOf (s : State) (i : Instr) : Prop :=
  ∃ k c v, s.chans[k]? = some c ∧ c.regs.running = false ∧
      let top := 2 ^ s.params.paddrWidth
      ((i = .wrBufferAddrLo k v ∧ v.toNat % s.params.burstBytes ≠ 0) ∨
       (i = .wrDescAddrLo k v ∧ v.toNat % 4 ≠ 0) ∨
       (i = .wrLockAddrLo k v ∧ v.toNat % 4 ≠ 0) ∨
       (i = .wrMode k v ∧ 2 < v.toNat) ∨
       (i = .wrSize k v ∧ v.toNat % s.params.burstBytes ≠ 0) ∨
       (i = .wrRunning k v ∧ v.toNat % 2 = 1 ∧
        (c.regs.size = 0 ∨ top < c.regs.bufferAddr.toNat + c.regs.size.toNat ∨
          (c.regs.mode = .sharedQueue ∧ (top < c.regs.descAddr.toNat + 12 ∨ top < c.regs.lockAddr.toNat + 8)))))

/-- The stop i is in the middle of a transaction (R180). -/
def CancelOf (s : State) (i : Instr) : Prop :=
  ∃ k c v, s.chans[k]? = some c ∧ c.regs.running = true ∧ i = .wrRunning k v ∧ v.toNat % 2 = 0 ∧
      c.state ≠ .success ∧ c.state ≠ .errorLock ∧ c.state ≠ .errorDescriptor ∧ c.state ≠ .errorData ∧
      (c.state = .idle → (s.port k).req = true)

theorem getLsbD_zero (v : Word) : v.getLsbD 0 = decide (v.toNat % 2 = 1) := by
  simp [BitVec.getLsbD, Nat.testBit_zero]

/-- MODE takes 0, 1 and 2 only (R176). -/
theorem modeOfWord_bad (v : Word) : (modeOfWord v).isSome = false ↔ 2 < v.toNat := by
  unfold modeOfWord
  by_cases h0 : v = 0
  · subst h0; simp
  by_cases h1 : v = 1
  · subst h1; simp
  by_cases h2 : v = 2
  · subst h2; simp
  have e : ∀ n : Word, v ≠ n → v.toNat ≠ n.toNat := fun n h e => h (BitVec.eq_of_toNat_eq e)
  have e0 := e 0 h0; have e1 := e 1 h1; have e2 := e 2 h2
  have e0 : v.toNat ≠ 0 := e0
  have e1 : v.toNat ≠ 1 := e1
  have e2 : v.toNat ≠ 2 := e2
  have e : (modeOfWord v).isSome = false := by unfold modeOfWord; rw [if_neg h0, if_neg h1, if_neg h2]; rfl
  unfold modeOfWord at e
  simp only [e, true_iff]; omega

/-- CONFIG_DEFECT, and no other fault, by a write that has to find the channel stopped. -/
theorem writeStopped_faults {s t : State} {k : Nat} {l : Bool} {g : ChanRegs → ChanRegs} (h : writeStopped s k l g = .next t) (f : Fault) :
    f ∈ t.faults ↔ f ∈ s.faults ∨ (f = .configDefect ∧ ∃ c, s.chans[k]? = some c ∧ c.regs.running = false ∧ l = false) := by
  obtain ⟨c, hc, h⟩ := withChan_next h
  have : (∃ c, s.chans[k]? = some c ∧ c.regs.running = false ∧ l = false) ↔ (c.regs.running = false ∧ l = false) := by
    constructor
    · rintro ⟨d, hd, h⟩; rw [hc] at hd; cases hd; exact h
    · intro h; exact ⟨c, hc, h⟩
  rw [this]
  split at h
  · rename_i hr; cases h; simp [hr]
  · rename_i hr
    split at h
    · rename_i hl; cases h; simp [hl]
    · rename_i hl; cases h; rw [State.mem_recordFault]; simp at hr hl; simp [hr, hl]

/-- The faults a register access records. -/
theorem exec_faults {s t : State} {i : Instr} (hi : i.format = .cfg) (h : exec i s = .next t) (f : Fault) :
    f ∈ t.faults ↔ f ∈ s.faults ∨ (f = .configDefect ∧ DefectOf s i) ∨ (f = .cancelUnsupported ∧ CancelOf s i) := by
  have none : t.faults = s.faults → (∀ k v, i ≠ .wrBufferAddrLo k v ∧ i ≠ .wrDescAddrLo k v ∧ i ≠ .wrLockAddrLo k v ∧ i ≠ .wrMode k v ∧ i ≠ .wrSize k v ∧ i ≠ .wrRunning k v) →
      (f ∈ t.faults ↔ f ∈ s.faults ∨ (f = .configDefect ∧ DefectOf s i) ∨ (f = .cancelUnsupported ∧ CancelOf s i)) := by
    intro e hn
    have h1 : ¬DefectOf s i := by
      rintro ⟨k, c, v, -, -, h⟩
      obtain ⟨n1, n2, n3, n4, n5, n6⟩ := hn k v
      rcases h with ⟨h, -⟩ | ⟨h, -⟩ | ⟨h, -⟩ | ⟨h, -⟩ | ⟨h, -⟩ | ⟨h, -⟩ <;> contradiction
    have h2 : ¬CancelOf s i := by
      rintro ⟨k, c, v, -, -, h, -⟩
      exact (hn k v).2.2.2.2.2 h
    rw [e]; simp [h1, h2]
  have ws : ∀ {k v l g}, dataOf i = some v → (∀ k v, i ≠ .wrRunning k v) → writeStopped s k l g = .next t → (DefectOf s i ↔ ∃ c, s.chans[k]? = some c ∧ c.regs.running = false ∧ l = false) →
      (f ∈ t.faults ↔ f ∈ s.faults ∨ (f = .configDefect ∧ DefectOf s i) ∨ (f = .cancelUnsupported ∧ CancelOf s i)) := by
    intro k v l g _ hr h hd
    rw [hd, writeStopped_faults h]
    have h2 : ¬CancelOf s i := by
      rintro ⟨k, c, v, -, -, h, -⟩
      exact hr _ _ h
    simp [h2]
  cases i with
  | wrBufferAddrLo k v =>
    simp only [exec, execWrBufferAddrLo] at h
    refine ws rfl (by simp) h ?_
    simp [DefectOf, burstAligned]
  | wrDescAddrLo k v =>
    simp only [exec, execWrDescAddrLo] at h
    refine ws rfl (by simp) h ?_
    simp [DefectOf, wordAligned]
  | wrLockAddrLo k v =>
    simp only [exec, execWrLockAddrLo] at h
    refine ws rfl (by simp) h ?_
    simp [DefectOf, wordAligned]
  | wrMode k v =>
    simp only [exec, execWrMode] at h
    refine ws rfl (by simp) h ?_
    rw [modeOfWord_bad]
    simp [DefectOf]
  | wrSize k v =>
    simp only [exec, execWrSize] at h
    refine ws rfl (by simp) h ?_
    simp [DefectOf, burstAligned]
  | wrBufferAddrHi k v =>
    simp only [exec, execWrBufferAddrHi] at h
    exact ws rfl (by simp) h (by simp [DefectOf])
  | wrDescAddrHi k v =>
    simp only [exec, execWrDescAddrHi] at h
    exact ws rfl (by simp) h (by simp [DefectOf])
  | wrLockAddrHi k v =>
    simp only [exec, execWrLockAddrHi] at h
    exact ws rfl (by simp) h (by simp [DefectOf])
  | wrRunning k v =>
    obtain ⟨c, hc, h⟩ := withChan_next (show withChan s k _ = _ from h)
    have hd : DefectOf s (.wrRunning k v) ↔ (c.regs.running = false ∧ v.toNat % 2 = 1 ∧ startDefect s.params c.regs = true) := by
      simp [DefectOf, startDefect, hc, or_assoc]
    have hx : CancelOf s (.wrRunning k v) ↔ (c.regs.running = true ∧ v.toNat % 2 = 0 ∧ stopIsSafe c.state (s.port k).req = false) := by
      simp only [CancelOf]
      constructor
      · rintro ⟨k', c', v', h1, h2, h3, h4, h5⟩
        cases h3; rw [hc] at h1; cases h1
        refine ⟨h2, h4, ?_⟩
        revert h5; cases c.state <;> simp [stopIsSafe, FsmState.isTerminal, FsmState.isError]
      · rintro ⟨h1, h2, h3⟩
        refine ⟨k, c, v, hc, h1, rfl, h2, ?_⟩
        revert h3; cases c.state <;> simp [stopIsSafe, FsmState.isTerminal, FsmState.isError]
    rw [hd, hx]
    dsimp only at h
    have hl := getLsbD_zero v
    split at h
    · rename_i e1 e2
      rw [hl] at e1
      have e1 : v.toNat % 2 = 1 := by simpa using e1
      split at h
      · rename_i hsd; cases h; rw [State.mem_recordFault]; simp [e1, e2, hsd]
      · rename_i hsd; cases h; simp [e1, e2, hsd]
    · rename_i e1 e2
      rw [hl] at e1
      have e1 : v.toNat % 2 = 0 := by simp at e1; omega
      split at h
      · rename_i hsd; cases h; simp [e1, e2, hsd]
      · rename_i hsd; cases h; rw [State.mem_recordFault]; simp [e1, e2, hsd]
    · rename_i e1 e2 
      cases h
      rw [hl] at *
      cases hr : c.regs.running
      · have : ¬ v.toNat % 2 = 1 := fun e => by simp [e, hr] at e1
        simp [this]
      · have : ¬ v.toNat % 2 = 0 := fun e => by simp [e, hr] at e2
        simp [this]
  | rdScratch j =>
    have h : execRdScratch j s = _ := h
    unfold execRdScratch at h
    split at h <;> cases h
    exact none rfl (by simp)
  | wrScratch j v =>
    have h : execWrScratch j v s = _ := h
    unfold execWrScratch at h
    split at h <;> cases h
    exact none rfl (by simp)
  | rdReserved a => cases h; exact none rfl (by simp)
  | wrReserved a v => cases h; exact none rfl (by simp)
  | _ =>
    first
    | (obtain ⟨c, hc, h⟩ := withChan_next h; cases h; exact none rfl (by simp))
    | cases hi

/-- The faults the access of a tick records, from what stood at its start: the generator and the bus before it touch no register. -/
theorem access_faults {s s1 s2 s3 : State} (S : SendStep s s1) (h2 : s2.chans = s1.chans ∧ s2.params = s1.params ∧ s2.env = s1.env ∧ s2.held = s1.held) (h : accessPhase s2 = .next s3) (f : Fault) :
    f ∈ s3.faults ↔ f ∈ s2.faults ∨ (f = .configDefect ∧ FaultCause s .configDefect) ∨ (f = .cancelUnsupported ∧ FaultCause s .cancelUnsupported) := by
  obtain ⟨hch, hp, he, hh⟩ := h2
  have hp : s2.params = s.params := hp.trans S.params
  have hin : s2.input = s.input := by simp [State.input, he, S.env]
  have hport : ∀ k, s2.port k = s.port k := by intro k; simp [State.port, hin, hh, S.held]
  have hc1 : ∀ (k : Nat) (c : Channel), s.chans[k]? = some c → ∃ q, s2.chans[k]? = some { c with fifo := q } := by
    intro k c hc; rw [hch]
    rcases S.chan k c hc with h | ⟨-, h⟩
    · exact ⟨c.fifo, h⟩
    · exact ⟨_, h⟩
  have hc2 : ∀ (k : Nat) (c : Channel), s2.chans[k]? = some c → ∃ q, s.chans[k]? = some { c with fifo := q } := by
    intro k c hc
    have : k < s.chans.length := by rw [← S.chansLen, ← hch]; exact (List.getElem?_eq_some_iff.1 hc).1
    obtain ⟨d, hd⟩ : ∃ d, s.chans[k]? = some d := ⟨_, List.getElem?_eq_getElem this⟩
    obtain ⟨q, hq⟩ := hc1 k d hd
    rw [hc] at hq; cases hq; exact ⟨d.fifo, hd⟩
  unfold accessPhase fetchAccess at h
  rw [hin] at h
  cases ha : s.input.cfg with
  | none =>
    rw [ha] at h; cases h
    simp [FaultCause, ha]
  | some a =>
    rw [ha] at h
    obtain ⟨i, hi, hf⟩ := decode_cfg s2.params a.word a.wdata
    simp only [Option.map_some, runRaw, hi] at h
    rw [exec_faults hf h]
    clear h
    rw [hp] at hi
    have hw : ∀ j, decode s.params (.cfg a.word a.wdata) = .ok j ↔ i = j := by
      intro j; rw [hi]; constructor
      · intro h; cases h; rfl
      · rintro rfl; rfl
    have hd : ∀ v, dataOf i = some v → v = a.wdata := fun v => decode_data hi
    have e1 : DefectOf s2 i ↔ FaultCause s .configDefect := by
      constructor
      · rintro ⟨k, c, v, hc, hr, h⟩
        obtain ⟨q, hq⟩ := hc2 k c hc
        refine ⟨a, k, _, ha, hq, hr, ?_⟩
        simp only [hw, hp] at h ⊢
        rcases h with ⟨rfl, h⟩ | ⟨rfl, h⟩ | ⟨rfl, h⟩ | ⟨rfl, h⟩ | ⟨rfl, h⟩ | ⟨rfl, h⟩ <;> (obtain rfl := hd _ rfl)
        · exact .inl ⟨rfl, h⟩
        · exact .inr (.inl ⟨rfl, h⟩)
        · exact .inr (.inr (.inl ⟨rfl, h⟩))
        · exact .inr (.inr (.inr (.inl ⟨rfl, h⟩)))
        · exact .inr (.inr (.inr (.inr (.inl ⟨rfl, h⟩))))
        · exact .inr (.inr (.inr (.inr (.inr ⟨rfl, h⟩))))
      · rintro ⟨a', k, c, ha', hc, hr, h⟩
        rw [ha] at ha'; cases ha'
        obtain ⟨q, hq⟩ := hc1 k c hc
        refine ⟨k, _, a.wdata, hq, hr, ?_⟩
        simp only [hw, hp] at h ⊢
        exact h
    have e2 : CancelOf s2 i ↔ FaultCause s .cancelUnsupported := by
      constructor
      · rintro ⟨k, c, v, hc, hr, rfl, h⟩
        obtain ⟨q, hq⟩ := hc2 k c hc
        obtain rfl := hd _ rfl
        rw [hport] at h
        exact ⟨a, k, _, ha, hq, hr, (hw _).2 rfl, h⟩
      · rintro ⟨a', k, c, ha', hc, hr, hi', h⟩
        rw [ha] at ha'; cases ha'
        obtain ⟨q, hq⟩ := hc1 k c hc
        refine ⟨k, _, a.wdata, hq, hr, (hw _).1 hi', ?_⟩
        rw [hport]; exact h
    rw [e1, e2]

/-! ### The demultiplexer -/

/-- A data word comes in on a FROM_MEMORY channel's data burst only (R342). -/
theorem rspShape_dataIn {p : Params} {d : Direction} {q : FsmState} {n : Nat} {kind : RspKind} (h : rspShape p d q = some (n, kind)) :
    kind = .dataIn ↔ d = .fromMemory ∧ (q = .bulkDataMove ∨ q = .dataMove) := by
  cases q <;> simp [rspShape] at h <;> obtain ⟨-, rfl⟩ := h <;> cases d <;> simp

/-- The bus states are those with a shape (R127, R342). -/
theorem rspShape_isBus {p : Params} {d : Direction} {q : FsmState} : (rspShape p d q).isSome = q.isBus := by
  cases q <;> rfl

/-- A state that posts a request is a bus state (R206). -/
theorem isBus_of_posted {d : Direction} {q : FsmState} {t : ReqType} (h : postedRequest d q = some t) : q.isBus = true := by
  cases q <;> simp [postedRequest] at h <;> rfl

/-- Taking a flit records FIFO_OVERFLOW for a data word and a full FIFO, and nothing else (R345). -/
theorem takeRsp_faults {k i n : Nat} {kind : RspKind} {e : Bool} {d : Dmx} {r : RspFlit} {s : State} {c : Channel} (hc : s.chans[k]? = some c) (f : Fault) :
    f ∈ (takeRsp k i n kind e d r s).faults ↔ f ∈ s.faults ∨ (f = .fifoOverflow ∧ kind = .dataIn ∧ s.params.fifoDepth ≤ c.fifo.length) := by
  unfold takeRsp
  rw [hc]
  dsimp only
  cases kind with
  | word => simp [processFlit]
  | dataOut => simp [processFlit]
  | dataIn =>
    by_cases h : s.params.fifoDepth ≤ c.fifo.length
    · simp only [processFlit, h, if_true, State.mem_recordFault]; simp
    · simp [processFlit, h]

/-- A channel with a request outstanding when the demultiplexer writes: a FROM_MEMORY channel's FIFO is as the port left it (R373). -/
theorem TickParts.outstanding {s s1 s2 s3 sa s4 t : State} (P : TickParts s s1 s2 s3 sa s4 t) (hh : HandshakeOk s) {k : Nat} {c : Channel} (hc : s.chans[k]? = some c) (hi : c.reqIssued = true) :
    ∃ c4, sa.chans[k]? = some c4 ∧ (s.params.dir k = .fromMemory → c4.fifo = if (s.port k).rready = true then c.fifo.tail else c.fifo) ∧
     ∃ ty, postedRequest (s.params.dir k) c.state = some ty ∧ c.reqType = ty := by
  have H := hh.chan k c hc
  have hpost := H.posted (.inr hi)
  have harb := P.arb
  have hacc := P.access
  have hsend := P.send
  obtain ⟨m, b, rfl, -⟩ := P.command
  have hv : c.reqValid = false := by
    cases hx : c.reqValid with
    | false => rfl
    | true => rw [(H.validAlone hx).1] at hi; cases hi
  obtain ⟨c1, hc1, e1⟩ : ∃ c1, s1.chans[k]? = some c1 ∧ (s.params.dir k = .fromMemory → c1.fifo = c.fifo) := by
    rcases hsend.chan k c hc with h | ⟨g, h⟩
    · exact ⟨_, h, fun _ => rfl⟩
    · refine ⟨_, h, fun hd => ?_⟩
      exfalso
      rw [g.2.2.1, hd] at hpost
      revert hpost; cases c.state <;> simp [postedRequest]
  obtain ⟨c2, hc2, hm⟩ := hacc.chan k c1 hc1
  have e2 : c2.fifo = c1.fifo := by cases hm <;> rfl
  obtain ⟨c4, hc4, he4, -⟩ := harb.chan (portPhase_getElem? hc hc2)
  refine ⟨c4, hc4, fun hd => ?_, _, hpost, rfl⟩
  have : c4.fifo = (portStep s.params (s.params.dir k) (s.port k) c c2).fifo := by
    rcases he4 with rfl | ⟨-, hs, rfl⟩
    · rfl
    · rfl
  rw [this, hd]
  simp only [portStep, portRvalid]
  have e := e2.trans (e1 hd)
  by_cases hr : (s.port k).rready = true
  · by_cases hf : c.fifo = []
    · simp [hr, hf, e]
    · have : c.fifo.isEmpty = false := by simpa using hf
      simp [hr, e, this]
  · simp [hr, e]

/-- BUS_PROTOCOL and FIFO_OVERFLOW, and no other fault, by the demultiplexer (R341, R342, R345, R347, R348). -/
theorem TickParts.dmx_faults {s s1 s2 s3 sa s4 t : State} (P : TickParts s s1 s2 s3 sa s4 t) (hs : ShapeOk s) (hh : HandshakeOk s) (f : Fault) :
    f ∈ s4.faults ↔ f ∈ sa.faults ∨ (f = .busProtocol ∧ FaultCause s .busProtocol) ∨ (f = .fifoOverflow ∧ FaultCause s .fifoOverflow) := by
  have hpar : sa.params = s.params := by
    have h1 := P.arb.params; have h2 := P.access.params; have h3 := P.send.params
    obtain ⟨m, b, rfl, -⟩ := P.command
    exact h1.trans (h2.trans h3)
  rw [P.dmxEq]
  unfold dmxPhase
  cases hr : s.bus.rsp with
  | none => simp [FaultCause, hr]
  | some r =>
    dsimp only
    by_cases hb : s.dmx.busy = true
    · simp only [hb, if_true]
      unfold laterFlit
      obtain ⟨c, hc, hi⟩ := hh.dmx hb
      by_cases ht : r.rtag = s.dmx.ch
      · obtain ⟨c4, hc4, hf4, ty, hty, -⟩ := P.outstanding hh hc hi
        have hbus := isBus_of_posted hty
        obtain ⟨⟨n, kind⟩, hsh⟩ := Option.isSome_iff_exists.1 ((rspShape_isBus (p := s.params) (d := s.params.dir s.dmx.ch) (q := c.state)).trans hbus)
        simp only [ht, if_true, hc, hsh]
        rw [takeRsp_faults hc4, hpar]
        have hbp : ¬FaultCause s .busProtocol := by
          rintro ⟨r', hr', h⟩
          rw [hr] at hr'; cases hr'
          rcases h with ⟨h, -⟩ | ⟨-, h⟩
          · rw [hb] at h; cases h
          · exact h ht
        have hfo : FaultCause s .fifoOverflow ↔ (kind = .dataIn ∧ s.params.fifoDepth ≤ c4.fifo.length) := by
          rw [rspShape_dataIn hsh]
          constructor
          · rintro ⟨r', c', hr', hc', -, hst, hd, hl⟩
            rw [hr] at hr'; cases hr'
            rw [ht] at hc' hd hl
            rw [hc] at hc'; cases hc'
            exact ⟨⟨hd, hst⟩, by rw [hf4 hd]; exact hl⟩
          · rintro ⟨⟨hd, hst⟩, hl⟩
            exact ⟨r, c, hr, ht ▸ hc, by simp [rspAccept, hr, hb, ht], hst, ht ▸ hd, by rw [ht, ← hf4 hd]; exact hl⟩
        rw [hfo]; simp [hbp]
      · simp only [ht, if_false]
        have hbp : FaultCause s .busProtocol := ⟨r, hr, .inr ⟨hb, ht⟩⟩
        have hfo : ¬FaultCause s .fifoOverflow := by
          rintro ⟨r', c', hr', -, ha, -⟩
          rw [hr] at hr'; cases hr'
          simp [rspAccept, hr, hb, ht] at ha
        rw [State.mem_recordFault]; simp [hbp, hfo]
    · simp only [hb]
      unfold firstFlit
      have hb : s.dmx.busy = false := by simpa using hb
      cases hc : s.chans[r.rtag]? with
      | none =>
        have hl := List.getElem?_eq_none_iff.1 hc
        have hbp : FaultCause s .busProtocol := ⟨r, hr, .inl ⟨hb, .inl (by rw [← hs.chans]; exact hl)⟩⟩
        have hfo : ¬FaultCause s .fifoOverflow := by
          rintro ⟨r', c', hr', hc', -⟩
          rw [hr] at hr'; cases hr'; rw [hc] at hc'; cases hc'
        simp only [Bool.false_eq_true, if_false]
        rw [State.mem_recordFault]; simp [hbp, hfo]
      | some c =>
        have hlt : r.rtag < s.params.nChannels := hs.chans ▸ (List.getElem?_eq_some_iff.1 hc).1
        have bp : FaultCause s .busProtocol ↔ (c.rspReady = false ∧ (c.reqIssued = false ∨ c.state.isBus = false)) := by
          constructor
          · rintro ⟨r', hr', h⟩
            rw [hr] at hr'; cases hr'
            rcases h with ⟨-, h | ⟨c', hc', h⟩⟩ | ⟨h, -⟩
            · omega
            · rw [hc] at hc'; cases hc'; exact h
            · rw [hb] at h; cases h
          · intro h; exact ⟨r, hr, .inl ⟨hb, .inr ⟨c, hc, h⟩⟩⟩
        have fo : ∀ (p : ¬(c.rspReady = false ∧ c.reqIssued = true ∧ c.state.isBus = true)), ¬FaultCause s .fifoOverflow := by
          rintro p ⟨r', c', hr', hc', ha, -⟩
          rw [hr] at hr'; cases hr'
          rw [hc] at hc'; cases hc'
          simp only [rspAccept, hr, hb, hc, rspShape_isBus] at ha
          apply p
          simpa [and_assoc] using ha
        simp only [Bool.false_eq_true, if_false]
        cases hrr : c.rspReady with
        | true =>
          have := fo (by simp [hrr])
          simp [bp, hrr, this]
        | false =>
          cases hi : c.reqIssued with
          | false =>
            have := fo (by simp [hi])
            simp only [Bool.false_eq_true, if_false]
            rw [State.mem_recordFault]; simp [bp, hrr, hi, this]
          | true =>
            obtain ⟨c4, hc4, hf4, ty, hty, -⟩ := P.outstanding hh hc hi
            have hbus := isBus_of_posted hty
            obtain ⟨⟨n, kind⟩, hsh⟩ := Option.isSome_iff_exists.1 ((rspShape_isBus (p := s.params) (d := s.params.dir r.rtag) (q := c.state)).trans hbus)
            simp only [hsh, if_true, Bool.false_eq_true, if_false]
            rw [takeRsp_faults hc4, hpar]
            have hfo : FaultCause s .fifoOverflow ↔ (kind = .dataIn ∧ s.params.fifoDepth ≤ c4.fifo.length) := by
              rw [rspShape_dataIn hsh]
              constructor
              · rintro ⟨r', c', hr', hc', -, hst, hd, hl⟩
                rw [hr] at hr'; cases hr'
                rw [hc] at hc'; cases hc'
                exact ⟨⟨hd, hst⟩, by rw [hf4 hd]; exact hl⟩
              · rintro ⟨⟨hd, hst⟩, hl⟩
                exact ⟨r, c, hr, hc, by simp [rspAccept, hr, hb, hc, rspShape_isBus, hrr, hi, hbus], hst, hd, by rw [← hf4 hd]; exact hl⟩
            rw [hfo]; simp [bp, hrr, hi, hbus]

/-! ### The descriptor -/

/-- check_descriptor holds (R269). -/
theorem descriptorOk_iff (p : Params) (c : Channel) : descriptorOk p c c.rspData0 c.rspData1 c.rspData2 = true ↔ c.rspData0.toNat ≤ c.regs.size.toNat / 4 ∧ c.rspData1.toNat < c.regs.size.toNat / 4 ∧
    c.rspData2.toNat < c.regs.size.toNat / 4 ∧ c.rspData1.toNat % p.burstWords = 0 ∧ c.rspData2.toNat % p.burstWords = 0 := by
  simp only [descriptorOk, capWords, Bool.and_eq_true]
  constructor
  · rintro ⟨⟨⟨⟨a1, a2⟩, a3⟩, a4⟩, a5⟩
    exact ⟨of_decide_eq_true a1, of_decide_eq_true a2, of_decide_eq_true a3, of_decide_eq_true a4, of_decide_eq_true a5⟩
  · rintro ⟨a1, a2, a3, a4, a5⟩
    exact ⟨⟨⟨⟨decide_eq_true a1, decide_eq_true a2⟩, decide_eq_true a3⟩, decide_eq_true a4⟩, decide_eq_true a5⟩

/-- BadDescriptor is check_descriptor failing. -/
theorem badDescriptor_iff (p : Params) (c : Channel) : BadDescriptor p c ↔ descriptorOk p c c.rspData0 c.rspData1 c.rspData2 = false := by
  rw [Bool.eq_false_iff, ne_eq, descriptorOk_iff]
  unfold BadDescriptor
  rw [not_and_or, not_and_or, not_and_or, not_and_or, Nat.not_le, Nat.not_lt, Nat.not_lt]

/-- The tick consumes a descriptor that check_descriptor refuses. -/
theorem descriptorFault_iff (p : Params) (c : Channel) : descriptorFault p c = true ↔ c.state = .statusRead ∧ c.answered ∧ BadDescriptor p c := by
  rw [badDescriptor_iff]
  simp [descriptorFault, Channel.answered, and_assoc]

/-- DESC_INCONSISTENT, and no other fault, by chan_step (R269). -/
theorem fsmPhase_faults (s x : State) (f : Fault) : f ∈ (fsmPhase s x).faults ↔ f ∈ x.faults ∨ (f = .descInconsistent ∧ FaultCause s .descInconsistent) := by
  have hcause : FaultCause s .descInconsistent ↔ s.chans.any (descriptorFault s.params) = true := by
    rw [List.any_eq_true]
    exact ⟨fun ⟨c, hc, h⟩ => ⟨c, hc, (descriptorFault_iff _ _).2 h⟩, fun ⟨c, hc, h⟩ => ⟨c, hc, (descriptorFault_iff _ _).1 h⟩⟩
  rw [hcause]
  unfold fsmPhase
  dsimp only
  split
  · rename_i hany; rw [State.mem_recordFault]; simp [hany]
  · rename_i hany; simp [hany]

end Sys2Proof.Machine
end

