-- ==== Sys2Proof/Laws/PerInstr.lean ====
section
/-!
SUPPORT. Decoding undoes encoding, per instruction: the family Roundtrip, one lemma per constructor of Instr.
-/
namespace Sys2Proof.Laws.Roundtrip

/-- Whatever the parameters, the decoder reads back a well-formed instruction from what the encoder puts on the interface. -/
def Statement (i : Instr) : Prop := ∀ p : Params, p.Wf → WellFormed p i = true → decode p (encode p i) = .ok i

/-! ### The fields of an access word (R121, R129) -/

theorem accessWord_toNat (we : Bool) (b n : Nat) (hb : b < 512) (hn : n < 16) :
    (accessWord we b n).toNat = (if we then 32768 else 0) + 64 * b + 4 * n := by
  have e : ∀ x y : Nat, x < 2 ^ 9 → y < 2 ^ 6 → x <<< 6 ||| y = 64 * x + y := by
    intro x y _ hy
    rw [Nat.shiftLeft_eq, Nat.mul_comm, ← Nat.two_pow_add_eq_or_of_lt hy]
  have e2 : ∀ y : Nat, y < 2 ^ 4 → y <<< 2 ||| 0 = 4 * y := by
    intro y _
    rw [Nat.or_zero, Nat.shiftLeft_eq, Nat.mul_comm]
  have e3 : ∀ x y : Nat, x < 2 → y < 2 ^ 15 → x <<< 15 ||| y = 32768 * x + y := by
    intro x y _ hy
    rw [Nat.shiftLeft_eq, Nat.mul_comm, ← Nat.two_pow_add_eq_or_of_lt hy]
  unfold accessWord
  simp only [BitVec.toNat_append, BitVec.toNat_ofNat, BitVec.toNat_ofBool, Nat.reducePow, Nat.zero_mod]
  rw [Nat.mod_eq_of_lt hb, Nat.mod_eq_of_lt hn, e2 n hn, e b (4 * n) hb (by omega), e3 _ _ (by cases we <;> simp) (by omega)]
  cases we <;> simp <;> omega

theorem wordWe_eq (w : BitVec 16) : wordWe w = decide (32768 ≤ w.toNat) := by
  have h : wordWe w = w.msb := by simp [wordWe, BitVec.msb_eq_getLsbD_last]
  rw [h, BitVec.msb_eq_decide]

theorem wordBlock_eq (w : BitVec 16) : wordBlock w = w.toNat / 64 % 512 := by
  simp [wordBlock, BitVec.extractLsb'_toNat, Nat.shiftRight_eq_div_pow]

theorem wordIndex_eq (w : BitVec 16) : wordIndex w = w.toNat / 4 % 16 := by
  simp [wordIndex, BitVec.extractLsb'_toNat, Nat.shiftRight_eq_div_pow]

theorem wordByte_eq (w : BitVec 16) : wordByte w = w.toNat % 4 := by
  simp [wordByte, BitVec.extractLsb'_toNat]

theorem wordOffset_toNat (w : BitVec 16) : (wordOffset w).toNat = w.toNat % 32768 := by
  simp [wordOffset, BitVec.extractLsb'_toNat]

/-- The fields of an access word are what it was built from. -/
theorem accessWord_fields (we : Bool) (b n : Nat) (hb : b < 512) (hn : n < 16) :
    wordWe (accessWord we b n) = we ∧ wordBlock (accessWord we b n) = b ∧ wordIndex (accessWord we b n) = n ∧
      wordByte (accessWord we b n) = 0 := by
  have h := accessWord_toNat we b n hb hn
  rw [wordWe_eq, wordBlock_eq, wordIndex_eq, wordByte_eq, h]
  cases we <;> simp <;> omega

/-- A read of register n of channel block k decodes to that register's read (R121 to R123). -/
theorem decode_rdChannel {p : Params} (hp : p.Wf) {k n : Nat} {i : Instr} (hk : k < p.nChannels) (hn : n < 16)
    (hr : rdChannelRegister k n = some i) (v : Word) : decode p (.cfg (accessWord false k n) v) = .ok i := by
  obtain ⟨h1, h2, h3, h4⟩ := accessWord_fields false k n (by have := hp.2.1; omega) hn
  simp [decode, decodeRead, h1, h2, h3, h4, hk, hr]

/-- A write of register n of channel block k decodes to that register's write (R121 to R123). -/
theorem decode_wrChannel {p : Params} (hp : p.Wf) {k n : Nat} {v : Word} {i : Instr} (hk : k < p.nChannels) (hn : n < 16)
    (hr : wrChannelRegister k v n = some i) : decode p (.cfg (accessWord true k n) v) = .ok i := by
  obtain ⟨h1, h2, h3, h4⟩ := accessWord_fields true k n (by have := hp.2.1; omega) hn
  simp [decode, decodeWrite, h1, h2, h3, h4, hk, hr]

/-- The bits of a reserved access word (R126). -/
theorem reservedWord_fields (we : Bool) (a : BitVec 15) :
    wordWe (BitVec.ofBool we ++ a) = we ∧ wordBlock (BitVec.ofBool we ++ a) = a.toNat / 64 ∧
      wordIndex (BitVec.ofBool we ++ a) = a.toNat / 4 % 16 ∧ wordByte (BitVec.ofBool we ++ a) = a.toNat % 4 ∧
      wordOffset (BitVec.ofBool we ++ a) = a := by
  have ha := a.isLt
  have h : (BitVec.ofBool we ++ a).toNat = (if we then 32768 else 0) + a.toNat := by
    rw [BitVec.toNat_append, BitVec.toNat_ofBool, Nat.shiftLeft_eq, Nat.mul_comm, ← Nat.two_pow_add_eq_or_of_lt a.isLt]
    cases we <;> simp
  refine ⟨?_, ?_, ?_, ?_, BitVec.eq_of_toNat_eq ?_⟩
  · rw [wordWe_eq, h]; cases we <;> simp <;> omega
  · rw [wordBlock_eq, h]; cases we <;> simp <;> omega
  · rw [wordIndex_eq, h]; cases we <;> simp <;> omega
  · rw [wordByte_eq, h]; cases we <;> simp <;> omega
  · rw [wordOffset_toNat, h]; cases we <;> simp <;> omega

theorem rdChannelRegister_none (k n : Nat) (h : 11 ≤ n) : rdChannelRegister k n = none := by
  unfold rdChannelRegister
  split <;> first | omega | rfl

theorem wrChannelRegister_none (k n : Nat) (v : Word) (h : 11 ≤ n) : wrChannelRegister k v n = none := by
  unfold wrChannelRegister
  split <;> first | omega | rfl

/-- The four ways an offset is reserved (R126). -/
theorem reservedAddr_cases {p : Params} {a : BitVec 15} (h : reservedAddr p a = true) :
    a.toNat % 4 ≠ 0 ∨ (a.toNat / 64 < p.nChannels ∧ 11 ≤ a.toNat / 4 % 16) ∨
      (¬a.toNat / 64 < p.nChannels ∧ ¬(a.toNat / 64 = p.nChannels ∧ a.toNat / 4 % 16 < p.nScratch)) := by
  simp only [reservedAddr, Bool.or_eq_true, Bool.and_eq_true, decide_eq_true_eq] at h
  omega

/-! ### One lemma per instruction -/

theorem rdBufferAddrLo (k : Nat) : Statement (.rdBufferAddrLo k) := fun _ hp h =>
  decode_rdChannel hp (of_decide_eq_true h) (by decide) rfl 0

theorem wrBufferAddrLo (k : Nat) (v : Word) : Statement (.wrBufferAddrLo k v) := fun _ hp h =>
  decode_wrChannel hp (of_decide_eq_true h) (by decide) rfl

theorem rdBufferAddrHi (k : Nat) : Statement (.rdBufferAddrHi k) := fun _ hp h =>
  decode_rdChannel hp (of_decide_eq_true h) (by decide) rfl 0

theorem wrBufferAddrHi (k : Nat) (v : Word) : Statement (.wrBufferAddrHi k v) := fun _ hp h =>
  decode_wrChannel hp (of_decide_eq_true h) (by decide) rfl

theorem rdDescAddrLo (k : Nat) : Statement (.rdDescAddrLo k) := fun _ hp h =>
  decode_rdChannel hp (of_decide_eq_true h) (by decide) rfl 0

theorem wrDescAddrLo (k : Nat) (v : Word) : Statement (.wrDescAddrLo k v) := fun _ hp h =>
  decode_wrChannel hp (of_decide_eq_true h) (by decide) rfl

theorem rdDescAddrHi (k : Nat) : Statement (.rdDescAddrHi k) := fun _ hp h =>
  decode_rdChannel hp (of_decide_eq_true h) (by decide) rfl 0

theorem wrDescAddrHi (k : Nat) (v : Word) : Statement (.wrDescAddrHi k v) := fun _ hp h =>
  decode_wrChannel hp (of_decide_eq_true h) (by decide) rfl

theorem rdLockAddrLo (k : Nat) : Statement (.rdLockAddrLo k) := fun _ hp h =>
  decode_rdChannel hp (of_decide_eq_true h) (by decide) rfl 0

theorem wrLockAddrLo (k : Nat) (v : Word) : Statement (.wrLockAddrLo k v) := fun _ hp h =>
  decode_wrChannel hp (of_decide_eq_true h) (by decide) rfl

theorem rdLockAddrHi (k : Nat) : Statement (.rdLockAddrHi k) := fun _ hp h =>
  decode_rdChannel hp (of_decide_eq_true h) (by decide) rfl 0

theorem wrLockAddrHi (k : Nat) (v : Word) : Statement (.wrLockAddrHi k v) := fun _ hp h =>
  decode_wrChannel hp (of_decide_eq_true h) (by decide) rfl

theorem rdDirection (k : Nat) : Statement (.rdDirection k) := fun _ hp h =>
  decode_rdChannel hp (of_decide_eq_true h) (by decide) rfl 0

theorem wrDirection (k : Nat) (v : Word) : Statement (.wrDirection k v) := fun _ hp h =>
  decode_wrChannel hp (of_decide_eq_true h) (by decide) rfl

theorem rdMode (k : Nat) : Statement (.rdMode k) := fun _ hp h =>
  decode_rdChannel hp (of_decide_eq_true h) (by decide) rfl 0

theorem wrMode (k : Nat) (v : Word) : Statement (.wrMode k v) := fun _ hp h =>
  decode_wrChannel hp (of_decide_eq_true h) (by decide) rfl

theorem rdSize (k : Nat) : Statement (.rdSize k) := fun _ hp h =>
  decode_rdChannel hp (of_decide_eq_true h) (by decide) rfl 0

theorem wrSize (k : Nat) (v : Word) : Statement (.wrSize k v) := fun _ hp h =>
  decode_wrChannel hp (of_decide_eq_true h) (by decide) rfl

theorem rdRunning (k : Nat) : Statement (.rdRunning k) := fun _ hp h =>
  decode_rdChannel hp (of_decide_eq_true h) (by decide) rfl 0

theorem wrRunning (k : Nat) (v : Word) : Statement (.wrRunning k v) := fun _ hp h =>
  decode_wrChannel hp (of_decide_eq_true h) (by decide) rfl

theorem rdStatus (k : Nat) : Statement (.rdStatus k) := fun _ hp h =>
  decode_rdChannel hp (of_decide_eq_true h) (by decide) rfl 0

theorem wrStatus (k : Nat) (v : Word) : Statement (.wrStatus k v) := fun _ hp h =>
  decode_wrChannel hp (of_decide_eq_true h) (by decide) rfl

theorem rdScratch (i : Nat) : Statement (.rdScratch i) := fun p hp h => by
  have hi : i < p.nScratch := of_decide_eq_true h
  obtain ⟨h1, h2, h3, h4⟩ := accessWord_fields false p.nChannels i (by have := hp.2.1; omega) (by have := hp.2.2.2.2.2.2.2.2.1; omega)
  simp [encode, decode, decodeRead, h1, h2, h3, h4, hi]

theorem wrScratch (i : Nat) (v : Word) : Statement (.wrScratch i v) := fun p hp h => by
  have hi : i < p.nScratch := of_decide_eq_true h
  obtain ⟨h1, h2, h3, h4⟩ := accessWord_fields true p.nChannels i (by have := hp.2.1; omega) (by have := hp.2.2.2.2.2.2.2.2.1; omega)
  simp [encode, decode, decodeWrite, h1, h2, h3, h4, hi]

theorem rdReserved (addr : BitVec 15) : Statement (.rdReserved addr) := fun p _ h => by
  obtain ⟨h1, h2, h3, h4, h5⟩ := reservedWord_fields false addr
  have e : encode p (.rdReserved addr) = .cfg (BitVec.ofBool false ++ addr) 0 := rfl
  rw [e]
  simp only [decode, decodeRead, h1, h2, h3, h4, h5]
  rcases reservedAddr_cases h with h | ⟨h, h'⟩ | ⟨h, h'⟩
  · simp [h]
  · simp [h, rdChannelRegister_none _ _ h']
  · simp [h, h']

theorem wrReserved (addr : BitVec 15) (v : Word) : Statement (.wrReserved addr v) := fun p _ h => by
  obtain ⟨h1, h2, h3, h4, h5⟩ := reservedWord_fields true addr
  have e : encode p (.wrReserved addr v) = .cfg (BitVec.ofBool true ++ addr) v := rfl
  rw [e]
  simp only [decode, decodeWrite, h1, h2, h3, h4, h5]
  rcases reservedAddr_cases h with h | ⟨h, h'⟩ | ⟨h, h'⟩
  · simp [h]
  · simp [h, wrChannelRegister_none _ _ _ h']
  · simp [h, h']

/-- A request's code with its channel decodes to that request (R130). -/
theorem decode_request {p : Params} {k : Nat} (hk : channelOk p k = true) (code : BitVec 3) :
    decode p (.req code k) = .ok (requestOfCode code k) := by
  simp only [channelOk, decide_eq_true_eq] at hk
  simp [decode, hk]

theorem ticketRead (k : Nat) : Statement (.ticketRead k) := fun _ _ h => decode_request h _

theorem ticketCas (k : Nat) : Statement (.ticketCas k) := fun _ _ h => decode_request h _

theorem lockRead (k : Nat) : Statement (.lockRead k) := fun _ _ h => decode_request h _

theorem statusRead (k : Nat) : Statement (.statusRead k) := fun _ _ h => decode_request h _

theorem dataRead (k : Nat) : Statement (.dataRead k) := fun _ _ h => decode_request (Bool.and_eq_true_iff.1 h).1 _

theorem dataWrite (k : Nat) : Statement (.dataWrite k) := fun _ _ h => decode_request (Bool.and_eq_true_iff.1 h).1 _

theorem statusWrite (k : Nat) : Statement (.statusWrite k) := fun _ _ h => decode_request h _

theorem lockRelease (k : Nat) : Statement (.lockRelease k) := fun _ _ h => decode_request h _

theorem busRead (addr : Addr) (plen : BitVec 16) (wdata : Word) (eop : Bool) (tag : Nat) : Statement (.busRead addr plen wdata eop tag) :=
  fun p _ h => by
    have ht : tag < p.nChannels := by
      simp only [WellFormed, channelOk, Bool.and_eq_true, decide_eq_true_eq] at h
      exact h.1.1
    simp [encode, decode, decodeFlit, ht]

theorem busWrite (addr : Addr) (plen : BitVec 16) (wdata : Word) (eop : Bool) (tag : Nat) : Statement (.busWrite addr plen wdata eop tag) :=
  fun p _ h => by
    have ht : tag < p.nChannels := by
      simp only [WellFormed, channelOk, Bool.and_eq_true, decide_eq_true_eq] at h
      exact h.1.1
    simp [encode, decode, decodeFlit, ht]

theorem busCas (addr : Addr) (plen : BitVec 16) (wdata : Word) (eop : Bool) (tag : Nat) : Statement (.busCas addr plen wdata eop tag) :=
  fun p _ h => by
    have ht : tag < p.nChannels := by
      simp only [WellFormed, channelOk, Bool.and_eq_true, decide_eq_true_eq] at h
      exact h.1.1
    simp [encode, decode, decodeFlit, ht]

end Sys2Proof.Laws.Roundtrip
end

