-- ==== Sys2Proof/Tests/Slice0.lean ====
section
/-!
SUPPORT. Tests whose expected results come from 95_test_vectors.md and the encoding tables of 30_encoding.md, smoke tests of WellFormed, and for every
statement a state and operands that meet its premises.
-/
namespace Sys2Proof.Tests
open Sys2Proof.Machine

/-! ## Small states -/

/-- The parameters of 95_test_vectors.md. -/
abbrev V : Params := Params.vectors

/-- A machine with these two channels, and nothing else going on. -/
def two (c0 c1 : Channel) : State := { State.reset with chans := [c0, c1] }

/-- A stopped or running bulk channel with BUFFER_ADDR 0x1000 and SIZE 64, in state q. -/
def bulk (run : Bool) (q : FsmState) : Channel := { Channel.reset with regs := ⟨0x1000, 0x5000, 0x5100, .bulkIrq, 64, run⟩, state := q }

/-- A running shared-queue channel with buffer 0x4000, CAP_W 8, descriptor 0x5000 and lock 0x5100, in state q. -/
def queue (q : FsmState) : Channel := { Channel.reset with regs := ⟨0x4000, 0x5000, 0x5100, .sharedQueue, 32, true⟩, state := q }

/-- A channel with a response without an error ready. -/
def answer (c : Channel) (d0 d1 d2 : Word) : Channel := { c with rspReady := true, rspData0 := d0, rspData1 := d1, rspData2 := d2 }

/-- s with the inputs x for its next tick. -/
def given (s : State) (x : TickIn) : State := { s with env := [x] }

/-- A tick's inputs with one configuration access. -/
def access (w : BitVec 16) (v : Word) : TickIn := { TickIn.idle with cfg := some ⟨w, v⟩ }

/-- The state an outcome gives; s where it gives none. -/
def out (s : State) (o : Host.Outcome State Fault Refusal) : State :=
  match o with
  | .next t => t
  | _ => s

/-- The faults an outcome leaves recorded. -/
def recorded (o : Host.Outcome State Fault Refusal) : List Fault :=
  match o with
  | .next t => t.faults
  | _ => []

/-- s after one tick. -/
def after (s : State) : State := out s (step s)

/-- Channel k of s. -/
def chan (s : State) (k : Nat) : Channel := (s.chans[k]?).getD Channel.reset

/-- A property of the channels of two, by cases. -/
theorem two_chans {P : Nat → Channel → Prop} {c0 c1 : Channel} (h0 : P 0 c0) (h1 : P 1 c1) :
    ∀ (k : Nat) (c : Channel), [c0, c1][k]? = some c → P k c
  | 0, _, h => by cases h; exact h0
  | 1, _, h => by cases h; exact h1
  | _ + 2, _, h => nomatch h

theorem two_mem {P : Channel → Prop} {c0 c1 : Channel} (h0 : P c0) (h1 : P c1) : ∀ c ∈ [c0, c1], P c := by
  intro c h
  rcases List.mem_cons.1 h with rfl | h
  · exact h0
  · rcases List.mem_cons.1 h with rfl | h
    · exact h1
    · cases h

/-! ## WellFormed refuses an ill-formed instruction by each of its checks -/

theorem test_wf_channel : WellFormed V (.rdSize 2) = false := by decide
theorem test_wf_channel_request : WellFormed V (.ticketCas 2) = false := by decide
theorem test_wf_scratch : WellFormed V (.wrScratch 4 0) = false := by decide
theorem test_wf_reserved : WellFormed V (.rdReserved 0x0028) = false := by decide
theorem test_wf_direction_read : WellFormed V (.dataRead 1) = false := by decide
theorem test_wf_direction_write : WellFormed V (.dataWrite 0) = false := by decide
theorem test_wf_bus_address_width : WellFormed V (.busRead 0x10000000000 4 0 true 0) = false := by decide
theorem test_wf_bus_address_aligned : WellFormed V (.busWrite 0x5102 4 0 true 0) = false := by decide
theorem test_wf_bus_length : WellFormed V (.busRead 0x5100 6 0 true 0) = false := by decide
theorem test_wf_bus_tag : WellFormed V (.busRead 0x5100 4 0 true 2) = false := by decide
theorem test_wf_cas_length : WellFormed V (.busCas 0x5100 8 0 true 0) = false := by decide
theorem test_wf_accepts : WellFormed V (.busCas 0x5100 4 7 false 1) = true ∧ WellFormed V (.wrScratch 3 0) = true ∧
    WellFormed V (.rdReserved 0x0090) = true ∧ WellFormed V (.dataWrite 1) = true := by decide

/-! ## Decoding: words of 95_test_vectors.md, the register table, and of R130 and R131 -/

theorem test_decode_address_reads : decode V (.cfg 0x0000 0) = .ok (.rdBufferAddrLo 0) ∧ decode V (.cfg 0x0044 0) = .ok (.rdBufferAddrHi 1) ∧
    decode V (.cfg 0x0008 0) = .ok (.rdDescAddrLo 0) ∧ decode V (.cfg 0x004C 0) = .ok (.rdDescAddrHi 1) ∧
    decode V (.cfg 0x0010 0) = .ok (.rdLockAddrLo 0) ∧ decode V (.cfg 0x0054 0) = .ok (.rdLockAddrHi 1) := by decide
theorem test_decode_address_writes : decode V (.cfg 0x8040 9) = .ok (.wrBufferAddrLo 1 9) ∧ decode V (.cfg 0x8004 9) = .ok (.wrBufferAddrHi 0 9) ∧
    decode V (.cfg 0x8048 9) = .ok (.wrDescAddrLo 1 9) ∧ decode V (.cfg 0x800C 9) = .ok (.wrDescAddrHi 0 9) ∧
    decode V (.cfg 0x8050 9) = .ok (.wrLockAddrLo 1 9) ∧ decode V (.cfg 0x8014 9) = .ok (.wrLockAddrHi 0 9) := by decide
theorem test_decode_control_reads : decode V (.cfg 0x0058 0) = .ok (.rdDirection 1) ∧ decode V (.cfg 0x001C 0) = .ok (.rdMode 0) ∧
    decode V (.cfg 0x0060 0) = .ok (.rdSize 1) ∧ decode V (.cfg 0x0024 0) = .ok (.rdRunning 0) ∧ decode V (.cfg 0x0068 0) = .ok (.rdStatus 1) := by decide
theorem test_decode_control_writes : decode V (.cfg 0x8018 9) = .ok (.wrDirection 0 9) ∧ decode V (.cfg 0x805C 9) = .ok (.wrMode 1 9) ∧
    decode V (.cfg 0x8020 9) = .ok (.wrSize 0 9) ∧ decode V (.cfg 0x8064 9) = .ok (.wrRunning 1 9) ∧ decode V (.cfg 0x8028 9) = .ok (.wrStatus 0 9) := by decide
theorem test_decode_scratch : decode V (.cfg 0x0084 0) = .ok (.rdScratch 1) ∧ decode V (.cfg 0x808C 9) = .ok (.wrScratch 3 9) := by decide
theorem test_decode_reserved : decode V (.cfg 0x002C 0) = .ok (.rdReserved 0x002C) ∧ decode V (.cfg 0x0090 0) = .ok (.rdReserved 0x0090) ∧
    decode V (.cfg 0x0022 0) = .ok (.rdReserved 0x0022) ∧ decode V (.cfg 0x80C0 7) = .ok (.wrReserved 0x00C0 7) := by decide
theorem test_decode_requests : decode V (.req 0 1) = .ok (.ticketRead 1) ∧ decode V (.req 1 1) = .ok (.ticketCas 1) ∧
    decode V (.req 2 1) = .ok (.lockRead 1) ∧ decode V (.req 3 1) = .ok (.statusRead 1) ∧ decode V (.req 4 0) = .ok (.dataRead 0) ∧
    decode V (.req 5 1) = .ok (.dataWrite 1) ∧ decode V (.req 6 1) = .ok (.statusWrite 1) ∧ decode V (.req 7 1) = .ok (.lockRelease 1) := by decide
theorem test_decode_commands : decode V (.bus ⟨0, 0x5104, 4, 0, true, 1⟩) = .ok (.busRead 0x5104 4 0 true 1) ∧
    decode V (.bus ⟨1, 0x5104, 4, 8, true, 1⟩) = .ok (.busWrite 0x5104 4 8 true 1) ∧
    decode V (.bus ⟨2, 0x5100, 4, 7, false, 1⟩) = .ok (.busCas 0x5100 4 7 false 1) := by decide
theorem test_decode_refuses : decode V (.bus ⟨3, 0, 4, 0, true, 0⟩) = .error .reservedBusCommand ∧ decode V (.req 0 2) = .error .noSuchChannel ∧
    decode V (.bus ⟨0, 0, 4, 0, true, 2⟩) = .error .noSuchChannel := by decide
theorem test_table_words : decodeTableWord 16 0x8024 = some (.wrRunning 0 0) ∧ decodeTableWord 8 0x05 = some (.dataWrite 0) ∧
    decodeTableWord 2 0x2 = some (.busCas 0 0 0 false 0) ∧ decodeTableWord 2 0x3 = none := by decide

/-! ## Register accesses (95_test_vectors.md 2.1) -/

/-- After vectors 1 and 4: BUFFER_ADDR = 0x1200001010. -/
def placed : State := two { Channel.reset with regs := { ChanRegs.reset with bufferAddr := 0x1200001010 } } Channel.reset

theorem test_rd_buffer_lo : (out placed (exec (.rdBufferAddrLo 0) placed)).cfgOut = .read 0x00001010 false := by decide
theorem test_rd_buffer_hi : (out placed (exec (.rdBufferAddrHi 0) placed)).cfgOut = .read 0x00000012 false := by decide
theorem test_rd_buffer_hi_narrow :
    (out placed (exec (.rdBufferAddrHi 0) { placed with params := { V with paddrWidth := 32 } })).cfgOut = .read 0 false := by decide
theorem test_wr_buffer_lo : (chan (out placed (exec (.wrBufferAddrLo 0 0x00001010) State.reset)) 0).regs.bufferAddr = 0x1010 := by decide
theorem test_wr_buffer_lo_defect : recorded (exec (.wrBufferAddrLo 0 0x00001008) State.reset) = [.configDefect] := by decide
theorem test_wr_buffer_hi : (chan (out placed (exec (.wrBufferAddrHi 0 0xFFFFFF12) State.reset)) 0).regs.bufferAddr = 0x1200000000 := by decide
theorem test_wr_desc_lo_defect : recorded (exec (.wrDescAddrLo 0 0x2002) State.reset) = [.configDefect] := by decide
theorem test_wr_desc_hi_narrow :
    (chan (out placed (exec (.wrDescAddrHi 0 5) { State.reset with params := { V with paddrWidth := 32 } })) 0).regs.descAddr = 0 := by decide
theorem test_wr_lock_lo : (chan (out placed (exec (.wrLockAddrLo 1 0x3000) State.reset)) 1).regs.lockAddr = 0x3000 := by decide
theorem test_rd_lock_lo : (out placed (exec (.rdLockAddrLo 0) (two (queue .idle) (queue .idle)))).cfgOut = .read 0x5100 false := by decide
theorem test_rd_desc_lo : (out placed (exec (.rdDescAddrLo 1) (two (queue .idle) (queue .idle)))).cfgOut = .read 0x5000 false := by decide
theorem test_wr_mode_defect : recorded (exec (.wrMode 0 3) State.reset) = [.configDefect] := by decide
theorem test_wr_mode_whole_word : recorded (exec (.wrMode 0 0x101) State.reset) = [.configDefect] := by decide
theorem test_rd_mode : (out placed (exec (.rdMode 0) (out placed (exec (.wrMode 0 2) State.reset)))).cfgOut = .read 2 false := by decide
theorem test_wr_size_defect : recorded (exec (.wrSize 0 72) State.reset) = [.configDefect] := by decide
theorem test_wr_size_running : (out placed (exec (.wrSize 1 64) (two Channel.reset (queue .idle)))).cfgOut = .written true := by decide
theorem test_rd_size : (out placed (exec (.rdSize 0) State.reset)).cfgOut = .read 0 false := by decide
/-- A stopped bulk channel whose region ends at the top of the address space, with the size given. -/
def atTop (size : Word) : State := two { Channel.reset with regs := ⟨0xFFFFFFFFF0, 0, 0, .bulkIrq, size, false⟩ } Channel.reset

theorem test_start : (chan (out placed (exec (.wrRunning 0 1) (atTop 16))) 0).regs.running = true ∧
    recorded (exec (.wrRunning 0 1) (atTop 32)) = [.configDefect] ∧ recorded (exec (.wrRunning 0 1) State.reset) = [.configDefect] := by decide
theorem test_stop : (out placed (exec (.wrRunning 0 0) (two (bulk true .idle) Channel.reset))).faults = [] ∧
    (out placed (exec (.wrRunning 0 0) (two (bulk true .bulkDataMove) Channel.reset))).faults = [.cancelUnsupported] := by decide
theorem test_rd_running : (out placed (exec (.rdRunning 0) (two (bulk true .errorData) Channel.reset))).cfgOut = .read 1 false := by decide
theorem test_rd_direction : (out placed (exec (.rdDirection 1) State.reset)).cfgOut = .read 1 false := by decide
theorem test_wr_direction : (out placed (exec (.wrDirection 1 0) State.reset)).cfgOut = .written true := by decide
theorem test_rd_status : (out placed (exec (.rdStatus 0) (two (bulk true .errorLock) Channel.reset))).cfgOut = .read 3 false := by decide
theorem test_rd_status_busy : (out placed (exec (.rdStatus 0) (two (queue .ticketCas) Channel.reset))).cfgOut = .read 0 false := by decide
theorem test_wr_status : (out placed (exec (.wrStatus 0 1) State.reset)).cfgOut = .written true := by decide
theorem test_wr_scratch : (out placed (exec (.wrScratch 1 0xDEADBEEF) State.reset)).scratch = [0, 0xDEADBEEF, 0, 0] := by decide
theorem test_rd_reserved : (out placed (exec (.rdReserved 0x0090) State.reset)).cfgOut = .read 0 true := by decide
theorem test_wr_reserved : (out placed (exec (.wrReserved 0x00C0 7) State.reset)).cfgOut = .written true := by decide

/-! ## Requests (95_test_vectors.md 2.5.2) and bus commands (2.4) -/

/-- The channel of 2.5.2: L = 0x5100, D = 0x5000, B = 0x4000, ticket = 7, mirrors (4, 0, 4). -/
def sending : Channel := { queue .dataMove with ticket := 7, sqOcc := 4, sqRd := 0, sqWr := 4, fifo := [0xA, 0xB, 0xC, 0xD] }

/-- The generator sending flit i of channel 1's request. -/
def flitOf (i : BitVec 16) (x : Instr) : Option CmdFlit :=
  (out placed (exec x { two Channel.reset sending with gen := ⟨true, 1, i, 1⟩ })).bus.wire

theorem test_ticket_read : flitOf 0 (.ticketRead 1) = some ⟨0, 0x5100, 4, 0, true, 1⟩ := by decide
theorem test_ticket_cas : flitOf 0 (.ticketCas 1) = some ⟨2, 0x5100, 4, 7, false, 1⟩ ∧ flitOf 1 (.ticketCas 1) = some ⟨2, 0x5100, 4, 8, true, 1⟩ := by decide
theorem test_lock_read : flitOf 0 (.lockRead 1) = some ⟨0, 0x5104, 4, 0, true, 1⟩ := by decide
theorem test_status_read : flitOf 0 (.statusRead 1) = some ⟨0, 0x5000, 12, 0, true, 1⟩ := by decide
theorem test_data_read_bulk :
    (out placed (exec (.dataRead 0) { two { bulk true .bulkDataMove with offset := 32 } Channel.reset with gen := ⟨true, 0, 0, 0⟩ })).bus.wire =
      some ⟨0, 0x1020, 16, 0, true, 0⟩ := by decide
theorem test_data_read_queue : flitOf 0 (.dataRead 1) = some ⟨0, 0x4000, 16, 0, true, 1⟩ := by decide
theorem test_data_write : flitOf 0 (.dataWrite 1) = some ⟨1, 0x4010, 16, 0xA, false, 1⟩ ∧ flitOf 3 (.dataWrite 1) = some ⟨1, 0x4010, 16, 0xA, true, 1⟩ := by decide
theorem test_data_write_empty : recorded (exec (.dataWrite 1) (two Channel.reset (queue .dataMove))) = [.genFifoEmpty] := by decide
theorem test_status_write : flitOf 0 (.statusWrite 1) = some ⟨1, 0x5000, 12, 4, false, 1⟩ ∧ flitOf 1 (.statusWrite 1) = some ⟨1, 0x5000, 12, 0, false, 1⟩ ∧
    flitOf 2 (.statusWrite 1) = some ⟨1, 0x5000, 12, 4, true, 1⟩ := by decide
theorem test_lock_release : flitOf 0 (.lockRelease 1) = some ⟨1, 0x5104, 4, 8, true, 1⟩ := by decide

/-- Memory with the ticket word at 0x5100 holding v, which is less than 256. -/
def ticketIs (v : Byte) : State := { State.reset with mem := [(0x5100, v)] }

theorem test_bus_read : ((out placed (exec (.busRead 0x5100 4 0 true 0) (ticketIs 7))).bus.txns.map (·.rdata)) = [[some 7]] := by decide
theorem test_bus_write : (out placed (exec (.busWrite 0x5104 4 8 true 1) State.reset)).mem = [(0x5104, 8)] := by decide
theorem test_bus_cas_success :
    let t := out placed (exec (.busCas 0x5100 4 8 true 0) { ticketIs 7 with bus := { Bus.reset with asm := [7] } })
    t.mem = [(0x5100, 8)] ∧ t.bus.txns.map (·.rdata) = [[some 0]] := by decide
theorem test_bus_cas_failure :
    let t := out placed (exec (.busCas 0x5100 4 8 true 0) { ticketIs 9 with bus := { Bus.reset with asm := [7] } })
    t.mem = [(0x5100, 9)] ∧ t.bus.txns.all (fun x => x.rdata != [some 0]) = true := by decide

/-! ## Ticks (95_test_vectors.md 2.2 to 2.8) -/

theorem test_tick_bulk_success :
    let t := after (two { answer (bulk true .bulkDataMove) 0 0 0 with offset := 48, remaining := 1 } Channel.reset)
    (chan t 0).state = .success ∧ (chan t 0).offset = 64 ∧ irq (chan t 0) = true := by decide
theorem test_tick_bulk_group_done :
    let t := after (two { answer (bulk true .bulkDataMove) 0 0 0 with offset := 16, remaining := 1 } Channel.reset)
    (chan t 0).state = .idle ∧ (chan t 0).offset = 32 := by decide
theorem test_tick_gate_closed :
    (chan (after (two { bulk true .bulkDataMove with remaining := 1, fifo := [1, 2, 3, 4, 5] } Channel.reset)) 0).reqValid = false := by decide
theorem test_tick_gate_open :
    (chan (after (two { bulk true .bulkDataMove with remaining := 1, fifo := [1, 2, 3, 4] } Channel.reset)) 0).reqType = .dataRead := by decide
theorem test_tick_queue_chunk :
    let t := after (two { answer (queue .statusRead) 4 0 4 with remaining := 2 } Channel.reset)
    (chan t 0).state = .dataMove ∧ (chan t 0).sqChunk = 1 := by decide
theorem test_tick_bad_descriptor : recorded (step (two { answer (queue .statusRead) 9 0 0 with remaining := 1 } Channel.reset)) = [.descInconsistent] := by
  decide
theorem test_tick_producer_burst :
    let t := after (two Channel.reset { answer (queue .dataMove) 0 0 0 with sqWr := 4, sqOcc := 4, sqChunk := 1, remaining := 2 })
    (chan t 1).sqWr = 0 ∧ (chan t 1).sqOcc = 8 ∧ (chan t 1).sqMoved = 1 ∧ (chan t 1).remaining = 1 := by decide
theorem test_tick_foreign_tag :
    recorded (step { two Channel.reset Channel.reset with bus := { Bus.reset with rsp := some ⟨5, 0, false⟩ } }) = [.busProtocol] := by decide
theorem test_tick_pop_then_push :
    (chan (after (given
      { two { bulk true .bulkDataMove with reqIssued := true, reqType := .dataRead, remaining := 1, fifo := [0xA] } Channel.reset with
        bus := { Bus.reset with rsp := some ⟨0, 0xB, false⟩ } }
      { TickIn.idle with ports := [{ PortIn.idle with rready := true }] })) 0).fifo = [0xB] := by decide
theorem test_select_scan : selected { State.resetWith { V with nChannels := 4, dirs := List.replicate 4 .fromMemory } with
    chans := [{ Channel.reset with reqValid := true }, Channel.reset, { Channel.reset with reqValid := true }, { Channel.reset with reqValid := true }],
    gen := ⟨false, 0, 0, 2⟩ } = some 3 := by decide

/-! ## Every statement's premises are met -/

/-! ### The register file -/

theorem witness_AddressRegisterReads : State.reset.params.Wf ∧ 1 < State.reset.params.nChannels ∧
    State.reset.chans[1]? = some Channel.reset ∧ IsAccess 0x0040 false 1 0 ∧ IsAccess 0x0044 false 1 1 ∧ IsAccess 0x0048 false 1 2 ∧
    IsAccess 0x004C false 1 3 ∧ IsAccess 0x0050 false 1 4 ∧ IsAccess 0x0054 false 1 5 := by
  unfold IsAccess; decide

theorem witness_ControlRegisterReads : State.reset.params.Wf ∧ 1 < State.reset.params.nChannels ∧
    State.reset.chans[1]? = some Channel.reset ∧ IsAccess 0x0058 false 1 6 ∧ IsAccess 0x005C false 1 7 ∧ IsAccess 0x0060 false 1 8 ∧
    IsAccess 0x0064 false 1 9 ∧ IsAccess 0x0068 false 1 10 := by
  unfold IsAccess; decide

/-- Each mode, RUNNING value, direction and status that ControlRegisterReads tells apart. -/
theorem witness_ControlRegisterReads_clauses : (queue .idle).regs.mode = .sharedQueue ∧ (bulk true .idle).regs.mode = .bulkIrq ∧
    (bulk false .idle).regs.running = false ∧ (bulk true .idle).regs.running = true ∧ V.dir 0 = .fromMemory ∧ V.dir 1 = .toMemory ∧
    (bulk true .success).state = .success ∧ (bulk true .errorData).state = .errorData ∧ (queue .errorLock).state = .errorLock ∧
    (queue .errorDescriptor).state = .errorDescriptor ∧ (queue .ticketCas).state.isTerminal = false := by decide

theorem witness_LowAddressWrites : State.reset.params.Wf ∧ 1 < State.reset.params.nChannels ∧ State.reset.chans[1]? = some Channel.reset ∧
    IsAccess 0x8040 true 1 0 ∧ IsAccess 0x8048 true 1 2 ∧ IsAccess 0x8050 true 1 4 ∧ Channel.reset.regs.running = false ∧
    (0xFFFFFFF8 : Word).toNat % V.burstBytes ≠ 0 ∧ (0xFFFFFFF0 : Word).toNat % V.burstBytes = 0 ∧ (0xFFFFFFFE : Word).toNat % 4 ≠ 0 ∧
    (0xFFFFFFFC : Word).toNat % 4 = 0 ∧ (two Channel.reset (queue .idle)).chans[1]? = some (queue .idle) ∧
    (queue .idle).regs.running = true := by
  unfold IsAccess; decide

theorem witness_HighAddressWrites : State.reset.params.Wf ∧ 1 < State.reset.params.nChannels ∧ State.reset.chans[1]? = some Channel.reset ∧
    IsAccess 0x8044 true 1 1 ∧ IsAccess 0x804C true 1 3 ∧ IsAccess 0x8054 true 1 5 ∧ 32 < State.reset.params.paddrWidth ∧
    Channel.reset.regs.running = false ∧ (two Channel.reset (queue .idle)).chans[1]? = some (queue .idle) ∧ (queue .idle).regs.running = true := by
  unfold IsAccess; decide

theorem witness_ModeSizeWrites : State.reset.params.Wf ∧ 1 < State.reset.params.nChannels ∧ State.reset.chans[1]? = some Channel.reset ∧
    IsAccess 0x805C true 1 7 ∧ IsAccess 0x8060 true 1 8 ∧ Channel.reset.regs.running = false ∧ 2 < (3 : Word).toNat ∧ (2 : Word).toNat ≤ 2 ∧
    (72 : Word).toNat % V.burstBytes ≠ 0 ∧ (64 : Word).toNat % V.burstBytes = 0 ∧
    (two Channel.reset (queue .idle)).chans[1]? = some (queue .idle) ∧ (queue .idle).regs.running = true := by
  unfold IsAccess; decide

/-- A start that fits exactly, one too long by one burst, a stop at rest, one in a transaction, and a write that changes nothing. -/
theorem witness_RunningWrite : State.reset.params.Wf ∧ IsAccess 0x8024 true 0 9 ∧ (1 : Word).toNat % 2 = 1 ∧ (2 : Word).toNat % 2 = 0 ∧
    (chan (atTop 16) 0).regs.bufferAddr.toNat + (chan (atTop 16) 0).regs.size.toNat = 2 ^ V.paddrWidth ∧
    2 ^ V.paddrWidth < (chan (atTop 32) 0).regs.bufferAddr.toNat + (chan (atTop 32) 0).regs.size.toNat ∧
    (chan (atTop 16) 0).regs.running = false ∧ (chan (atTop 16) 0).regs.size ≠ 0 ∧ (chan (atTop 16) 0).regs.mode ≠ .sharedQueue ∧
    (bulk true .idle).regs.running = true ∧ ((two (bulk true .idle) Channel.reset).port 0).req = false ∧
    (bulk true .ack).regs.running = true ∧ (bulk true .ack).state = .ack ∧ ((1 : Word).toNat % 2 = 1 ↔ (bulk true .ack).regs.running = true) := by
  unfold IsAccess; decide

theorem witness_RejectedWhileRunning : (two Channel.reset (queue .idle)).chans[1]? = some (queue .idle) ∧ (queue .idle).regs.running = true := by decide

theorem witness_ReadOnlyWrites : State.reset.params.Wf ∧ 1 < State.reset.params.nChannels ∧ State.reset.chans[1]? = some Channel.reset ∧
    IsAccess 0x8058 true 1 6 ∧ IsAccess 0x8068 true 1 10 := by
  unfold IsAccess; decide

theorem witness_ScratchAccesses : State.reset.params.Wf ∧ 3 < State.reset.params.nScratch ∧ State.reset.scratch[3]? = some 0 ∧
    IsAccess 0x008C false 2 3 ∧ IsAccess 0x808C true 2 3 := by
  unfold IsAccess; decide

/-- A word for each of the four ways an encoding is reserved, read and written, at the edge of its range. -/
theorem witness_ReservedAccesses : V.Wf ∧ (0x0001 : BitVec 16).toNat % 4 ≠ 0 ∧
    ((0x006C : BitVec 16).toNat / 64 % 512 < V.nChannels ∧ 11 ≤ (0x006C : BitVec 16).toNat / 4 % 16) ∧
    ((0x0090 : BitVec 16).toNat / 64 % 512 = V.nChannels ∧ V.nScratch ≤ (0x0090 : BitVec 16).toNat / 4 % 16) ∧
    V.nChannels < (0x80C0 : BitVec 16).toNat / 64 % 512 ∧ 32768 ≤ (0x80C0 : BitVec 16).toNat := by decide

/-- The shape of a machine with two channels, checked. -/
theorem shape_two (s : State) (h : s.params = V ∧ s.chans.length = 2 ∧ s.scratch.length = 4 ∧ s.gen.ch < 2 ∧ s.gen.rrLast < 2 ∧ s.dmx.ch < 2 ∧
    (∀ c ∈ s.chans, c.fifo.length ≤ 8) ∧ (∀ c ∈ s.chans, c.remaining.toNat < 256 ∧ c.sqChunk.toNat < 256 ∧ c.sqMoved.toNat < 256) ∧
    Memory.wf s.mem ∧ (∀ x ∈ s.mem, x.1 < 2 ^ 40) ∧ s.faults.Nodup) : ShapeOk s := by
  obtain ⟨hp, h1, h2, h3, h4, h5, h6, h7, h8, h9, h10⟩ := h
  constructor <;> (try rw [hp]) <;> first | assumption | decide

theorem witness_ReadsChangeNothing : ShapeOk State.reset ∧ (0x7FFF : BitVec 16).toNat < 32768 :=
  ⟨shape_two _ (by decide), by decide⟩

theorem witness_AccessFrame : (Instr.wrSize 0 64).format = .cfg ∧
    exec (.wrSize 0 64) State.reset = .next (out State.reset (exec (.wrSize 0 64) State.reset)) ∧
    destReg (.wrSize 0 64) ≠ some (0, .mode) ∧ destReg (.wrSize 0 64) ≠ some (1, .size) ∧ destScratch (.wrScratch 1 9) ≠ some 2 :=
  ⟨rfl, rfl, by decide, by decide, by decide⟩

/-! ### The requests and the bus commands -/

/-- The generator sending flit i of channel 1's request. -/
def atFlit (i : BitVec 16) : State := { two Channel.reset sending with gen := ⟨true, 1, i, 1⟩ }

theorem witness_ReadRequests : (atFlit 0).params.Wf ∧ (atFlit 0).chans[1]? = some sending ∧ BusTakes (atFlit 0) ∧ (atFlit 0).gen.idx = 0 := by
  unfold BusTakes; decide

theorem witness_MultiFlitRequests : (atFlit 0).params.Wf ∧ (atFlit 0).chans[1]? = some sending ∧ BusTakes (atFlit 0) ∧ BusTakes (atFlit 1) ∧
    BusTakes (atFlit 2) ∧ (atFlit 0).gen.idx = 0 ∧ (atFlit 1).gen.idx = 1 ∧ (atFlit 2).gen.idx = 2 := by
  unfold BusTakes; decide

theorem witness_DataWriteRequest : (atFlit 3).params.Wf ∧ (atFlit 3).chans[1]? = some sending ∧ sending.fifo = [0xA, 0xB, 0xC, 0xD] ∧
    BusTakes (atFlit 3) ∧ (atFlit 3).gen.idx.toNat < (atFlit 3).params.burstWords ∧
    (two Channel.reset (queue .dataMove)).chans[1]? = some (queue .dataMove) ∧ (queue .dataMove).fifo = [] := by
  unfold BusTakes; decide

theorem witness_RequestFrame : requestOf (.dataWrite 1) = some (.dataWrite, 1) ∧
    exec (.dataWrite 1) (atFlit 0) = .next (out placed (exec (.dataWrite 1) (atFlit 0))) ∧
    cmdReady (given (atFlit 0) { TickIn.idle with cmdReady := false }) = false ∧ ReqType.ticketCas ≠ .dataWrite :=
  ⟨rfl, rfl, rfl, by decide⟩

/-- A transaction of three words that the bus put off. -/
def putOff (op : BusOp) : Txn := ⟨op, 0x5100, 12, 0, [1, 2, 3], Plan.clean, [none, none, none]⟩

/-- A machine whose bus has accepted it. -/
def holding (op : BusOp) : State := { ticketIs 7 with bus := { Bus.reset with txns := [putOff op] } }

theorem witness_BusReadPerforms : State.reset.input.deferred = false ∧ (holding .read).bus.txns[0]? = some (putOff .read) ∧
    (putOff .read).op = .read ∧ [2, 0].Nodup ∧ ∀ j ∈ [2, 0], (putOff .read).rdata[j]? = some none := by decide

theorem witness_BusWritePerforms : State.reset.params.Wf ∧ Memory.wf State.reset.mem ∧ State.reset.input.deferred = false ∧
    0 < (4 : BitVec 16).toNat / 4 ∧ (State.reset.bus.asm ++ [(8 : Word)])[0]? = some 8 := by decide

/-- Word 2 written and word 0 not yet: js = [2]; and both, the later one first. -/
theorem witness_BusWritePerforms_deferred : (holding .write).params.Wf ∧ Memory.wf (holding .write).mem ∧
    (holding .write).bus.txns[0]? = some (putOff .write) ∧ (putOff .write).plan.errs = [] ∧ [2, 0].Nodup ∧ (3 : Nat) < 2 ^ 20 ∧
    (∀ j ∈ [2, 0], j < 3 ∧ (putOff .write).rdata[j]? = some none) ∧ (putOff .write).wdata[2]? = some 3 ∧ 0 ∉ [2] ∧ 1 ∉ [2, 0] := by decide

theorem test_bus_order : (busActs [.word 0 2] (holding .write)).mem = [(0x5100, 7), (0x5108, 3)] ∧
    (busActs [.word 0 2, .word 0 0] (holding .read)).bus.txns.map (·.rdata) = [[some 7, none, some 0]] := by decide

/-- An erroring CAS that matches swaps or not, as the bus chooses; one that does not match leaves memory as it was (R96, R431, vector 2.4#21; log 28). -/
theorem test_bus_cas_error :
    let t := fun old drops => (out placed (exec (.busCas 0x5100 4 8 true 0)
      { given (ticketIs old) { TickIn.idle with plan := ⟨[true], drops, []⟩ } with bus := { Bus.reset with asm := [7] } })).mem
    t 7 [false] = [(0x5100, 8)] ∧ t 7 [true] = [(0x5100, 7)] ∧ t 9 [false] = [(0x5100, 9)] ∧ t 9 [true] = [(0x5100, 9)] := by decide

/-- A match, with and without an error whose swap the bus leaves out, and no match. -/
theorem witness_BusCasPerforms :
    let s := { ticketIs 7 with bus := { Bus.reset with asm := [7] } }
    let e := given s { TickIn.idle with plan := ⟨[true], [true], []⟩ }
    s.params.Wf ∧ Memory.wf s.mem ∧ s.input.deferred = false ∧ s.bus.asm = [7] ∧ s.input.plan.errs[0]? ≠ some true ∧
      readWord s.params s.mem (wordAt s.params 0x5100 0) = 7 ∧
      e.params.Wf ∧ Memory.wf e.mem ∧ e.input.deferred = false ∧ e.bus.asm = [7] ∧ e.input.plan.errs[0]? = some true ∧
      readWord e.params e.mem (wordAt e.params 0x5100 0) = 7 ∧
      readWord s.params (ticketIs 9).mem (wordAt s.params 0x5100 0) ≠ 7 := by decide

theorem witness_CommandFlitsKept : (given State.reset { TickIn.idle with deferred := true }).input.deferred = true := rfl

theorem witness_BusCommandFrame : State.reset.params.Wf ∧ Memory.wf State.reset.mem ∧
    exec (.busWrite 0x5104 4 8 true 1) State.reset = .next (out placed (exec (.busWrite 0x5104 4 8 true 1) State.reset)) ∧
    exec (.busRead 0x5104 4 0 true 1) State.reset = .next (out placed (exec (.busRead 0x5104 4 0 true 1) State.reset)) ∧
    exec (.busCas 0x5104 4 8 false 1) State.reset = .next (out placed (exec (.busCas 0x5104 4 8 false 1) State.reset)) :=
  ⟨by decide, by decide, rfl, rfl, rfl⟩

/-- An address outside a one-word access at 0x5104. -/
theorem witness_outside_access : ¬InRange V 0x5104 4 0x5108 := by
  rintro ⟨i, hi, h⟩
  have : i = 0 ∨ i = 1 ∨ i = 2 ∨ i = 3 := by omega
  rcases this with rfl | rfl | rfl | rfl <;> exact absurd h (by decide)

theorem witness_MemReadAfterMemWrite : V.Wf ∧ Memory.wf [] ∧ ([1, 2, 3] : List Word).length ≤ 16383 := by decide

/-! ### Encoding -/

theorem witness_DecodeUndoesEncode : V.Wf ∧ WellFormed V (.wrLockAddrHi 1 7) = true ∧ WellFormed V (.rdScratch 3) = true ∧
    WellFormed V (.wrReserved 0x7FFF 1) = true ∧ WellFormed V (.dataRead 0) = true ∧ WellFormed V (.busWrite 0xFFFFFFFFFC 65532 1 true 1) = true := by
  decide

theorem witness_EncodeUndoesDecode : V.Wf ∧ 1 < V.nChannels ∧ (⟨2, 0x5100, 4, 7, false, 1⟩ : CmdFlit).tag < V.nChannels ∧
    (⟨2, 0x5100, 4, 7, false, 1⟩ : CmdFlit).cmd ≠ 3 := by decide

theorem witness_OfferedFlitsDecode : ShapeOk (atFlit 0) ∧ cmdOffer (atFlit 0) = some ⟨0, 0x5100, 4, 0, true, 1⟩ :=
  ⟨shape_two _ (by decide), by decide⟩

/-! ### The tick -/

theorem witness_StepRunsDecoded : NotStuck State.reset ∧ NotStuck (atFlit 0) ∧
    (let s := given State.reset (access 0x8084 9)
     s.gen.busy = false ∧ s.bus.wire = none ∧ s.input.cfg = some ⟨0x8084, 9⟩ ∧ decode s.params (.cfg 0x8084 9) = .ok (.wrScratch 1 9)) ∧
    ((atFlit 0).gen.busy = true ∧ (atFlit 0).chans[(atFlit 0).gen.ch]? = some sending ∧ (atFlit 0).input.cfg = none ∧
      decode (atFlit 0).params (.req sending.reqType.code (atFlit 0).gen.ch) = .ok (.ticketRead 1)) ∧
    (let s := { State.reset with bus := { Bus.reset with wire := some ⟨1, 0x5104, 4, 8, true, 1⟩ } }
     s.gen.busy = false ∧ s.bus.wire = some ⟨1, 0x5104, 4, 8, true, 1⟩ ∧ s.input.cfg = none ∧
      decode s.params (.bus ⟨1, 0x5104, 4, 8, true, 1⟩) = .ok (.busWrite 0x5104 4 8 true 1)) ∧
    (State.reset.gen.busy = false ∧ State.reset.bus.wire = none ∧ State.reset.input.cfg = none) := by decide

/-- A machine with a flit on the wire; and one that an earlier tick left stuck, which faults. -/
theorem witness_StepNeverRefused :
    let s := { State.reset with bus := { Bus.reset with wire := some ⟨2, 0x5100, 4, 8, true, 1⟩ } }
    let r := { s with faults := [.cancelUnsupported, .configDefect] }
    ShapeOk s ∧ (∀ f, s.bus.wire = some f → f.cmd ≠ 3 ∧ f.tag < s.params.nChannels) ∧ NotStuck s ∧ ShapeOk r ∧ ¬NotStuck r ∧
      step r = .fault .configDefect :=
  ⟨shape_two _ (by decide), fun f h => by cases h; decide, nofun, shape_two _ (by decide), by decide, rfl⟩

/-- The states of witness_FaultsHaveCauses: a MODE of 3, a stop in a transaction, a descriptor out of range, a flit nobody waits for, a DATA_WRITE from an empty
FIFO, and a flit for a full FIFO. -/
def faulty : Fault → State
  | .configDefect => given State.reset (access 0x801C 3)
  | .cancelUnsupported => given (two (bulk true .bulkDataMove) Channel.reset) (access 0x8024 0)
  | .descInconsistent => two (answer (queue .statusRead) 9 0 0) Channel.reset
  | .busProtocol => { State.reset with bus := { Bus.reset with rsp := some ⟨0, 0, false⟩ } }
  | .genFifoEmpty => { two Channel.reset { queue .dataMove with reqType := .dataWrite, reqIssued := true } with gen := ⟨true, 1, 0, 1⟩ }
  | .fifoOverflow =>
    { two { bulk true .bulkDataMove with reqIssued := true, reqType := .dataRead, fifo := [1, 2, 3, 4, 5, 6, 7, 8] } Channel.reset with
      bus := { Bus.reset with rsp := some ⟨0, 9, false⟩ } }

/-- Each cause, and the tick that records its fault and no other; a flit that is waited for records none. -/
theorem witness_FaultsHaveCauses (f : Fault) : ShapeOk (faulty f) ∧ step (faulty f) = .next (after (faulty f)) ∧ FaultCause (faulty f) f ∧
    (after (faulty f)).faults = [f] := by
  cases f
  · exact ⟨shape_two _ (by decide), rfl, ⟨_, 0, Channel.reset, rfl, rfl, rfl, .inr (.inr (.inr (.inl ⟨rfl, by decide⟩)))⟩, rfl⟩
  · exact ⟨shape_two _ (by decide), rfl, ⟨_, 0, bulk true .bulkDataMove, rfl, rfl, rfl, rfl, rfl, nofun, nofun, nofun, nofun, nofun⟩, rfl⟩
  · exact ⟨shape_two _ (by decide), rfl, ⟨answer (queue .statusRead) 9 0 0, by decide, rfl, ⟨rfl, rfl⟩, by unfold BadDescriptor; decide⟩, rfl⟩
  · exact ⟨shape_two _ (by decide), rfl, ⟨_, rfl, .inl ⟨rfl, .inr ⟨Channel.reset, rfl, rfl, .inl rfl⟩⟩⟩, rfl⟩
  · exact ⟨shape_two _ (by decide), rfl, ⟨rfl, _, rfl, rfl, rfl⟩, rfl⟩
  · exact ⟨shape_two _ (by decide), rfl, ⟨_, _, rfl, rfl, rfl, .inl rfl, rfl, by decide⟩, rfl⟩

/-! ### One channel in one tick -/

/-- A tick in which port 0 drives x. -/
def port0 (x : PortIn) : TickIn := { TickIn.idle with ports := [x] }

/-- The tick of a state from which the step goes on, for its channel k. -/
theorem tick_after {s : State} {k : Nat} (h : step s = .next (after s)) (hb : s.chans[k]? = some (chan s k))
    (ha : (after s).chans[k]? = some (chan (after s) k)) : Tick s (after s) k (chan s k) (chan (after s) k) := ⟨h, hb, ha⟩

/-- The handshake of a machine with two channels, checked. -/
theorem handshake_two {s : State} {c0 c1 : Channel} (hc : s.chans = [c0, c1]) (h0 : ChanHandshakeOk (s.params.dir 0) c0)
    (h1 : ChanHandshakeOk (s.params.dir 1) c1) (hd : s.dmx.busy = true → ∃ c, s.chans[s.dmx.ch]? = some c ∧ c.reqIssued = true) :
    HandshakeOk s where
  chan := by
    rw [hc]
    exact two_chans (P := fun k c => ChanHandshakeOk (s.params.dir k) c) h0 h1
  dmx := hd

theorem handshake_reset (d : Direction) : ChanHandshakeOk d Channel.reset := ⟨nofun, nofun, nofun, nofun⟩

theorem witness_FaultsHaveCauses_handshake (f : Fault) : HandshakeOk (faulty f) := by
  cases f
  · exact handshake_two rfl (handshake_reset _) (handshake_reset _) nofun
  · exact handshake_two rfl ⟨nofun, nofun, nofun, nofun⟩ (handshake_reset _) nofun
  · exact handshake_two rfl ⟨nofun, nofun, nofun, fun _ => rfl⟩ (handshake_reset _) nofun
  · exact handshake_two rfl (handshake_reset _) (handshake_reset _) nofun
  · exact handshake_two rfl (handshake_reset _) ⟨nofun, fun _ => rfl, fun _ => rfl, nofun⟩ nofun
  · exact handshake_two rfl ⟨nofun, fun _ => rfl, fun _ => rfl, nofun⟩ (handshake_reset _) nofun

theorem witness_IdleTick :
    (let s := given (two (bulk true .idle) Channel.reset) (port0 { PortIn.idle with req := true, burstCount := 0x103 })
     Tick s (after s) 0 (chan s 0) (chan (after s) 0) ∧ (chan s 0).state = .idle ∧ (chan s 0).regs.running = true ∧ (s.port 0).req = true) ∧
    (let s := two (bulk false .idle) Channel.reset
     Tick s (after s) 0 (chan s 0) (chan (after s) 0) ∧ (chan s 0).state = .idle ∧ (chan s 0).regs.running = false ∧ (s.port 0).req = false) :=
  ⟨⟨tick_after rfl rfl rfl, rfl, rfl, rfl⟩, ⟨tick_after rfl rfl rfl, rfl, rfl, rfl⟩⟩

theorem witness_AckTick :
    let s := two (bulk true .ack) (queue .ack)
    Tick s (after s) 0 (chan s 0) (chan (after s) 0) ∧ Tick s (after s) 1 (chan s 1) (chan (after s) 1) ∧ (chan s 0).state = .ack ∧
      (chan s 0).regs.mode = .bulkIrq ∧ (chan s 1).regs.mode = .sharedQueue ∧ (chan s 0).reqValid = false ∧ portAck (chan s 0) = true :=
  ⟨tick_after rfl rfl rfl, tick_after rfl rfl rfl, rfl, rfl, rfl, rfl, rfl⟩

/-- A request raised for a channel that does not run is held, whatever the script drives next; after the acknowledge it is not. -/
theorem witness_AckTick_held :
    let s := given (two (bulk false .idle) Channel.reset) (port0 { PortIn.idle with req := true, burstCount := 2 })
    let r := { two (bulk true .ack) Channel.reset with held := [some 2, none] }
    Tick s (after s) 0 (chan s 0) (chan (after s) 0) ∧ (s.port 0).req = true ∧ portAck (chan s 0) = false ∧
      (after s).port 0 = { PortIn.idle with req := true, burstCount := 2 } ∧
      (r.port 0).req = true ∧ portAck (chan r 0) = true ∧ ((after r).port 0).req = false :=
  ⟨tick_after rfl rfl rfl, rfl, rfl, rfl, rfl, rfl, rfl⟩

theorem witness_WaitingTick :
    let s := two { queue .ticketRead with reqValid := true } { queue .lockRead with reqType := .lockRead, reqIssued := true }
    Tick s (after s) 0 (chan s 0) (chan (after s) 0) ∧ Tick s (after s) 1 (chan s 1) (chan (after s) 1) ∧ (chan s 0).state.isBus = true ∧
      (chan s 1).state.isBus = true ∧ (chan s 0).rspReady = false ∧ (chan s 1).rspReady = false ∧ (chan s 0).reqValid = true ∧
      (chan s 1).reqIssued = true ∧ (chan s 0).regs.running = true :=
  ⟨tick_after rfl rfl rfl, tick_after rfl rfl rfl, rfl, rfl, rfl, rfl, rfl, rfl, rfl⟩

/-- A gate just open (channel 0, room for exactly one burst) and one just closed (channel 1, one word short). -/
theorem witness_PostTick :
    let s := two { bulk true .bulkDataMove with remaining := 1, fifo := [1, 2, 3, 4] } { queue .dataMove with sqChunk := 1, fifo := [1, 2, 3] }
    Tick s (after s) 0 (chan s 0) (chan (after s) 0) ∧ Tick s (after s) 1 (chan s 1) (chan (after s) 1) ∧ HandshakeOk s ∧
      (chan s 0).state.isBus = true ∧ (chan s 0).quiet ∧ (chan s 0).remaining ≠ 0 ∧ (chan s 1).state.isBus = true ∧ (chan s 1).quiet ∧
      (chan s 1).sqChunk ≠ 0 ∧ (chan s 0).fifo.length ≤ s.params.fifoDepth ∧
      s.params.burstWords ≤ s.params.fifoDepth - (chan s 0).fifo.length ∧ ¬s.params.burstWords ≤ (chan s 1).fifo.length :=
  ⟨tick_after rfl rfl rfl, tick_after rfl rfl rfl, handshake_two rfl ⟨nofun, nofun, nofun, nofun⟩ ⟨nofun, nofun, nofun, nofun⟩ nofun, rfl,
    ⟨rfl, rfl, rfl⟩, by decide, rfl, ⟨rfl, rfl, rfl⟩, by decide, by decide, by decide, by decide⟩

theorem witness_PrePostTick :
    let s := two (bulk true .bulkDataMove) { queue .dataMove with sqMoved := 1 }
    Tick s (after s) 0 (chan s 0) (chan (after s) 0) ∧ Tick s (after s) 1 (chan s 1) (chan (after s) 1) ∧ HandshakeOk s ∧
      (chan s 0).quiet ∧ (chan s 1).quiet ∧ (chan s 0).state = .bulkDataMove ∧ (chan s 0).remaining = 0 ∧ (chan s 1).state = .dataMove ∧
      (chan s 1).sqChunk = 0 ∧ (chan s 1).sqMoved ≠ 0 ∧ (queue .dataMove).sqMoved = 0 :=
  ⟨tick_after rfl rfl rfl, tick_after rfl rfl rfl, handshake_two rfl ⟨nofun, nofun, nofun, nofun⟩ ⟨nofun, nofun, nofun, nofun⟩ nofun,
    ⟨rfl, rfl, rfl⟩, ⟨rfl, rfl, rfl⟩, rfl, rfl, rfl, rfl, by decide, rfl⟩

/-- A machine with two channels that meets the whole invariant, checked. -/
theorem machine_two {s : State} {c0 c1 : Channel} (hc : s.chans = [c0, c1]) (hp : s.params = V) (hs : ShapeOk s) (hh : HandshakeOk s)
    (r0 : RegsOk V c0.regs) (r1 : RegsOk V c1.regs) (u0 : RunOk V c0) (u1 : RunOk V c1) (q0 : QueueOk V (V.dir 0) c0) (q1 : QueueOk V (V.dir 1) c1) :
    MachineOk s := by
  refine ⟨hs, hh, ?_, fun _ => ?_, fun _ => ?_⟩
  · rw [hc, hp]; exact two_mem r0 r1
  · rw [hc, hp]; exact two_mem u0 u1
  · rw [hc, hp]; exact two_chans (P := fun k c => QueueOk V (V.dir k) c) q0 q1

/-- A bulk channel that has its last burst answered, and a producer that has one answered. -/
def moving : State :=
  two { answer (bulk true .bulkDataMove) 0 0 0 with reqType := .dataRead, offset := 48, remaining := 2 }
    { answer (queue .dataMove) 0 0 0 with reqType := .dataWrite, sqWr := 4, sqOcc := 4, sqChunk := 1, remaining := 2 }

theorem moving_ok : MachineOk moving :=
  machine_two rfl rfl (shape_two _ (by decide)) (handshake_two rfl ⟨nofun, nofun, nofun, fun _ => rfl⟩ ⟨nofun, nofun, nofun, fun _ => rfl⟩ nofun)
    (by constructor <;> decide) (by constructor <;> decide) (by constructor <;> decide) (by constructor <;> decide)
    (by constructor <;> decide) (by constructor <;> decide)

theorem witness_BulkTick : Tick moving (after moving) 0 (chan moving 0) (chan (after moving) 0) ∧ Safe moving ∧ NoFault (after moving) ∧
    (chan moving 0).state = .bulkDataMove ∧ (chan moving 0).answered ∧ (chan (after moving) 0).offset = (chan moving 0).regs.size :=
  ⟨tick_after rfl rfl rfl, ⟨moving_ok, rfl⟩, rfl, rfl, ⟨rfl, rfl⟩, rfl⟩

/-- The other two ends of a burst: the group done, and the next burst of the group. -/
theorem witness_BulkTick_clauses :
    let s := two { answer (bulk true .bulkDataMove) 0 0 0 with reqType := .dataRead, offset := 16, remaining := 1 } Channel.reset
    let r := two { answer (bulk true .bulkDataMove) 0 0 0 with reqType := .dataRead, offset := 16, remaining := 2 } Channel.reset
    Safe s ∧ Safe r ∧ Tick s (after s) 0 (chan s 0) (chan (after s) 0) ∧ Tick r (after r) 0 (chan r 0) (chan (after r) 0) ∧
      (chan (after s) 0).offset ≠ (chan s 0).regs.size ∧ (chan (after s) 0).remaining = 0 ∧ (chan (after r) 0).remaining ≠ 0 := by
  refine ⟨⟨machine_two rfl rfl (shape_two _ (by decide)) (handshake_two rfl ⟨nofun, nofun, nofun, fun _ => rfl⟩ (handshake_reset _) nofun)
      (by constructor <;> decide) (by constructor <;> decide) (by constructor <;> decide) (by constructor <;> decide)
      (by constructor <;> decide) (by constructor <;> decide), rfl⟩,
    ⟨machine_two rfl rfl (shape_two _ (by decide)) (handshake_two rfl ⟨nofun, nofun, nofun, fun _ => rfl⟩ (handshake_reset _) nofun)
      (by constructor <;> decide) (by constructor <;> decide) (by constructor <;> decide) (by constructor <;> decide)
      (by constructor <;> decide) (by constructor <;> decide), rfl⟩,
    tick_after rfl rfl rfl, tick_after rfl rfl rfl, by decide, rfl, by decide⟩

/-- The lock steps, each answered, with the value that goes on and the value that goes back. -/
theorem witness_LockStepTicks (q : FsmState) (hq : q = .ticketRead ∨ q = .ticketCas ∨ q = .lockRead ∨ q = .statusUpdate ∨ q = .lockRelease)
    (d : Word) (hd : d = 0 ∨ d = 1) :
    let s := two (answer (queue q) d 0 0) Channel.reset
    Tick s (after s) 0 (chan s 0) (chan (after s) 0) ∧ HandshakeOk s ∧ (chan s 0).answered ∧ (chan s 0).state = q ∧ (chan s 0).rspData0 = d := by
  rcases hq with rfl | rfl | rfl | rfl | rfl <;> rcases hd with rfl | rfl <;>
    exact ⟨tick_after rfl rfl rfl, handshake_two rfl ⟨nofun, nofun, nofun, fun _ => rfl⟩ (handshake_reset _) nofun, ⟨rfl, rfl⟩, rfl, rfl⟩

theorem witness_StatusReadTick :
    let s := two { answer (queue .statusRead) 4 0 4 with remaining := 2 } Channel.reset
    Tick s (after s) 0 (chan s 0) (chan (after s) 0) ∧ HandshakeOk s ∧ (chan s 0).state = .statusRead ∧ (chan s 0).answered ∧
      ¬BadDescriptor s.params (chan s 0) := by
  refine ⟨tick_after rfl rfl rfl, handshake_two rfl ⟨nofun, nofun, nofun, fun _ => rfl⟩ (handshake_reset _) nofun, rfl, ⟨rfl, rfl⟩, ?_⟩
  unfold BadDescriptor
  decide

/-- A descriptor out of range by one, a write index at the capacity, and a read index misaligned. -/
theorem witness_BadDescriptorFaults (d : Word × Word × Word) (hd : d = (9, 0, 0) ∨ d = (4, 0, 8) ∨ d = (4, 2, 6)) :
    let s := two (answer (queue .statusRead) d.1 d.2.1 d.2.2) Channel.reset
    s.chans[0]? = some (chan s 0) ∧ (chan s 0).state = .statusRead ∧ (chan s 0).answered ∧ BadDescriptor s.params (chan s 0) ∧
      NotStuck s ∧ s.gen.busy = false ∧ s.bus.wire = none ∧ s.input.cfg = none ∧ step s = .next (after s) := by
  rcases hd with rfl | rfl | rfl <;>
    refine ⟨rfl, rfl, ⟨rfl, rfl⟩, ?_, nofun, rfl, rfl, rfl, rfl⟩ <;> unfold BadDescriptor <;> decide

/-- A burst consumed after SIZE was cleared under it: the index is the free value of 8 mod 0, and the rest of R272 happens (log 30). -/
theorem test_data_move_no_capacity :
    let c := { queue .dataMove with regs := { (queue .dataMove).regs with size := 0 }, sqRd := 4, sqOcc := 8, sqChunk := 1, sqMoved := 0, remaining := 1 }
    consumeDataMove V .fromMemory c c = { c with sqRd := Config.modZero 8, sqOcc := 4, sqChunk := 0, sqMoved := 1, remaining := 0 } := rfl

/-- The producer of moving, and a consumer. -/
theorem witness_DataMoveTick : Tick moving (after moving) 1 (chan moving 1) (chan (after moving) 1) ∧ Safe moving ∧ NoFault (after moving) ∧
    (chan moving 1).state = .dataMove ∧ (chan moving 1).answered ∧ moving.params.dir 1 = .toMemory ∧
    (let s := two { answer (queue .dataMove) 0 0 0 with reqType := .dataRead, sqRd := 4, sqOcc := 8, sqWr := 4, sqChunk := 1, remaining := 1 } Channel.reset
     Tick s (after s) 0 (chan s 0) (chan (after s) 0) ∧ Safe s ∧ s.params.dir 0 = .fromMemory) :=
  ⟨tick_after rfl rfl rfl, ⟨moving_ok, rfl⟩, rfl, rfl, ⟨rfl, rfl⟩, rfl, tick_after rfl rfl rfl,
    ⟨machine_two rfl rfl (shape_two _ (by decide)) (handshake_two rfl ⟨nofun, nofun, nofun, fun _ => rfl⟩ (handshake_reset _) nofun)
      (by constructor <;> decide) (by constructor <;> decide) (by constructor <;> decide) (by constructor <;> decide)
      (by constructor <;> decide) (by constructor <;> decide), rfl⟩, rfl⟩

theorem witness_ErrorEntryTick (q : FsmState) (hq : q = .lockRead ∨ q = .statusUpdate ∨ q = .dataMove) :
    let s := two { answer (queue q) 0 0 0 with rspErr := true } Channel.reset
    Tick s (after s) 0 (chan s 0) (chan (after s) 0) ∧ HandshakeOk s ∧ (chan s 0).state.isBus = true ∧ (chan s 0).rspReady = true ∧
      (chan s 0).rspErr = true ∧ (chan s 0).state = q ∧ (chan s 0).regs.running = true := by
  rcases hq with rfl | rfl | rfl <;>
    exact ⟨tick_after rfl rfl rfl, handshake_two rfl ⟨nofun, nofun, nofun, fun _ => rfl⟩ (handshake_reset _) nofun, rfl, rfl, rfl, rfl, rfl⟩

/-- A port that pops a word while its channel goes to its error state, and one that pushes. -/
theorem witness_ErrorEntryTick_fifo :
    let e := fun (c : Channel) => { c with rspErr := true, fifo := [1, 2] }
    let s := given (two (e (answer (queue .dataMove) 0 0 0)) (e (answer (queue .dataMove) 0 0 0)))
      { TickIn.idle with ports := [{ PortIn.idle with rready := true }, { PortIn.idle with wvalid := true, wdata := 9 }] }
    Tick s (after s) 0 (chan s 0) (chan (after s) 0) ∧ Tick s (after s) 1 (chan s 1) (chan (after s) 1) ∧
      s.params.dir 0 = .fromMemory ∧ s.params.dir 1 = .toMemory ∧ s.gen.busy = false ∧ (chan (after s) 0).fifo = [2] ∧
      (chan (after s) 1).fifo = [1, 2, 9] ∧ (chan (after s) 1).state = .errorData :=
  ⟨tick_after rfl rfl rfl, tick_after rfl rfl rfl, rfl, rfl, rfl, rfl, rfl, rfl⟩

theorem witness_TerminalTick :
    let s := two (bulk true .success) (bulk false .errorData)
    Tick s (after s) 0 (chan s 0) (chan (after s) 0) ∧ Tick s (after s) 1 (chan s 1) (chan (after s) 1) ∧ (chan s 0).state.isTerminal = true ∧
      (chan s 1).state.isTerminal = true ∧ (chan s 0).regs.running = true ∧ (chan s 1).regs.running = false ∧ (chan s 0).reqValid = false :=
  ⟨tick_after rfl rfl rfl, tick_after rfl rfl rfl, rfl, rfl, rfl, rfl, rfl⟩

/-- A level that stays, and one that a stop takes away. -/
theorem witness_InterruptLevel :
    let s := two (bulk true .success) (bulk true .errorData)
    let r := given s (access 0x8024 0)
    Tick s (after s) 1 (chan s 1) (chan (after s) 1) ∧ irq (chan s 1) = true ∧ (chan (after s) 1).regs.running = true ∧
      Tick r (after r) 0 (chan r 0) (chan (after r) 0) ∧ irq (chan r 0) = true ∧ (chan (after r) 0).regs.running = false :=
  ⟨tick_after rfl rfl rfl, rfl, rfl, tick_after rfl rfl rfl, rfl, rfl⟩

/-! ### The arbiter, the demultiplexer and the ports -/

/-- Both channels with a request posted. -/
def posting : State := two { queue .ticketRead with reqValid := true } { queue .ticketRead with reqValid := true }

theorem posting_handshake : HandshakeOk posting :=
  handshake_two rfl ⟨fun _ => ⟨rfl, rfl⟩, nofun, fun _ => rfl, nofun⟩ ⟨fun _ => ⟨rfl, rfl⟩, nofun, fun _ => rfl, nofun⟩ nofun

/-- The last-served channel is 1 at reset, so channel 0 is just past it, j = 1; and the full scan j = 2 with channel 1 alone posted. -/
theorem witness_RoundRobinSelects : ShapeOk posting ∧ HandshakeOk posting ∧ step posting = .next (after posting) ∧ posting.gen.busy = false ∧
    (posting.gen.rrLast + 1) % posting.params.nChannels = 0 ∧ (chan posting 0).reqValid = true ∧
    selected posting ≠ some 1 ∧ (chan posting 1).reqValid = true ∧ (chan (after posting) 1).reqValid = true ∧
    (let s := two Channel.reset { queue .ticketRead with reqValid := true }
     ShapeOk s ∧ HandshakeOk s ∧ step s = .next (after s) ∧ s.gen.busy = false ∧ (s.gen.rrLast + 2) % s.params.nChannels = 1 ∧
      (chan s 1).reqValid = true ∧ (chan s 0).reqValid = false) :=
  ⟨shape_two _ (by decide), posting_handshake, rfl, rfl, rfl, rfl, by decide, rfl, rfl, shape_two _ (by decide),
    handshake_two rfl (handshake_reset _) ⟨fun _ => ⟨rfl, rfl⟩, nofun, fun _ => rfl, nofun⟩ nofun, rfl, rfl, rfl, rfl, rfl⟩

/-- Nothing posted. -/
theorem witness_RoundRobinSelects_none : ShapeOk State.reset ∧ HandshakeOk State.reset ∧ step State.reset = .next (after State.reset) ∧
    State.reset.gen.busy = false ∧ ∀ c ∈ State.reset.chans, c.reqValid = false :=
  ⟨shape_two _ (by decide), handshake_two rfl (handshake_reset _) (handshake_reset _) nofun, rfl, rfl, two_mem rfl rfl⟩

/-- One tick in which channel 0 is selected while channel 1 stays posted: a run of length 1. -/
theorem witness_RoundRobinIsFair :
    let f : Nat → State := fun i => if i = 0 then posting else after posting
    ShapeOk (f 0) ∧ (∀ i < 1, step (f i) = .next (f (i + 1))) ∧ (∀ i ≤ 1, ∃ c, (f i).chans[1]? = some c ∧ c.reqValid = true) ∧
      Selects (f 0) 0 ∧ ([0] : List Nat).Nodup ∧ (∀ i ∈ [0], i < 1 ∧ ∃ j, Selects (f i) j) ∧
      ∀ j, (∃ i ≤ 1, ∃ c, (f i).chans[j]? = some c ∧ c.reqValid = true) → j ∈ [0, 1] := by
  refine ⟨shape_two _ (by decide), ?_, ?_, ⟨rfl, by decide⟩, by decide, ?_, ?_⟩
  · intro i hi
    obtain rfl : i = 0 := by omega
    rfl
  · intro i hi
    have : i = 0 ∨ i = 1 := by omega
    rcases this with rfl | rfl
    · exact ⟨_, rfl, rfl⟩
    · exact ⟨_, rfl, rfl⟩
  · intro i hi
    obtain rfl : i = 0 := by simpa using hi
    exact ⟨by omega, 0, rfl, by decide⟩
  · rintro j ⟨i, hi, c, hc, -⟩
    have h2 : ((if i = 0 then posting else after posting).chans).length = 2 := by split <;> rfl
    have h3 : j < (if i = 0 then posting else after posting).chans.length := (List.getElem?_eq_some_iff.1 hc).1
    have : j = 0 ∨ j = 1 := by omega
    rcases this with rfl | rfl <;> simp

/-- A response flit for channel 0, which waits for one in state q. -/
def flitFor (q : FsmState) (t : ReqType) (d : Dmx) : State :=
  { two { queue q with reqType := t, reqIssued := true } Channel.reset with dmx := d, bus := { Bus.reset with rsp := some ⟨0, 5, false⟩ } }

theorem flitFor_handshake {q : FsmState} {t : ReqType} {d : Dmx} (h : postedRequest .fromMemory q = some t) (hd : d.ch = 0) :
    HandshakeOk (flitFor q t d) :=
  handshake_two rfl ⟨nofun, fun _ => rfl, fun _ => h, nofun⟩ (handshake_reset _) (fun _ => ⟨_, by rw [show (flitFor q t d).dmx.ch = 0 from hd]; rfl, rfl⟩)

theorem witness_FirstFlitTaken (q : FsmState) (t : ReqType)
    (hq : (q = .ticketCas ∧ t = .ticketCas) ∨ (q = .statusRead ∧ t = .statusRead) ∨ (q = .dataMove ∧ t = .dataRead)) :
    let s := flitFor q t ⟨false, 0, 0, 0, false⟩
    Tick s (after s) 0 (chan s 0) (chan (after s) 0) ∧ HandshakeOk s ∧ s.params.Wf ∧ s.dmx.busy = false ∧ s.bus.rsp = some ⟨0, 5, false⟩ ∧
      (chan s 0).reqIssued = true ∧ (chan s 0).state = q ∧ (chan s 0).fifo.length < s.params.fifoDepth ∧ (s.port 0).rready = false ∧
      2 ≤ s.params.burstWords := by
  rcases hq with ⟨rfl, rfl⟩ | ⟨rfl, rfl⟩ | ⟨rfl, rfl⟩ <;>
    exact ⟨tick_after rfl rfl rfl, flitFor_handshake rfl rfl, by decide, rfl, rfl, rfl, rfl, by decide, rfl, by decide⟩

/-- A data group of one flit: BURST_BYTES = 4. -/
theorem witness_FirstFlitTaken_one :
    let s := { flitFor .dataMove .dataRead ⟨false, 0, 0, 0, false⟩ with params := { V with burstBytes := 4 } }
    Tick s (after s) 0 (chan s 0) (chan (after s) 0) ∧ HandshakeOk s ∧ s.params.Wf ∧ s.dmx.busy = false ∧ s.bus.rsp = some ⟨0, 5, false⟩ ∧
      (chan s 0).reqIssued = true ∧ (chan s 0).state = .dataMove ∧ (chan s 0).fifo.length < s.params.fifoDepth ∧ (s.port 0).rready = false ∧
      s.params.burstWords = 1 :=
  ⟨tick_after rfl rfl rfl, handshake_two rfl ⟨nofun, fun _ => rfl, fun _ => rfl, nofun⟩ (handshake_reset _) nofun, by decide, rfl, rfl, rfl, rfl,
    by decide, rfl, by decide⟩

/-- The second and the third flit of a descriptor. -/
theorem witness_LaterFlitContinuesGroup (n : BitVec 16) (hn : n = 1 ∨ n = 2) :
    let s := flitFor .statusRead .statusRead ⟨true, 0, n, 3, false⟩
    Tick s (after s) 0 (chan s 0) (chan (after s) 0) ∧ HandshakeOk s ∧ s.dmx.busy = true ∧ s.dmx.ch = 0 ∧ s.bus.rsp = some ⟨0, 5, false⟩ ∧
      (chan s 0).state = .statusRead ∧ s.dmx.cnt = n ∧ s.dmx.need.toNat = 3 := by
  rcases hn with rfl | rfl <;> exact ⟨tick_after rfl rfl rfl, flitFor_handshake rfl rfl, rfl, rfl, rfl, rfl, rfl, rfl⟩

/-- The last flit of a data group, pushed into a FIFO with room for it alone. -/
theorem witness_LaterFlitContinuesGroup_data :
    let s := { two { queue .dataMove with reqType := .dataRead, reqIssued := true, fifo := [1, 2, 3, 4, 5, 6, 7] } Channel.reset with
      dmx := ⟨true, 0, 3, 4, false⟩, bus := { Bus.reset with rsp := some ⟨0, 8, false⟩ } }
    Tick s (after s) 0 (chan s 0) (chan (after s) 0) ∧ HandshakeOk s ∧ s.dmx.busy = true ∧ (chan s 0).state = .dataMove ∧
      (s.port 0).rready = false ∧ (chan s 0).fifo.length < s.params.fifoDepth ∧ s.dmx.cnt.toNat + 1 = s.dmx.need.toNat :=
  ⟨tick_after rfl rfl rfl, handshake_two rfl ⟨nofun, fun _ => rfl, fun _ => rfl, nofun⟩ (handshake_reset _) (fun _ => ⟨_, rfl, rfl⟩), rfl, rfl, rfl,
    by decide, rfl⟩

/-- The premises of each broken duty, and of a flit that waits. -/
theorem witness_BrokenDutiesFault :
    let at' := fun (c : Channel) (d : Dmx) (r : Nat) => { two c Channel.reset with dmx := d, bus := { Bus.reset with rsp := some ⟨r, 0, false⟩ } }
    let idle : Dmx := ⟨false, 0, 0, 0, false⟩
    let s := at' Channel.reset idle 2
    ShapeOk s ∧ NotStuck s ∧ s.gen.busy = false ∧ s.bus.wire = none ∧ s.input.cfg = none ∧ s.params.nChannels ≤ 2 ∧
      ShapeOk (at' (queue .statusRead) ⟨true, 0, 1, 3, false⟩ 1) ∧ (1 : Nat) ≠ 0 ∧
      ShapeOk (at' Channel.reset idle 0) ∧ Channel.reset.reqIssued = false ∧
      ShapeOk (at' { Channel.reset with reqIssued := true } idle 0) ∧ Channel.reset.state.isBus = false ∧
      (let w := at' (answer (queue .lockRead) 1 0 0) idle 0
       ShapeOk w ∧ step w = .next (after w) ∧ (chan w 0).rspReady = true) := by
  refine ⟨shape_two _ (by decide), nofun, rfl, rfl, rfl, by decide, shape_two _ (by decide), by decide, shape_two _ (by decide), rfl, shape_two _ (by decide),
    rfl, shape_two _ (by decide), rfl, rfl⟩

theorem witness_ErrorIsolation :
    let s := flitFor .ticketCas .ticketCas ⟨false, 0, 0, 0, false⟩
    let s' := { s with bus := { s.bus with rsp := some { (⟨0, 5, false⟩ : RspFlit) with rerror := true } } }
    s.bus.rsp = some ⟨0, 5, false⟩ ∧ step s = .next (after s) ∧ step s' = .next (after s') ∧ (1 : Nat) ≠ 0 :=
  ⟨rfl, rfl, rfl, by decide⟩

/-- A flit taken with room, one taken with none, and a tick with none taken; each with a port that pops, and the second with one that does not. -/
theorem witness_FromMemoryFifo :
    let at' := fun (q : List Word) (r : Option RspFlit) (x : PortIn) =>
      given { two { queue .dataMove with reqType := .dataRead, reqIssued := true, fifo := q } Channel.reset with
        bus := { Bus.reset with rsp := r } } (port0 x)
    let pop := { PortIn.idle with rready := true }
    let s := at' [1, 2, 3, 4, 5, 6, 7, 8] (some ⟨0, 9, false⟩) pop
    let r := at' [1, 2, 3, 4, 5, 6, 7, 8] (some ⟨0, 9, false⟩) PortIn.idle
    let w := at' [1] none pop
    (∀ q o x, HandshakeOk (at' q o x)) ∧ s.params.dir 0 = .fromMemory ∧
      ¬(s.gen.busy = true ∧ s.gen.ch = 0 ∧ (chan s 0).reqType = .dataWrite) ∧
      Tick s (after s) 0 (chan s 0) (chan (after s) 0) ∧ rspAccept s = true ∧ (chan s 0).fifo.tail.length < s.params.fifoDepth ∧
      Tick r (after r) 0 (chan r 0) (chan (after r) 0) ∧ rspAccept r = true ∧ s.params.fifoDepth ≤ (chan r 0).fifo.length ∧
      Tick w (after w) 0 (chan w 0) (chan (after w) 0) ∧ w.bus.rsp = none :=
  ⟨fun _ _ _ => handshake_two rfl ⟨nofun, fun _ => rfl, fun _ => rfl, nofun⟩ (handshake_reset _) nofun, rfl, by decide, tick_after rfl rfl rfl, rfl,
    by decide, tick_after rfl rfl rfl, rfl, by decide, tick_after rfl rfl rfl, rfl⟩

/-- A tick in which the generator pops a full FIFO while the port pushes, and one in which it does not pop. -/
theorem witness_ToMemoryFifo :
    let c := { queue .dataMove with reqType := .dataWrite, reqIssued := true, fifo := [1, 2, 3, 4, 5, 6, 7, 8] }
    let x : TickIn := { TickIn.idle with ports := [PortIn.idle, { PortIn.idle with wvalid := true, wdata := 9 }] }
    let s := given { two Channel.reset c with gen := ⟨true, 1, 0, 1⟩ } x
    let r := given (two Channel.reset c) x
    Tick s (after s) 1 (chan s 1) (chan (after s) 1) ∧ s.params.dir 1 = .toMemory ∧ s.gen.busy = true ∧ s.gen.ch = 1 ∧
      (chan s 1).reqType = .dataWrite ∧ BusTakes s ∧ Tick r (after r) 1 (chan r 1) (chan (after r) 1) ∧ r.gen.busy = false :=
  ⟨tick_after rfl rfl rfl, rfl, rfl, rfl, rfl, ⟨rfl, rfl⟩, tick_after rfl rfl rfl, rfl⟩

/-! ### The whole machine -/

/-- A running channel that a tick stops. -/
theorem witness_RunningConfigStable :
    let s := given (two (bulk true .success) Channel.reset) (access 0x8024 0)
    Tick s (after s) 0 (chan s 0) (chan (after s) 0) ∧ (chan s 0).regs.running = true ∧ (chan (after s) 0).regs.running = false :=
  ⟨tick_after rfl rfl rfl, rfl, rfl⟩

/-- A tick that records CANCEL_UNSUPPORTED, and one that writes a scratch register. -/
theorem witness_FaultsParamsScratch :
    let s := given (two (bulk true .bulkDataMove) Channel.reset) (access 0x8024 0)
    let r := given State.reset (access 0x8084 9)
    step s = .next (after s) ∧ (after s).faults = [.cancelUnsupported] ∧ step r = .next (after r) ∧ r.scratch[1]? = some 0 ∧
      (after r).scratch[1]? = some 9 :=
  ⟨rfl, rfl, rfl, rfl, rfl⟩

theorem witness_PartInvariantsKept : step moving = .next (after moving) ∧ ShapeOk moving ∧ HandshakeOk moving ∧ moving.params.Wf ∧
    ∀ c ∈ moving.chans, RegsOk moving.params c.regs :=
  ⟨rfl, moving_ok.shape, moving_ok.handshake, by decide, moving_ok.regs⟩

theorem witness_MachineInvariantKept : MachineOk moving ∧ step moving = .next (after moving) := ⟨moving_ok, rfl⟩

theorem witness_ResetIsOk : V.Wf ∧ Memory.wf [(0x1000, 1)] ∧ ∀ x ∈ ([(0x1000, 1)] : Memory), x.1 < 2 ^ V.paddrWidth := by decide

theorem witness_ResetValues : V.Wf := by decide

/-- n ticks in a row, if each answers a next state. -/
def runTicks : Nat → State → Option State
  | 0, s => some s
  | n + 1, s =>
    match step s with
    | .next t => runTicks n t
    | _ => none

theorem reaches_runTicks : ∀ (n : Nat) (s t : State), runTicks n s = some t → Reaches s t
  | 0, _, _, h => by cases h; exact .refl _
  | n + 1, s, t, h => by
    unfold runTicks at h
    split at h
    · exact .step ‹_› (reaches_runTicks n _ t h)
    · cases h

/-- A script for channel 0: SIZE 16, MODE 1, a start, and a request of one burst. -/
def bulkScript : List TickIn :=
  [access 0x8020 16, access 0x801C 1, access 0x8024 1, port0 { PortIn.idle with req := true, burstCount := 1 }]

/-- The reset state with a script and a memory. -/
def scripted (m : Memory) (e : List TickIn) : State := { State.resetWith V with mem := m, env := e }

/-- A state n ticks after scripted, if there is one. -/
theorem reaches_scripted {m : Memory} {e : List TickIn} (n : Nat) (h : (runTicks n (scripted m e)).isSome = true) :
    Reaches { State.resetWith V with mem := m, env := e } ((runTicks n (scripted m e)).getD State.reset) := by
  obtain ⟨t, ht⟩ := Option.isSome_iff_exists.1 h
  rw [ht]
  exact reaches_runTicks n _ t ht

/-- Six ticks on, channel 0 runs in BULK_DATA_MOVE with its DATA_READ posted. -/
theorem witness_BulkOffsetInvariant :
    let t := (runTicks 6 (scripted [] bulkScript)).getD State.reset
    V.Wf ∧ Memory.wf [] ∧ Reaches { State.resetWith V with mem := [], env := bulkScript } t ∧ NoFault t ∧ chan t 0 ∈ t.chans ∧
      (chan t 0).regs.running = true ∧ (chan t 0).regs.mode ≠ .sharedQueue ∧ (chan t 0).state = .bulkDataMove ∧ (chan t 0).reqType = .dataRead :=
  ⟨by decide, by decide, reaches_scripted 6 rfl, rfl, List.mem_of_getElem? (i := 0) rfl, rfl, by decide, rfl, rfl⟩

/-- Thirteen ticks on, it is in SUCCESS. -/
theorem witness_BulkOffsetInvariant_success :
    let t := (runTicks 13 (scripted [] bulkScript)).getD State.reset
    Reaches { State.resetWith V with mem := [], env := bulkScript } t ∧ NoFault t ∧ chan t 0 ∈ t.chans ∧
      (chan t 0).regs.running = true ∧ (chan t 0).state = .success :=
  ⟨reaches_scripted 13 rfl, rfl, List.mem_of_getElem? (i := 0) rfl, rfl, rfl⟩

/-- A stopped channel, at reset; a running shared-queue channel; a running bulk channel. -/
theorem witness_RunStates :
    let t := (runTicks 2 (scripted [] [access 0x8020 16, access 0x8024 1])).getD State.reset
    V.Wf ∧ Memory.wf [] ∧ Reaches { State.resetWith V with mem := [], env := [access 0x8020 16, access 0x8024 1] } t ∧ NoFault t ∧
      chan t 0 ∈ t.chans ∧ (chan t 0).regs.running = true ∧ (chan t 0).regs.mode = .sharedQueue ∧ chan t 1 ∈ t.chans ∧
      (chan t 1).regs.running = false ∧
      (chan ((runTicks 6 (scripted [] bulkScript)).getD State.reset) 0).regs.mode ≠ .sharedQueue :=
  ⟨by decide, by decide, reaches_scripted 2 rfl, rfl, List.mem_of_getElem? (i := 0) rfl, rfl, rfl, List.mem_of_getElem? (i := 1) rfl, rfl,
    by decide⟩

/-- A one-burst bulk channel with its burst answered. -/
def lastBurst : State :=
  two { answer (bulk true .bulkDataMove) 0 0 0 with regs := ⟨0x1000, 0, 0, .bulkIrq, 16, true⟩, reqType := .dataRead, remaining := 1 } Channel.reset

/-- A run of one tick, which consumes it. -/
theorem witness_BulkCompletion :
    let f : Nat → State := fun i => if i = 0 then lastBurst else after lastBurst
    MachineOk (f 0) ∧ (∀ i < 1, step (f i) = .next (f (i + 1))) ∧ NoFault (f 1) ∧
      (∀ i ≤ 1, ∃ d, (f i).chans[0]? = some d ∧ d.regs.running = true) ∧ (f 0).chans[0]? = some (chan lastBurst 0) ∧
      (chan lastBurst 0).regs.mode ≠ .sharedQueue ∧ (chan lastBurst 0).offset = 0 ∧ (f 1).chans[0]? = some (chan (after lastBurst) 0) ∧
      (chan (after lastBurst) 0).state = .success ∧
      ((List.range 1).filter fun j => burstDone (f j) 0).length * (f 0).params.burstBytes = (chan lastBurst 0).regs.size.toNat := by
  refine ⟨machine_two (s := lastBurst) rfl rfl (shape_two _ (by decide))
      (handshake_two rfl ⟨nofun, nofun, nofun, fun _ => rfl⟩ (handshake_reset _) nofun)
      (by constructor <;> decide) (by constructor <;> decide) (by constructor <;> decide) (by constructor <;> decide)
      (by constructor <;> decide) (by constructor <;> decide), ?_, rfl, ?_, rfl, by decide, rfl, rfl, rfl, rfl⟩
  · intro i hi
    obtain rfl : i = 0 := by omega
    rfl
  · intro i hi
    have : i = 0 ∨ i = 1 := by omega
    rcases this with rfl | rfl
    · exact ⟨_, rfl, rfl⟩
    · exact ⟨_, rfl, rfl⟩

/-- A script for channel 0: SIZE 32, the descriptor at 0x10, the lock at 0x20, a start, and a request of one burst. -/
def queueScript : List TickIn :=
  [access 0x8020 32, access 0x8008 0x10, access 0x8010 0x20, access 0x8024 1, port0 { PortIn.idle with req := true, burstCount := 1 }]

/-- The descriptor (4, 0, 4) at 0x10, and the lock (0, 0) at 0x20. -/
def queueMemory : Memory := [(0x10, 4), (0x18, 4)]

/-- Thirty ticks on, channel 0 is in DATA_MOVE with its DATA_READ posted. -/
theorem witness_QueueBurstInside :
    let t := (runTicks 30 (scripted queueMemory queueScript)).getD State.reset
    V.Wf ∧ Memory.wf queueMemory ∧ (∀ x ∈ queueMemory, x.1 < 2 ^ V.paddrWidth) ∧
      Reaches { State.resetWith V with mem := queueMemory, env := queueScript } t ∧ NoFault t ∧ t.chans[0]? = some (chan t 0) ∧
      (chan t 0).state = .dataMove ∧ (chan t 0).reqType = .dataRead :=
  ⟨by decide, by decide, by decide, reaches_scripted 30 rfl, rfl, rfl, rfl, rfl⟩

end Sys2Proof.Tests
end

section
/-!
SUPPORT. What a tick runs on each interface, as one equation per case of each phase; that each phase answers a next state; and, from these, the two statements of
00_scope.md about a step (R15, R16).
-/
namespace Sys2Proof.Machine

/-! ### A stuck machine and a tick that runs (R440; log 4) -/

theorem stuckIn_eq_none_iff {s : State} : stuckIn s = none ↔ NotStuck s := by
  simp [stuckIn, List.find?_eq_none]

theorem stuckIn_some {s : State} {f : Fault} (h : stuckIn s = some f) : f ∈ s.faults ∧ f ≠ .cancelUnsupported :=
  ⟨List.mem_of_find?_eq_some h, by simpa using List.find?_some h⟩

theorem step_of_notStuck {s : State} (h : NotStuck s) :
    step s = andThen (sendPhase s) fun s1 => andThen (commandPhase s1) fun s2 => andThen (accessPhase s2) fun s3 => .next (agentsPhase s s3) := by
  simp only [step, tick, stuckIn_eq_none_iff.2 h]

theorem step_of_stuck {s : State} (h : ¬NotStuck s) : ∃ f, f ∈ s.faults ∧ f ≠ .cancelUnsupported ∧ step s = .fault f := by
  obtain ⟨f, hf⟩ := Option.ne_none_iff_exists'.1 (mt stuckIn_eq_none_iff.1 h)
  obtain ⟨hmem, hne⟩ := stuckIn_some hf
  exact ⟨f, hmem, hne, by simp only [step, tick, hf]⟩

/-- Two sequences with the same first part agree when their second parts agree on what it answers. -/
theorem andThen_congr {σ τ φ ρ : Type} {o : Host.Outcome σ φ ρ} {f g : σ → Host.Outcome τ φ ρ} (h : ∀ s, o = .next s → f s = g s) :
    andThen o f = andThen o g := by
  cases o with
  | next s => exact h s rfl
  | fault r => rfl
  | refused r => rfl

/-! ### What each phase runs -/

theorem runRaw_ok {s : State} {r : RawInstr} {i : Instr} (h : decode s.params r = .ok i) : runRaw r s = exec i s := by
  simp only [runRaw, h]

theorem sendPhase_idle {s : State} (h : s.gen.busy = false) : sendPhase s = .next s := by
  simp [sendPhase, fetchRequest, h]

theorem sendPhase_busy {s : State} {c : Channel} (h : s.gen.busy = true) (hc : s.chans[s.gen.ch]? = some c) :
    sendPhase s = runRaw (.req c.reqType.code s.gen.ch) s := by
  simp [sendPhase, fetchRequest, h, hc]

theorem commandPhase_none {s : State} (h : s.bus.wire = none) : commandPhase s = .next s := by
  simp [commandPhase, fetchCommand, h]

theorem commandPhase_some {s : State} {f : CmdFlit} (h : s.bus.wire = some f) :
    commandPhase s = runRaw (.bus f) { s with bus := { s.bus with wire := none } } := by
  simp [commandPhase, fetchCommand, h]

theorem accessPhase_none {s : State} (h : s.input.cfg = none) : accessPhase s = .next (s.reply .idle) := by
  simp [accessPhase, fetchAccess, h]

theorem accessPhase_some {s : State} {a : CfgAccess} (h : s.input.cfg = some a) : accessPhase s = runRaw (.cfg a.word a.wdata) s := by
  simp [accessPhase, fetchAccess, h]

/-! ### The inputs of the tick last through it (R16) -/

theorem sendPhase_input {s t : State} (h : sendPhase s = .next t) : t.input = s.input := by
  simp only [State.input, (sendPhase_step h).env]

theorem commandPhase_input {s t : State} (h : commandPhase s = .next t) : t.input = s.input := by
  obtain ⟨_, _, rfl, -⟩ := commandPhase_next h
  rfl

/-- The rest of a tick without an access, once the generator has done its step (R120). -/
theorem andThen_command_noAccess {s s1 : State} (hi : s1.input.cfg = none) :
    (andThen (commandPhase s1) fun s2 => andThen (accessPhase s2) fun s3 => .next (agentsPhase s s3)) =
      andThen (commandPhase s1) fun s2 => .next (agentsPhase s (s2.reply .idle)) :=
  andThen_congr fun s2 h2 => by rw [accessPhase_none (by rw [commandPhase_input h2, hi]), andThen_next_eq]

/-! ### Each clause of the statement about what a step runs -/

theorem step_access {s : State} {a : CfgAccess} {i : Instr} (hn : NotStuck s) (hb : s.gen.busy = false) (hw : s.bus.wire = none)
    (hc : s.input.cfg = some a) (hi : decode s.params (.cfg a.word a.wdata) = .ok i) :
    step s = andThen (exec i s) fun s1 => .next (agentsPhase s s1) := by
  rw [step_of_notStuck hn, sendPhase_idle hb, andThen_next_eq, commandPhase_none hw, andThen_next_eq, accessPhase_some hc, runRaw_ok hi]

theorem step_request {s : State} {c : Channel} {i : Instr} (hn : NotStuck s) (hb : s.gen.busy = true) (hch : s.chans[s.gen.ch]? = some c)
    (hc : s.input.cfg = none) (hi : decode s.params (.req c.reqType.code s.gen.ch) = .ok i) :
    step s = andThen (exec i s) fun s1 => andThen (commandPhase s1) fun s2 => .next (agentsPhase s (s2.reply .idle)) := by
  have hsend : sendPhase s = exec i s := (sendPhase_busy hb hch).trans (runRaw_ok hi)
  rw [step_of_notStuck hn, hsend]
  exact andThen_congr fun s1 h1 => andThen_command_noAccess (by rw [sendPhase_input (hsend.trans h1), hc])

theorem step_noRequest {s : State} (hn : NotStuck s) (hb : s.gen.busy = false) (hc : s.input.cfg = none) :
    step s = andThen (commandPhase s) fun s2 => .next (agentsPhase s (s2.reply .idle)) := by
  rw [step_of_notStuck hn, sendPhase_idle hb, andThen_next_eq, andThen_command_noAccess hc]

theorem step_command {s : State} {f : CmdFlit} {i : Instr} (hn : NotStuck s) (hb : s.gen.busy = false) (hw : s.bus.wire = some f)
    (hc : s.input.cfg = none) (hi : decode s.params (.bus f) = .ok i) :
    step s = andThen (exec i { s with bus := { s.bus with wire := none } }) fun s2 => .next (agentsPhase s (s2.reply .idle)) := by
  rw [step_noRequest hn hb hc, commandPhase_some hw]
  exact congrArg (andThen · _) (runRaw_ok hi)

theorem step_idle {s : State} (hn : NotStuck s) (hb : s.gen.busy = false) (hw : s.bus.wire = none) (hc : s.input.cfg = none) :
    step s = .next (agentsPhase s (s.reply .idle)) := by
  rw [step_noRequest hn hb hc, commandPhase_none hw, andThen_next_eq]

/-- Settles O27: each clause is the tick's phases on its interface, an idle interface leaving the state, and the tick's inputs, as they were. -/
theorem stepRunsDecoded : Obligations.StepRunsDecoded :=
  ⟨fun _ _ _ => step_access, fun _ _ _ => step_request, fun _ _ _ => step_command, fun _ => step_idle⟩

/-! ### The generator's sending step answers -/

/-- There is a record for every channel number (R122). -/
theorem chans_getElem? {s : State} {k : Nat} (hl : s.chans.length = s.params.nChannels) (hk : k < s.params.nChannels) :
    ∃ c, s.chans[k]? = some c :=
  ⟨_, List.getElem?_eq_getElem (hl ▸ hk)⟩

theorem sendFlit_answers {s : State} {k : Nat} {c : Channel} (hc : s.chans[k]? = some c) (t : ReqType) : ∃ s', sendFlit t k s = .next s' := by
  rw [sendFlit, withChan_eq hc]
  split
  · exact ⟨_, rfl⟩
  · split <;> exact ⟨_, rfl⟩

theorem sendPhase_sendFlit {s : State} {c : Channel} (hb : s.gen.busy = true) (hk : s.gen.ch < s.params.nChannels)
    (hc : s.chans[s.gen.ch]? = some c) : sendPhase s = sendFlit c.reqType s.gen.ch s := by
  rw [sendPhase_busy hb hc, runRaw_ok (Laws.Roundtrip.decode_request (decide_eq_true hk) _), exec_requestOfCode]

theorem sendPhase_answers {s : State} (hl : s.chans.length = s.params.nChannels) (hk : s.gen.ch < s.params.nChannels) :
    ∃ t, sendPhase s = .next t := by
  by_cases hb : s.gen.busy = true
  · obtain ⟨c, hc⟩ := chans_getElem? hl hk
    rw [sendPhase_sendFlit hb hk hc]
    exact sendFlit_answers hc _
  · exact ⟨s, sendPhase_idle (by simpa using hb)⟩

/-! ### The bus's taking of a command answers -/

/-- The wire carries no foreign flit: a flit on it has one of the three commands and a channel's tag (R131, R133). -/
def WireOk (s : State) : Prop := ∀ f, s.bus.wire = some f → f.cmd ≠ 3 ∧ f.tag < s.params.nChannels

theorem reqCmd_ne_reserved (t : ReqType) : reqCmd t ≠ 3 := by cases t <;> decide

/-- The generator puts no foreign flit on the wire (R132, R303). -/
theorem sendPhase_wireOk {s t : State} (hw : WireOk s) (hk : s.gen.ch < s.params.nChannels) (h : sendPhase s = .next t) : WireOk t := by
  rcases sendPhase_next h with ⟨-, rfl⟩ | ⟨-, c, -, hsend⟩
  · exact hw
  · obtain ⟨d, -, ⟨-, -, rfl⟩ | ⟨-, -, rfl⟩ | ⟨-, -, rfl⟩⟩ := sendFlit_next hsend
    · exact hw
    · exact hw
    · rintro f ⟨⟩
      exact ⟨reqCmd_ne_reserved _, hk⟩

/-- A flit that is not foreign is a command the bus takes (R131). -/
theorem runRaw_bus {s : State} {f : CmdFlit} (hcmd : f.cmd ≠ 3) (htag : f.tag < s.params.nChannels) :
    ∃ op, runRaw (.bus f) s = takeCommand op f.addr f.plen f.wdata f.eop f.tag s := by
  have run : ∀ i, decodeFlit f = .ok i → runRaw (.bus f) s = exec i s := fun i hi => runRaw_ok ((if_pos htag).trans hi)
  have hcases : f.cmd = 0 ∨ f.cmd = 1 ∨ f.cmd = 2 := by bv_omega
  rcases hcases with h | h | h
  · exact ⟨.read, run (.busRead f.addr f.plen f.wdata f.eop f.tag) (by simp [decodeFlit, h])⟩
  · exact ⟨.write, run (.busWrite f.addr f.plen f.wdata f.eop f.tag) (by simp [decodeFlit, h])⟩
  · exact ⟨.cas, run (.busCas f.addr f.plen f.wdata f.eop f.tag) (by simp [decodeFlit, h])⟩

theorem takeCommand_answers (op : BusOp) (a : Addr) (pl : BitVec 16) (w : Word) (e : Bool) (tag : Nat) (s : State) :
    ∃ t, takeCommand op a pl w e tag s = .next t := by
  unfold takeCommand
  split <;> exact ⟨_, rfl⟩

theorem commandPhase_answers {s : State} (hw : WireOk s) : ∃ t, commandPhase s = .next t := by
  cases h : s.bus.wire with
  | none => exact ⟨s, commandPhase_none h⟩
  | some f =>
    obtain ⟨hcmd, htag⟩ := hw f h
    obtain ⟨op, hop⟩ := runRaw_bus (s := { s with bus := { s.bus with wire := none } }) hcmd htag
    rw [commandPhase_some h, hop]
    exact takeCommand_answers op _ _ _ _ _ _

/-! ### Every register access answers (R120, R160) -/

theorem readReg_answers {s : State} {k : Nat} {c : Channel} (hc : s.chans[k]? = some c) (f : Channel → Word) : ∃ t, readReg s k f = .next t :=
  ⟨_, withChan_eq hc _⟩

theorem writeReadOnly_answers {s : State} {k : Nat} {c : Channel} (hc : s.chans[k]? = some c) : ∃ t, writeReadOnly s k = .next t :=
  ⟨_, withChan_eq hc _⟩

theorem writeStopped_answers {s : State} {k : Nat} {c : Channel} (hc : s.chans[k]? = some c) (legal : Bool) (f : ChanRegs → ChanRegs) :
    ∃ t, writeStopped s k legal f = .next t := by
  rw [writeStopped, withChan_eq hc]
  split
  · exact ⟨_, rfl⟩
  · split <;> exact ⟨_, rfl⟩

theorem execWrRunning_answers {s : State} {k : Nat} {c : Channel} (hc : s.chans[k]? = some c) (v : Word) :
    ∃ t, execWrRunning k v s = .next t := by
  rw [execWrRunning, withChan_eq hc]
  dsimp only
  split
  · split <;> exact ⟨_, rfl⟩
  · split <;> exact ⟨_, rfl⟩
  · exact ⟨_, rfl⟩

/-- A read of a register of a channel that exists (R123). -/
theorem exec_rdChannelRegister_answers {s : State} {k n : Nat} {c : Channel} {i : Instr} (hc : s.chans[k]? = some c)
    (h : rdChannelRegister k n = some i) : ∃ t, exec i s = .next t := by
  unfold rdChannelRegister at h
  split at h <;> cases h <;> exact readReg_answers hc _

/-- A write of a register of a channel that exists (R123). -/
theorem exec_wrChannelRegister_answers {s : State} {k n : Nat} {v : Word} {c : Channel} {i : Instr} (hc : s.chans[k]? = some c)
    (h : wrChannelRegister k v n = some i) : ∃ t, exec i s = .next t := by
  unfold wrChannelRegister at h
  split at h <;> cases h <;> rw [exec]
  -- the six halves of the addresses
  iterate 6 exact writeStopped_answers hc _ _
  -- DIRECTION, MODE, SIZE, RUNNING, STATUS
  · exact writeReadOnly_answers hc
  · exact writeStopped_answers hc _ _
  · exact writeStopped_answers hc _ _
  · exact execWrRunning_answers hc v
  · exact writeReadOnly_answers hc

theorem exec_rdScratch_answers {s : State} {i : Nat} (h : i < s.scratch.length) : ∃ t, exec (.rdScratch i) s = .next t := by
  simp [exec, execRdScratch, h]

theorem exec_wrScratch_answers {s : State} {i : Nat} (v : Word) (h : i < s.scratch.length) : ∃ t, exec (.wrScratch i v) s = .next t := by
  simp [exec, execWrScratch, h]

theorem exec_decodeRead_answers {s : State} (hl : s.chans.length = s.params.nChannels) (hsc : s.scratch.length = s.params.nScratch)
    (w : BitVec 16) : ∃ t, exec (decodeRead s.params w) s = .next t := by
  unfold decodeRead
  split
  · exact ⟨_, rfl⟩
  · split
    · rename_i hk
      obtain ⟨c, hc⟩ := chans_getElem? hl hk
      cases hr : rdChannelRegister (wordBlock w) (wordIndex w) with
      | none => exact ⟨_, rfl⟩
      | some i => exact exec_rdChannelRegister_answers hc hr
    · split
      · rename_i hi
        exact exec_rdScratch_answers (hsc ▸ hi.2)
      · exact ⟨_, rfl⟩

theorem exec_decodeWrite_answers {s : State} (hl : s.chans.length = s.params.nChannels) (hsc : s.scratch.length = s.params.nScratch)
    (w : BitVec 16) (v : Word) : ∃ t, exec (decodeWrite s.params w v) s = .next t := by
  unfold decodeWrite
  split
  · exact ⟨_, rfl⟩
  · split
    · rename_i hk
      obtain ⟨c, hc⟩ := chans_getElem? hl hk
      cases hr : wrChannelRegister (wordBlock w) v (wordIndex w) with
      | none => exact ⟨_, rfl⟩
      | some i => exact exec_wrChannelRegister_answers hc hr
    · split
      · rename_i hi
        exact exec_wrScratch_answers v (hsc ▸ hi.2)
      · exact ⟨_, rfl⟩

theorem accessPhase_answers {s : State} (hl : s.chans.length = s.params.nChannels) (hsc : s.scratch.length = s.params.nScratch) :
    ∃ t, accessPhase s = .next t := by
  cases h : s.input.cfg with
  | none => exact ⟨_, accessPhase_none h⟩
  | some a =>
    rw [accessPhase_some h, runRaw_ok rfl]
    split
    · exact exec_decodeWrite_answers hl hsc _ _
    · exact exec_decodeRead_answers hl hsc _

/-! ### A tick is never refused -/

/-- A tick of a machine that is not stuck answers: each phase does, and leaves what the next one needs as it was. -/
theorem step_answers {s : State} (hs : ShapeOk s) (hw : WireOk s) (hn : NotStuck s) : ∃ t, step s = .next t := by
  obtain ⟨s1, h1⟩ := sendPhase_answers hs.chans hs.genCh
  have S := sendPhase_step h1
  obtain ⟨s2, h2⟩ := commandPhase_answers (sendPhase_wireOk hw hs.genCh h1)
  have hl1 : s1.chans.length = s1.params.nChannels := by rw [S.chansLen, S.params, hs.chans]
  have hsc1 : s1.scratch.length = s1.params.nScratch := by rw [S.scratch, S.params, hs.scratch]
  obtain ⟨s3, h3⟩ : ∃ s3, accessPhase s2 = .next s3 := by
    obtain ⟨_, _, rfl, -⟩ := commandPhase_next h2
    exact accessPhase_answers hl1 hsc1
  refine ⟨agentsPhase s s3, ?_⟩
  rw [step_of_notStuck hn, h1, andThen_next_eq, h2, andThen_next_eq, h3, andThen_next_eq]

/-- Settles O28: a tick that is not stuck answers in each of its phases, and a stuck one ends in the fault found. -/
theorem stepNeverRefused : Obligations.StepNeverRefused :=
  fun _ hs hw => ⟨step_answers hs hw, step_of_stuck⟩

end Sys2Proof.Machine
end

section
/-!
SUPPORT. What can change a scratch register, said once for every instruction (R185, R186), for the access of a tick and for a whole tick; and, from that and what a
tick leaves alone, the statement about recorded faults, parameters and scratch registers (R11, R40, R59).
-/
namespace Sys2Proof.Machine

/-! ### The shared operations leave the scratch registers alone -/

theorem readReg_scratch {s t : State} {k : Nat} {f : Channel → Word} (h : readReg s k f = .next t) : t.scratch = s.scratch := by
  obtain ⟨c, -, h⟩ := withChan_next h
  cases h
  rfl

theorem writeReadOnly_scratch {s t : State} {k : Nat} (h : writeReadOnly s k = .next t) : t.scratch = s.scratch := by
  obtain ⟨c, -, h⟩ := withChan_next h
  cases h
  rfl

theorem writeStopped_scratch {s t : State} {k : Nat} {legal : Bool} {f : ChanRegs → ChanRegs} (h : writeStopped s k legal f = .next t) :
    t.scratch = s.scratch := by
  obtain ⟨c, -, h⟩ := withChan_next h
  split at h
  · cases h; rfl
  · split at h <;> cases h <;> rfl

theorem execWrRunning_scratch {s t : State} {k : Nat} {v : Word} (h : execWrRunning k v s = .next t) : t.scratch = s.scratch := by
  obtain ⟨c, -, h⟩ := withChan_next h
  dsimp only at h
  split at h
  · split at h <;> cases h <;> rfl
  · split at h <;> cases h <;> rfl
  · cases h; rfl

theorem execRdScratch_scratch {s t : State} {i : Nat} (h : execRdScratch i s = .next t) : t.scratch = s.scratch := by
  unfold execRdScratch at h
  split at h <;> cases h
  rfl

theorem sendFlit_scratch {s t : State} {r : ReqType} {k : Nat} (h : sendFlit r k s = .next t) : t.scratch = s.scratch := by
  obtain ⟨c, -, ⟨-, -, rfl⟩ | ⟨-, -, rfl⟩ | ⟨-, -, rfl⟩⟩ := sendFlit_next h <;> rfl

theorem takeCommand_scratch {op : BusOp} {a : Addr} {pl : BitVec 16} {w : Word} {e : Bool} {tag : Nat} {s t : State}
    (h : takeCommand op a pl w e tag s = .next t) : t.scratch = s.scratch := by
  obtain ⟨_, _, _, rfl, -⟩ := takeCommand_next h
  rfl

/-! ### The one instruction that writes a scratch register -/

theorem execWrScratch_scratch {s t : State} {i : Nat} {v : Word} (h : execWrScratch i v s = .next t) : t.scratch = s.scratch.set i v := by
  unfold execWrScratch at h
  split at h <;> cases h
  rfl

/-- WR SCRATCH writes its own register, and no other instruction writes one (R185, R186). -/
theorem exec_scratch {s t : State} {i : Instr} (h : exec i s = .next t) :
    t.scratch = s.scratch ∨ ∃ j v, i = .wrScratch j v ∧ t.scratch = s.scratch.set j v := by
  cases i with
  | wrScratch j v => exact .inr ⟨j, v, rfl, execWrScratch_scratch h⟩
  | rdScratch j => exact .inl (execRdScratch_scratch h)
  | wrRunning k v => exact .inl (execWrRunning_scratch h)
  | rdBufferAddrLo k | rdBufferAddrHi k | rdDescAddrLo k | rdDescAddrHi k | rdLockAddrLo k | rdLockAddrHi k
  | rdDirection k | rdMode k | rdSize k | rdRunning k | rdStatus k => exact .inl (readReg_scratch h)
  | wrBufferAddrLo k v | wrBufferAddrHi k v | wrDescAddrLo k v | wrDescAddrHi k v | wrLockAddrLo k v | wrLockAddrHi k v
  | wrMode k v | wrSize k v =>
    rw [exec] at h
    exact .inl (writeStopped_scratch h)
  | wrDirection k v | wrStatus k v => exact .inl (writeReadOnly_scratch h)
  | rdReserved a => cases h; exact .inl rfl
  | wrReserved a v => cases h; exact .inl rfl
  | ticketRead k | ticketCas k | lockRead k | statusRead k | dataRead k | dataWrite k | statusWrite k | lockRelease k =>
    exact .inl (sendFlit_scratch h)
  | busRead a p w e g | busWrite a p w e g | busCas a p w e g => exact .inl (takeCommand_scratch h)

/-! ### The parts of a tick -/

/-- The access of the tick decodes to a write of scratch register j with the word v (R120, R186). -/
def WritesScratch (s : State) (j : Nat) (v : Word) : Prop :=
  ∃ a, s.input.cfg = some a ∧ decode s.params (.cfg a.word a.wdata) = .ok (.wrScratch j v)

theorem accessPhase_scratch {s t : State} (h : accessPhase s = .next t) :
    t.scratch = s.scratch ∨ ∃ j v, WritesScratch s j v ∧ t.scratch = s.scratch.set j v := by
  cases ha : s.input.cfg with
  | none =>
    rw [accessPhase_none ha] at h
    cases h
    exact .inl rfl
  | some a =>
    obtain ⟨i, hi, -⟩ := decode_cfg s.params a.word a.wdata
    rw [accessPhase_some ha, runRaw_ok hi] at h
    rcases exec_scratch h with he | ⟨j, v, rfl, he⟩
    · exact .inl he
    · exact .inr ⟨j, v, ⟨a, ha, hi⟩, he⟩

/-- The agents that run after the access leave the scratch registers alone. -/
theorem agentsPhase_scratch {s0 s : State} (hp : s.params = s0.params) (hd : s.dmx = s0.dmx) : (agentsPhase s0 s).scratch = s.scratch := by
  have A := arbPhase_step s0 (portPhase s0 s)
  have D := dmxPhase_step (A.params.trans hp) (A.dmx.trans hd)
  obtain ⟨cs, fs, hf, -⟩ := fsmPhase_frame s0 (dmxPhase s0 (arbPhase s0 (portPhase s0 s)))
  rw [agentsPhase, endTick_scratch, hf]
  exact D.scratch.trans A.scratch

/-- A tick changes the scratch registers by its access only, and then as that access writes them (R40, R186). -/
theorem step_scratch {s t : State} (h : step s = .next t) :
    t.scratch = s.scratch ∨ ∃ j v, WritesScratch s j v ∧ t.scratch = s.scratch.set j v := by
  obtain ⟨-, s1, s2, s3, h1, h2, h3, rfl⟩ := step_phases h
  have S := sendPhase_step h1
  have A := accessPhase_next h3
  have hin : s2.input = s.input := (commandPhase_input h2).trans (sendPhase_input h1)
  obtain ⟨m, b, rfl, -⟩ := commandPhase_next h2
  rw [agentsPhase_scratch (A.params.trans S.params) (A.dmx.trans S.dmx)]
  have hacc := accessPhase_scratch h3
  simp only [WritesScratch, hin] at hacc
  rw [S.params, S.scratch] at hacc
  exact hacc

/-- Settles O52: the tick's frame gives the faults and the parameters, and the access of the tick is the only writer of a scratch register. -/
theorem faultsParamsScratch : Obligations.FaultsParamsScratch := by
  intro s t h
  have F := step_frame h
  refine ⟨F.faultsKept, F.params, fun i w hw => ?_⟩
  rcases step_scratch h with he | ⟨j, v, ⟨a, ha, hdec⟩, he⟩
  · exact .inl (he ▸ hw)
  by_cases hij : j = i
  · subst hij
    have hlt := (List.getElem?_eq_some_iff.1 hw).1
    exact .inr ⟨a, v, ha, hdec, by rw [he, List.getElem?_set_self hlt]⟩
  · exact .inl (by rw [he, List.getElem?_set_ne hij, hw])

end Sys2Proof.Machine
end

section
/-!
SUPPORT. The taking of a command flit, one equation per case of it (R96 B2), the word accesses of a put-off transaction as one performing of them (R85, R86), and
what a performing leaves alone; and, from these, the statements about the three bus commands and about MemRead after MemWrite (R85 to R87, R96).
-/
namespace Sys2Proof.Machine

/-! ### MemRead after MemWrite (R85, R86) -/

/-- The address of a word, as the claims write it (R81, R95). -/
theorem wordAddr_eq_wordAt (p : Params) (a : Addr) (j : Nat) : wordAddr p a j = wordAt p a j := rfl

/-- Settles O22: MemWrite leaves each of its words in place, and MemRead lists the words in place. -/
theorem memReadAfterMemWrite : Obligations.MemReadAfterMemWrite := by
  intro p m a vs hp hm hl
  obtain ⟨hwf, hword, -, hframe⟩ := memWriteFrom_spec p hp a vs m hm 0 (by omega)
  refine ⟨List.ext_getElem (by simp [memRead]) fun j _ hj => ?_, hwf, hframe vs.length (by omega)⟩
  have hread := hword j vs[j] (List.getElem?_eq_getElem hj)
  simpa [memRead, memWrite] using hread

/-! ### The taking of a command flit (R96 B2) -/

theorem takeCommand_notLast (op : BusOp) (a : Addr) (pl : BitVec 16) (w : Word) (tag : Nat) (s : State) :
    takeCommand op a pl w false tag s = .next { s with bus := { s.bus with asm := s.bus.asm ++ [w] } } := rfl

section
variable {op : BusOp} {a : Addr} {pl : BitVec 16} {w : Word} {tag : Nat} {s : State}

theorem takeCommand_deferred (hd : s.input.deferred = true) :
    takeCommand op a pl w true tag s = .next { s with
      bus := { s.bus with asm := [], txns := s.bus.txns ++ [closedTxn op a pl w tag s] } } := by
  simp [takeCommand, hd]

theorem takeCommand_atOnce {m : Memory} {x : Txn} (hd : s.input.deferred = false)
    (h : performWords s.params (List.range (opWords op pl)) (s.mem, closedTxn op a pl w tag s) = (m, x)) :
    takeCommand op a pl w true tag s = .next { s with
      mem := m
      bus := { s.bus with asm := [], txns := s.bus.txns ++ [x] } } := by
  have hx : performWords s.params (List.range (closedTxn op a pl w tag s).words) (s.mem, closedTxn op a pl w tag s) = (m, x) := h
  simp [takeCommand, hd, hx]

/-- A transaction just taken has made none of its word accesses (R96 B2). -/
theorem closedTxn_todo : ∀ j ∈ List.range (opWords op pl), (closedTxn op a pl w tag s).rdata[j]? = some none := by
  intro j hj
  have hj : j < opWords op pl := List.mem_range.1 hj
  simp [closedTxn, hj]

end

/-- Settles O20: the two equations of the taking of a flit that perform nothing. -/
theorem commandFlitsKept : Obligations.CommandFlitsKept := by
  intro s addr plen w tag
  refine ⟨takeCommand_notLast .read addr plen w tag s, takeCommand_notLast .write addr plen w tag s,
    takeCommand_notLast .cas addr plen w tag s, fun hd i op n hcas hn hi => ?_⟩
  have hw : opWords op plen = n := by
    cases op with
    | read => exact (hn nofun).symm
    | write => exact (hn nofun).symm
    | cas => exact (hcas rfl).symm
  subst hw
  rcases hi with ⟨rfl, rfl⟩ | ⟨rfl, rfl⟩ | ⟨rfl, rfl⟩
  · exact takeCommand_deferred hd
  · exact takeCommand_deferred hd
  · exact takeCommand_deferred hd

/-! ### Word accesses made one by one (R85, R86) -/

/-- The word accesses js of the i-th accepted transaction, as acts of the bus, are one performing of js. -/
theorem busActs_word {s : State} {i : Nat} {x : Txn} (h : s.bus.txns[i]? = some x) (js : List Nat) :
    busActs (js.map (.word i)) s = { s with
      mem := (performWords s.params js (s.mem, x)).1
      bus := { s.bus with txns := s.bus.txns.set i (performWords s.params js (s.mem, x)).2 } } := by
  induction js generalizing s x with
  | nil =>
    obtain ⟨hi, rfl⟩ := List.getElem?_eq_some_iff.1 h
    simp [busActs, performWords]
  | cons j js ih =>
    have hi := (List.getElem?_eq_some_iff.1 h).1
    have hact : busAct (.word i j) s = { s with
        mem := (performWord s.params s.mem x j).1
        bus := { s.bus with txns := s.bus.txns.set i (performWord s.params s.mem x j).2 } } := by
      simp [busAct, h]
    rw [List.map_cons, busActs, hact, ih (x := (performWord s.params s.mem x j).2) (by simp [hi])]
    simp [performWords]

/-- The transaction after its word accesses js (R96 B4). -/
theorem busActs_word_txn {s : State} {i : Nat} {x : Txn} (h : s.bus.txns[i]? = some x) (js : List Nat) :
    (busActs (js.map (.word i)) s).bus.txns[i]? = some (performWords s.params js (s.mem, x)).2 := by
  have hi := (List.getElem?_eq_some_iff.1 h).1
  simp [busActs_word h, hi]

/-- Settles O17: at once or put off, the words of a READ are one performing of its word accesses, which keeps memory. -/
theorem busReadPerforms : Obligations.BusReadPerforms := by
  constructor
  · intro s addr plen w tag hd
    obtain ⟨r, hperf, hlen, hread, -⟩ := performWords_read s.params s.mem (List.range (plen.toNat / 4)) (closedTxn .read addr plen w tag s) rfl
      List.nodup_range (closedTxn_todo (op := .read))
    have hlen : r.length = plen.toNat / 4 := by simpa [closedTxn, opWords] using hlen
    obtain ⟨ws, rfl, hws⟩ := noted_words hlen fun j hj => ⟨_, hread j (List.mem_range.2 hj)⟩
    refine ⟨ws, hws, fun j hj => ?_, takeCommand_atOnce hd hperf⟩
    simpa [wordAddr_eq_wordAt, closedTxn] using hread j (List.mem_range.2 hj)
  · intro s i x js hx hop hnd htodo
    obtain ⟨r, hperf, -, hread, -⟩ := performWords_read s.params s.mem js x hop hnd htodo
    refine ⟨?_, _, busActs_word_txn hx js, ?_⟩
    · rw [busActs_word hx, hperf]
    · rw [hperf]
      exact hread

/-! ### What an erroring transaction leaves out (R96) -/

/-- A word is left out only when a flit of the response group reports an error (R96 B5). -/
theorem errs_of_dropped {t : Txn} {j : Nat} (h : t.dropped j = true) : ∃ n < t.words, t.plan.errs[n]? = some true := by
  obtain ⟨e, hmem, rfl⟩ := List.any_eq_true.1 (Bool.and_eq_true_iff.1 h).1
  obtain ⟨n, hn⟩ := List.mem_iff_getElem?.1 hmem
  rw [List.getElem?_take] at hn
  split at hn
  · exact ⟨n, ‹_›, hn⟩
  · cases hn

theorem dropped_of_noErrs {t : Txn} (h : ∀ e : Nat, t.plan.errs[e]? ≠ some true) (j : Nat) : t.dropped j = false := by
  by_contra hd
  obtain ⟨n, -, hn⟩ := errs_of_dropped (by simpa using hd)
  exact h n hn

/-- Settles O18: at once or put off, the words of a WRITE are one performing of its word accesses, each stored unless left out. -/
theorem busWritePerforms : Obligations.BusWritePerforms := by
  constructor
  · intro s addr plen w tag hp hm hd
    have hn : plen.toNat / 4 < 2 ^ 20 := by have := plen.isLt; omega
    obtain ⟨m, r, hperf, hlen, hnoted, -, hwf, hwritten, -, hframe⟩ := performWords_write s.params hp (List.range (plen.toNat / 4)) (plen.toNat / 4)
      (fun j hj => List.mem_range.1 hj) hn List.nodup_range s.mem (closedTxn .write addr plen w tag s) rfl (closedTxn_todo (op := .write)) hm
    have hlen : r.length = plen.toNat / 4 := by simpa [closedTxn, opWords] using hlen
    obtain ⟨ws, rfl, hws⟩ := noted_words hlen fun j hj => hnoted j (List.mem_range.2 hj)
    refine ⟨m, ws, hws, takeCommand_atOnce hd hperf, hwf, fun j v hj hv => ?_, fun b _ hb => hframe b hb⟩
    have hword := hwritten j (List.mem_range.2 hj)
    split at hword
    · rename_i hdrop
      exact .inr ⟨hword, errs_of_dropped hdrop⟩
    · exact .inl (hword.trans (by simp [closedTxn, List.getD_eq_getElem?_getD, hv]))
  · intro s i n x js hp hm hx hop herr hnd hn hjs
    obtain ⟨m, r, hperf, -, -, -, -, hwritten, hkept, hframe⟩ := performWords_write s.params hp js n (fun j hj => (hjs j hj).1) hn hnd s.mem x hop
      (fun j hj => (hjs j hj).2) hm
    dsimp only
    rw [busActs_word hx, hperf]
    refine ⟨fun j hj v hv => ?_, fun j hj hnj => hkept j (by omega) hnj, hframe⟩
    have hword := hwritten j hj
    rw [dropped_of_noErrs herr] at hword
    exact hword.trans (by simp [List.getD_eq_getElem?_getD, hv])

/-! ### The swap of a CAS (R87) -/

theorem memCas_match {p : Params} {m : Memory} {a : Addr} {cmp new : Word} (h : readWord p m a = cmp) :
    memCas p m a cmp new = (writeWord p m a new, true) := if_pos h

theorem memCas_noMatch {p : Params} {m : Memory} {a : Addr} {cmp new : Word} (h : readWord p m a ≠ cmp) :
    memCas p m a cmp new = (m, false) := if_neg h

theorem failureCode_ne_zero (w : Word) : failureCode w ≠ 0 := by
  unfold failureCode
  split
  · decide
  · assumption

/-- Settles O19: the one word access of a CAS, by whether the compare holds and whether the swap is left out. -/
theorem busCasPerforms : Obligations.BusCasPerforms := by
  intro s addr plen cmp new tag hp hm hd hasm
  have hperf := performWords_cas s.params s.mem (closedTxn .cas addr plen new tag s) rfl rfl
  have hx : closedTxn .cas addr plen new tag s = ⟨.cas, addr, plen, tag, [cmp, new], s.input.plan, [none]⟩ := by
    simp [closedTxn, hasm, opWords]
  have hexec := takeCommand_atOnce (op := .cas) (pl := plen) hd hperf
  simp only [hx, wordAddr_eq_wordAt, List.getD_cons_zero, List.getD_cons_succ] at hexec
  refine ⟨_, _, hexec, fun hmatch => ?_, fun hne => ?_⟩
  · rw [memCas_match hmatch]
    refine ⟨rfl, ?_⟩
    split
    · rename_i hdrop
      obtain ⟨n, hn, herr⟩ := errs_of_dropped hdrop
      obtain rfl : n = 0 := Nat.lt_one_iff.1 hn
      exact .inr ⟨herr, rfl⟩
    · exact .inl ⟨readWord_writeWord s.params hp.2.2.1 s.mem hm _ new,
        fun b _ hb => readByte_other s.params hp s.mem hm addr 0 1 new one_pos b hb⟩
  · rw [memCas_noMatch hne]
    exact ⟨failureCode_ne_zero _, ite_self _⟩

/-! ### What a bus command leaves alone -/

/-- A word access keeps the transaction's address and how many word accesses it has. -/
theorem performWord_txn (p : Params) (m : Memory) (t : Txn) (j : Nat) :
    (performWord p m t j).2.addr = t.addr ∧ (performWord p m t j).2.rdata.length = t.rdata.length := by
  unfold performWord
  split
  · exact ⟨rfl, List.length_set⟩
  · exact ⟨rfl, rfl⟩

/-- Word accesses change no byte outside the words their transaction addresses (R85 to R87). -/
theorem performWords_frame (p : Params) (hp : p.Wf) (js : List Nat) (m : Memory) (hm : Memory.wf m) (t : Txn) (b : Nat)
    (hb : ¬InRange p t.addr (4 * t.rdata.length) b) : readByte (performWords p js (m, t)).1 b = readByte m b := by
  induction js generalizing m t with
  | nil => rfl
  | cons j js ih =>
    obtain ⟨haddr, hlen⟩ := performWord_txn p m t j
    have hrest := ih (performWord p m t j).1 (performWord_wf p m hm t j) (performWord p m t j).2 (by rw [haddr, hlen]; exact hb)
    have hword : readByte (performWord p m t j).1 b = readByte m b := by
      rcases performWord_mem p m t j with h | ⟨hj, v, h⟩
      · rw [h]
      · rw [h, readByte_other p hp m hm t.addr j _ v hj b hb]
    exact hrest.trans hword

/-- What a command flit the bus takes leaves alone, whatever the bus chooses (R85 to R87). -/
theorem takeCommand_frame {op : BusOp} {a : Addr} {pl : BitVec 16} {w : Word} {eop : Bool} {tag : Nat} {s t : State} (hp : s.params.Wf)
    (hm : Memory.wf s.mem) (h : takeCommand op a pl w eop tag s = .next t) :
    t = { s with mem := t.mem, bus := { s.bus with asm := t.bus.asm, txns := t.bus.txns } } ∧
      (eop = false → t.mem = s.mem) ∧ (op = .read → t.mem = s.mem) ∧
      ∀ b, ¬InRange s.params a (4 * opWords op pl) b → readByte t.mem b = readByte s.mem b := by
  cases eop with
  | false =>
    rw [takeCommand_notLast] at h
    cases h
    exact ⟨rfl, fun _ => rfl, fun _ => rfl, fun _ _ => rfl⟩
  | true =>
    cases hd : s.input.deferred with
    | true =>
      rw [takeCommand_deferred hd] at h
      cases h
      exact ⟨rfl, fun _ => rfl, fun _ => rfl, fun _ _ => rfl⟩
    | false =>
      rw [takeCommand_atOnce hd rfl] at h
      cases h
      refine ⟨rfl, nofun, ?_, fun b hb => ?_⟩
      · rintro rfl
        obtain ⟨r, hperf, -⟩ := performWords_read s.params s.mem (List.range (opWords .read pl)) (closedTxn .read a pl w tag s) rfl
          List.nodup_range closedTxn_todo
        exact congrArg Prod.fst hperf
      · exact performWords_frame s.params hp _ s.mem hm _ b (by simpa [closedTxn] using hb)

/-- Settles O21: each command is the taking of its flit. -/
theorem busCommandFrame : Obligations.BusCommandFrame := by
  intro s t addr plen w eop tag i hp hm hi h
  rcases hi with rfl | rfl | rfl
  · obtain ⟨hs, hfirst, hread, -⟩ := takeCommand_frame hp hm (op := .read) h
    exact ⟨hs, fun he a => by rw [hfirst he], fun _ a => by rw [hread rfl], nofun, nofun⟩
  · obtain ⟨hs, hfirst, -, hframe⟩ := takeCommand_frame hp hm (op := .write) h
    exact ⟨hs, fun he a => by rw [hfirst he], nofun, fun _ => hframe, nofun⟩
  · obtain ⟨hs, hfirst, -, hframe⟩ := takeCommand_frame hp hm (op := .cas) h
    exact ⟨hs, fun he a => by rw [hfirst he], nofun, nofun, fun _ => hframe⟩

end Sys2Proof.Machine
end

section
/-!
SUPPORT. What an access does to a running channel, said once for every instruction (R161, R180), and the rest of a tick's part in the registers; and, from that, the
statement about a running channel's configuration (R104, R161).
-/
namespace Sys2Proof.Machine

/-! ### An access and a running channel (R161, R180) -/

section
variable {s t : State} {k : Nat} {c : Channel} (hc : s.chans[k]? = some c)
include hc

theorem readReg_keepsChan {j : Nat} {f : Channel → Word} (h : readReg s j f = .next t) : t.chans[k]? = some c := by
  obtain ⟨d, -, h⟩ := withChan_next h
  cases h
  exact hc

theorem writeReadOnly_keepsChan {j : Nat} (h : writeReadOnly s j = .next t) : t.chans[k]? = some c := by
  obtain ⟨d, -, h⟩ := withChan_next h
  cases h
  exact hc

theorem execRdScratch_keepsChan {j : Nat} (h : execRdScratch j s = .next t) : t.chans[k]? = some c := by
  unfold execRdScratch at h
  split at h <;> cases h
  exact hc

theorem execWrScratch_keepsChan {j : Nat} {v : Word} (h : execWrScratch j v s = .next t) : t.chans[k]? = some c := by
  unfold execWrScratch at h
  split at h <;> cases h
  exact hc

/-- A write of an address, size or mode register leaves a running channel alone (R161). -/
theorem writeStopped_keepsRunning {j : Nat} {legal : Bool} {f : ChanRegs → ChanRegs} (hr : c.regs.running = true)
    (h : writeStopped s j legal f = .next t) : t.chans[k]? = some c := by
  obtain ⟨d, hd, h⟩ := withChan_next h
  split at h
  · cases h
    exact hc
  · rename_i hstop
    have hjk : j ≠ k := by
      rintro rfl
      obtain rfl : d = c := Option.some.inj (hd.symm.trans hc)
      exact hstop hr
    split at h <;> cases h
    · simp [hjk, hc]
    · exact hc

/-- A write of another channel's RUNNING leaves the channel alone (R180). -/
theorem execWrRunning_keepsOther {j : Nat} {v : Word} (hjk : j ≠ k) (h : execWrRunning j v s = .next t) : t.chans[k]? = some c := by
  obtain ⟨d, -, h⟩ := withChan_next h
  dsimp only at h
  split at h
  · split at h <;> cases h
    · exact hc
    · simp [hjk, hc]
  · split at h <;> cases h
    · simp [hjk, hc]
    · simp [hjk, hc]
  · cases h
    exact hc

/-- Of all accesses, only WR RUNNING of that channel touches a running channel (R161, R180). -/
theorem exec_keepsRunning {i : Instr} (hi : i.format = .cfg) (hr : c.regs.running = true) (h : exec i s = .next t) :
    t.chans[k]? = some c ∨ ∃ v, i = .wrRunning k v := by
  cases i with
  | wrRunning j v =>
    by_cases hjk : j = k
    · exact .inr ⟨v, by rw [hjk]⟩
    · exact .inl (execWrRunning_keepsOther hc hjk h)
  | rdBufferAddrLo j | rdBufferAddrHi j | rdDescAddrLo j | rdDescAddrHi j | rdLockAddrLo j | rdLockAddrHi j
  | rdDirection j | rdMode j | rdSize j | rdRunning j | rdStatus j => exact .inl (readReg_keepsChan hc h)
  | wrBufferAddrLo j v | wrBufferAddrHi j v | wrDescAddrLo j v | wrDescAddrHi j v | wrLockAddrLo j v | wrLockAddrHi j v
  | wrMode j v | wrSize j v =>
    rw [exec] at h
    exact .inl (writeStopped_keepsRunning hc hr h)
  | wrDirection j v | wrStatus j v => exact .inl (writeReadOnly_keepsChan hc h)
  | rdScratch j => exact .inl (execRdScratch_keepsChan hc h)
  | wrScratch j v => exact .inl (execWrScratch_keepsChan hc h)
  | rdReserved a => cases h; exact .inl hc
  | wrReserved a v => cases h; exact .inl hc
  | ticketRead j | ticketCas j | lockRead j | statusRead j | dataRead j | dataWrite j | statusWrite j | lockRelease j => cases hi
  | busRead a p w e g | busWrite a p w e g | busCas a p w e g => cases hi

end

/-! ### A tick and a running channel -/

/-- The access of the tick decodes to a write of RUNNING of channel k (R120, R180). -/
def WritesRunning (s : State) (k : Nat) : Prop :=
  ∃ a, s.input.cfg = some a ∧ decode s.params (.cfg a.word a.wdata) = .ok (.wrRunning k a.wdata)

theorem accessPhase_keepsRunning {s t : State} {k : Nat} {c : Channel} (h : accessPhase s = .next t) (hc : s.chans[k]? = some c)
    (hr : c.regs.running = true) : t.chans[k]? = some c ∨ WritesRunning s k := by
  cases ha : s.input.cfg with
  | none =>
    rw [accessPhase_none ha] at h
    cases h
    exact .inl hc
  | some a =>
    obtain ⟨i, hi, hf⟩ := decode_cfg s.params a.word a.wdata
    rw [accessPhase_some ha, runRaw_ok hi] at h
    rcases exec_keepsRunning hc hf hr h with he | ⟨v, rfl⟩
    · exact .inl he
    · obtain rfl : v = a.wdata := decode_data hi rfl
      exact .inr ⟨a, ha, hi⟩

/-- A response flit taken for a channel writes no configuration register (R344 to R346). -/
theorem DmxMove.regs {s : State} {k : Nat} {c0 c c' : Channel} (h : DmxMove s k c0 c c') : c'.regs = c.regs := by
  obtain ⟨f, i, n, m, kind, e, c1, -, -, -, -, hp, rfl⟩ := h
  obtain ⟨_, _, _, _, rfl, -⟩ := processFlit_some hp
  split <;> rfl

/-- The agents that run after the access write no configuration register. -/
theorem agentsPhase_regs {s0 s : State} (hp : s.params = s0.params) (hd : s.dmx = s0.dmx) {k : Nat} {c0 c : Channel}
    (h0 : s0.chans[k]? = some c0) (hc : s.chans[k]? = some c) :
    ∃ c', (agentsPhase s0 s).chans[k]? = some c' ∧ c'.regs = c.regs := by
  obtain ⟨q, hport, -⟩ := portStep_eq s0.params (s0.params.dir k) (s0.port k) c0 c
  have A := arbPhase_step s0 (portPhase s0 s)
  obtain ⟨c4, hc4, harb, -⟩ := A.chan (portPhase_getElem? h0 hc)
  obtain ⟨c5, hc5, hdmx, -⟩ := (dmxPhase_step (A.params.trans hp) (A.dmx.trans hd)).chan h0 hc4
  refine ⟨_, by rw [agentsPhase, endTick_chans]; exact fsmPhase_getElem? h0 hc5, ?_⟩
  have h4 : c4.regs = c.regs := by
    rw [hport] at harb
    rcases harb with rfl | ⟨-, -, rfl⟩ <;> rfl
  have h5 : c5.regs = c4.regs := by
    rcases hdmx with rfl | hm
    · rfl
    · exact hm.regs
  rw [chanStep_regs, h5, h4]

/-- The generator's sending step writes no configuration register. -/
theorem SendStep.regs {s t : State} (S : SendStep s t) {k : Nat} {c : Channel} (hc : s.chans[k]? = some c) :
    ∃ c', t.chans[k]? = some c' ∧ c'.regs = c.regs := by
  rcases S.chan k c hc with h | ⟨-, h⟩
  · exact ⟨c, h, rfl⟩
  · exact ⟨_, h, rfl⟩

/-- A running channel's registers stay through a tick, unless its access writes RUNNING of that channel (R161, R180). -/
theorem step_keepsRunning {s t : State} {k : Nat} {c c' : Channel} (T : Tick s t k c c') (hr : c.regs.running = true) :
    c'.regs = c.regs ∨ WritesRunning s k := by
  obtain ⟨-, s1, s2, s3, h1, h2, h3, rfl⟩ := step_phases T.step
  have S := sendPhase_step h1
  have A := accessPhase_next h3
  obtain ⟨c1, hc1, hregs1⟩ := S.regs T.before
  have hin : s2.input = s.input := (commandPhase_input h2).trans (sendPhase_input h1)
  obtain ⟨m, b, rfl, -⟩ := commandPhase_next h2
  rcases accessPhase_keepsRunning h3 hc1 (by rw [hregs1, hr]) with hc3 | hw
  · obtain ⟨d, hd, hregs⟩ := agentsPhase_regs (A.params.trans S.params) (A.dmx.trans S.dmx) T.before hc3
    obtain rfl : d = c' := Option.some.inj (hd.symm.trans T.after)
    exact .inl (hregs.trans hregs1)
  · simp only [WritesRunning, hin] at hw
    rw [S.params] at hw
    exact .inr hw

/-- Settles O51: the access of the tick is the only writer of registers, and at a running channel it can only stop it. -/
theorem runningConfigStable : Obligations.RunningConfigStable := by
  intro s t k c c' T hr
  obtain ⟨c1, c2, c3, c4, c5, X⟩ := T.chanTick
  refine ⟨?_, fun hstopped => ?_⟩
  · have hkept := ((tickKeeps_of_tick X).regs hr).2
    rwa [← show c'.regs = c5.regs by rw [X.fsm, chanStep_regs]] at hkept
  · rcases step_keepsRunning T hr with he | hw
    · rw [he, hr] at hstopped
      cases hstopped
    · exact hw

end Sys2Proof.Machine
end

section
/-!
SUPPORT. A request outstanding through one tick, and where a tick leaves the generator's and the demultiplexer's channel numbers; and, from these and the parts of the
tick said in the laws, the statement about the three invariants (R32 to R36, R98, R206, R211).
-/
namespace Sys2Proof.Machine

/-! ### The shape of the state -/

/-- A channel number with a record is a channel's (R122). -/
theorem ShapeOk.lt_nChannels {s : State} (hs : ShapeOk s) {k : Nat} {c : Channel} (hc : s.chans[k]? = some c) : k < s.params.nChannels :=
  hs.chans ▸ (List.getElem?_eq_some_iff.1 hc).1

theorem ShapeOk.selected_lt {s : State} (hs : ShapeOk s) {k : Nat} (h : selected s = some k) : k < s.params.nChannels := by
  obtain ⟨c, hc, -⟩ := selected_posted h
  exact hs.lt_nChannels hc

/-- What holds of each channel after a tick, from what the tick does to it. -/
theorem step_forall {s t : State} (h : step s = .next t) {P Q : Channel → Prop} (hP : ∀ c ∈ s.chans, P c)
    (hstep : ∀ k c0 c1 c2 c3 c4 c5 c', ChanTick s t k c0 c1 c2 c3 c4 c5 c' → P c0 → Q c') : ∀ c ∈ t.chans, Q c := by
  intro c' hmem
  obtain ⟨k, hk⟩ := List.mem_iff_getElem?.1 hmem
  obtain ⟨c0, c1, c2, c3, c4, c5, hc0, T⟩ := tick_of h k c' hk
  exact hstep k c0 c1 c2 c3 c4 c5 c' T (hP c0 (List.mem_of_getElem? hc0))

theorem shapeOk_step {s t : State} (h : step s = .next t) (hs : ShapeOk s) : ShapeOk t := by
  have F := step_frame h
  constructor
  · rw [F.params]; exact hs.params
  · rw [F.chansLen, F.params, hs.chans]
  · rw [F.scratchLen, F.params, hs.scratch]
  · rw [F.params]
    rcases F.genCh with he | hsel
    · rw [he]; exact hs.genCh
    · exact hs.selected_lt hsel
  · rw [F.params]
    rcases F.rrLast with he | ⟨-, hsel⟩
    · rw [he]; exact hs.rrLast
    · exact hs.selected_lt hsel
  · rw [F.params]
    rcases F.dmxCh with he | ⟨c, hc⟩
    · rw [he]; exact hs.dmxCh
    · exact hs.lt_nChannels hc
  · rw [F.params]
    exact step_forall h hs.fifo fun _ _ _ _ _ _ _ _ T => fifo_step T
  · rw [F.params]
    exact step_forall h hs.counts fun _ _ _ _ _ _ _ _ T => counts_step T
  · exact F.memWf hs.memWf
  · rw [F.params]
    exact F.memIn hs.memIn
  · exact F.faultsOnce hs.faultsOnce

/-! ### The handshake -/

/-- The demultiplexer busy with channel k has a request of it outstanding (R341, R346). -/
theorem HandshakeOk.issued {s : State} (hh : HandshakeOk s) {k : Nat} {c : Channel} (hc : s.chans[k]? = some c) (hb : s.dmx.busy = true)
    (hk : s.dmx.ch = k) : c.reqIssued = true := by
  obtain ⟨d, hd, hi⟩ := hh.dmx hb
  subst hk
  obtain rfl : c = d := Option.some.inj (hc.symm.trans hd)
  exact hi

/-- chan_step neither issues a request nor clears one issued (R200, R301, R346). -/
theorem chanStep_reqIssued (p : Params) (d : Direction) (x : PortIn) (c0 c : Channel) : (chanStep p d x c0 c).reqIssued = c.reqIssued := by
  have m := chanStep_move p d x c0 c
  generalize chanStep p d x c0 c = c' at m
  cases m with
  | consumed t =>
    obtain ⟨-, -, -, hi, -⟩ := consume_frame p d c0 c
    exact hi
  | parked => unfold leaveTerminal; split <;> rfl
  | _ => rfl

/-- Only the demultiplexer ends a request outstanding: one is still there when the demultiplexer writes (R346). -/
theorem ChanTick.issued_before_dmx {s t : State} {k : Nat} {c0 c1 c2 c3 c4 c5 c' : Channel} (T : ChanTick s t k c0 c1 c2 c3 c4 c5 c')
    (hi : c0.reqIssued = true) : c4.reqIssued = true := by
  have h1 : c1.reqIssued = true := by rcases T.send with rfl | ⟨-, rfl⟩ <;> exact hi
  have h2 : c2.reqIssued = true := by cases T.access <;> exact h1
  obtain ⟨q, hport, -⟩ := portStep_eq s.params (s.params.dir k) (s.port k) c0 c2
  have h3 : c3.reqIssued = true := by rw [T.port, hport]; exact h2
  rcases T.arb with rfl | ⟨-, -, rfl⟩
  · exact h3
  · rfl

/-- The demultiplexer busy at the end of a tick works for a channel that had a request outstanding at its start (R341, R347). -/
theorem step_dmx_issued {s t : State} (h : step s = .next t) (hh : HandshakeOk s) (hb : t.dmx.busy = true) :
    ∃ c0, s.chans[t.dmx.ch]? = some c0 ∧ c0.reqIssued = true := by
  rcases step_dmx_busy h hb with he | ⟨c0, hc0, ⟨-, hi, -⟩ | ⟨hb0, hk⟩⟩
  · rw [← he] at hb ⊢
    exact hh.dmx hb
  · exact ⟨c0, hc0, hi⟩
  · exact ⟨c0, hc0, hh.issued hc0 hb0 hk⟩

theorem handshakeOk_step {s t : State} (h : step s = .next t) (hh : HandshakeOk s) : HandshakeOk t := by
  constructor
  · intro k c' hc'
    obtain ⟨c0, c1, c2, c3, c4, c5, hc0, T⟩ := tick_of h k c' hc'
    obtain ⟨hbefore, -, -⟩ := beforeFsm_of_tick T (hh.chan k c0 hc0) (hh.issued hc0) hc0
    rw [(step_frame h).params, T.fsm]
    exact handshake_fsm hbefore (hh.chan k c0 hc0)
  · intro hb
    obtain ⟨c0, hc0, hi⟩ := step_dmx_issued h hh hb
    obtain ⟨c1, c2, c3, c4, c5, c', hc', T⟩ := step_chan h _ c0 hc0
    obtain ⟨hissued, -⟩ := T.dmxBusy hb rfl
    exact ⟨c', hc', by rw [T.fsm, chanStep_reqIssued, hissued, T.issued_before_dmx hi]⟩

/-! ### The configuration registers -/

theorem AccessMove.regsOk {p : Params} {fine : Prop} {c c' : Channel} (h : AccessMove p fine c c') (hp : p.Wf) (hr : RegsOk p c.regs) :
    RegsOk p c'.regs := by
  cases h with
  | same => exact hr
  | config r _ _ hok => exact hok hp hr
  | start => exact { hr with }
  | stop => exact { hr with }

/-- Settles O53: each part of the invariant comes through the tick's frame and through what the tick does to one channel. -/
theorem partInvariantsKept : Obligations.PartInvariantsKept := by
  intro s t h
  refine ⟨shapeOk_step h, handshakeOk_step h, fun hp hregs => ?_⟩
  rw [(step_frame h).params]
  refine step_forall h hregs fun k c0 c1 c2 c3 c4 c5 c' T h0 => ?_
  obtain ⟨hr1, hr'⟩ := regs_chain T
  rw [hr']
  exact T.access.regsOk hp (hr1 ▸ h0)

end Sys2Proof.Machine
end

section
/-!
SUPPORT. The encoding tables (30_encoding.md): the encoder reaches every word an interface can carry, so that the decoder and the encoder undo each other.
-/
namespace Sys2Proof.Machine

/-! ### Every well-formed instruction is read back -/

/-- Settles O23: the round trip of each row of the opcode table. -/
theorem decodeUndoesEncode : Obligations.DecodeUndoesEncode := by
  intro p i hp hi
  cases i with
  | rdBufferAddrLo k => exact Laws.Roundtrip.rdBufferAddrLo k p hp hi
  | wrBufferAddrLo k v => exact Laws.Roundtrip.wrBufferAddrLo k v p hp hi
  | rdBufferAddrHi k => exact Laws.Roundtrip.rdBufferAddrHi k p hp hi
  | wrBufferAddrHi k v => exact Laws.Roundtrip.wrBufferAddrHi k v p hp hi
  | rdDescAddrLo k => exact Laws.Roundtrip.rdDescAddrLo k p hp hi
  | wrDescAddrLo k v => exact Laws.Roundtrip.wrDescAddrLo k v p hp hi
  | rdDescAddrHi k => exact Laws.Roundtrip.rdDescAddrHi k p hp hi
  | wrDescAddrHi k v => exact Laws.Roundtrip.wrDescAddrHi k v p hp hi
  | rdLockAddrLo k => exact Laws.Roundtrip.rdLockAddrLo k p hp hi
  | wrLockAddrLo k v => exact Laws.Roundtrip.wrLockAddrLo k v p hp hi
  | rdLockAddrHi k => exact Laws.Roundtrip.rdLockAddrHi k p hp hi
  | wrLockAddrHi k v => exact Laws.Roundtrip.wrLockAddrHi k v p hp hi
  | rdDirection k => exact Laws.Roundtrip.rdDirection k p hp hi
  | wrDirection k v => exact Laws.Roundtrip.wrDirection k v p hp hi
  | rdMode k => exact Laws.Roundtrip.rdMode k p hp hi
  | wrMode k v => exact Laws.Roundtrip.wrMode k v p hp hi
  | rdSize k => exact Laws.Roundtrip.rdSize k p hp hi
  | wrSize k v => exact Laws.Roundtrip.wrSize k v p hp hi
  | rdRunning k => exact Laws.Roundtrip.rdRunning k p hp hi
  | wrRunning k v => exact Laws.Roundtrip.wrRunning k v p hp hi
  | rdStatus k => exact Laws.Roundtrip.rdStatus k p hp hi
  | wrStatus k v => exact Laws.Roundtrip.wrStatus k v p hp hi
  | rdScratch n => exact Laws.Roundtrip.rdScratch n p hp hi
  | wrScratch n v => exact Laws.Roundtrip.wrScratch n v p hp hi
  | rdReserved a => exact Laws.Roundtrip.rdReserved a p hp hi
  | wrReserved a v => exact Laws.Roundtrip.wrReserved a v p hp hi
  | ticketRead k => exact Laws.Roundtrip.ticketRead k p hp hi
  | ticketCas k => exact Laws.Roundtrip.ticketCas k p hp hi
  | lockRead k => exact Laws.Roundtrip.lockRead k p hp hi
  | statusRead k => exact Laws.Roundtrip.statusRead k p hp hi
  | dataRead k => exact Laws.Roundtrip.dataRead k p hp hi
  | dataWrite k => exact Laws.Roundtrip.dataWrite k p hp hi
  | statusWrite k => exact Laws.Roundtrip.statusWrite k p hp hi
  | lockRelease k => exact Laws.Roundtrip.lockRelease k p hp hi
  | busRead a n v e t => exact Laws.Roundtrip.busRead a n v e t p hp hi
  | busWrite a n v e t => exact Laws.Roundtrip.busWrite a n v e t p hp hi
  | busCas a n v e t => exact Laws.Roundtrip.busCas a n v e t p hp hi

/-! ### The access words (R121, R126, R129) -/

/-- The write data the encoder drives with an access word: none, written as 0, for a read (R120). -/
def encodedData (w : BitVec 16) (d : Word) : Word := if wordWe w then d else 0

/-- The data wires mean nothing to a read. -/
theorem decode_encodedData (p : Params) (w : BitVec 16) (d : Word) : decode p (.cfg w (encodedData w d)) = decode p (.cfg w d) := by
  cases h : wordWe w <;> simp [decode, encodedData, h]

/-- An access word is cfg_we above cfg_addr (R129). -/
theorem ofBool_append_wordOffset (w : BitVec 16) : BitVec.ofBool (wordWe w) ++ wordOffset w = w := by
  apply BitVec.eq_of_toNat_eq
  rw [BitVec.toNat_append, BitVec.toNat_ofBool, Nat.shiftLeft_eq, Nat.mul_comm, ← Nat.two_pow_add_eq_or_of_lt (wordOffset w).isLt,
    Laws.Roundtrip.wordOffset_toNat, Laws.Roundtrip.wordWe_eq]
  have hw := w.isLt
  by_cases h : 32768 ≤ w.toNat <;> simp [h] <;> omega

/-- An access word at byte 00 is built from its own fields (R121). -/
theorem accessWord_of_fields {w : BitVec 16} (h : w.toNat % 4 = 0) :
    accessWord (wordWe w) (w.toNat / 64 % 512) (w.toNat / 4 % 16) = w := by
  apply BitVec.eq_of_toNat_eq
  rw [Laws.Roundtrip.accessWord_toNat _ _ _ (by omega) (by omega), Laws.Roundtrip.wordWe_eq]
  have hw := w.isLt
  by_cases h' : 32768 ≤ w.toNat <;> simp [h'] <;> omega

/-- The four kinds of reserved access word (R126). -/
theorem reservedAddr_wordOffset (p : Params) (w : BitVec 16) :
    reservedAddr p (wordOffset w) = true ↔
      w.toNat % 4 ≠ 0 ∨ (w.toNat / 64 % 512 < p.nChannels ∧ 11 ≤ w.toNat / 4 % 16) ∨
        (w.toNat / 64 % 512 = p.nChannels ∧ p.nScratch ≤ w.toNat / 4 % 16) ∨ p.nChannels < w.toNat / 64 % 512 := by
  have hblock : w.toNat % 32768 / 64 = w.toNat / 64 % 512 := by omega
  have hindex : w.toNat % 32768 / 4 % 16 = w.toNat / 4 % 16 := by omega
  have hbyte : w.toNat % 32768 % 4 = w.toNat % 4 := by omega
  simp only [reservedAddr, Laws.Roundtrip.wordOffset_toNat, hblock, hindex, hbyte, Bool.or_eq_true, Bool.and_eq_true, decide_eq_true_eq, or_assoc]

/-- The access to a reserved offset (R126). -/
def reservedAccess (we : Bool) (a : BitVec 15) (d : Word) : Instr := if we then .wrReserved a d else .rdReserved a

theorem encode_reservedAccess (p : Params) (w : BitVec 16) (d : Word) :
    encode p (reservedAccess (wordWe w) (wordOffset w) d) = .cfg w (encodedData w d) := by
  have hw := ofBool_append_wordOffset w
  unfold encodedData
  cases h : wordWe w <;> rw [h] at hw <;> exact congrArg (RawInstr.cfg · _) hw

theorem wellFormed_reservedAccess {p : Params} {a : BitVec 15} (we : Bool) (d : Word) (h : reservedAddr p a = true) :
    WellFormed p (reservedAccess we a d) = true := by
  cases we <;> exact h

/-- A reserved access word means the access to its reserved offset (R126). -/
theorem decode_reserved {p : Params} {w : BitVec 16} (hp : p.Wf) (h : reservedAddr p (wordOffset w) = true) (d : Word) :
    decode p (.cfg w d) = .ok (reservedAccess (wordWe w) (wordOffset w) d) := by
  rw [← decode_encodedData, ← encode_reservedAccess]
  exact decodeUndoesEncode p _ hp (wellFormed_reservedAccess _ d h)

/-- Settles O10: a reserved access word is read as the access to its offset, and neither access looks at the state. -/
theorem reservedAccesses : Obligations.ReservedAccesses := by
  refine ⟨fun s w d hp hw => ?_, fun s a v => ⟨rfl, rfl⟩⟩
  rw [decode_reserved hp ((reservedAddr_wordOffset _ w).2 hw), Laws.Roundtrip.wordWe_eq]
  constructor <;> exact fun h => ⟨wordOffset w, by simp [reservedAccess, h]⟩

/-! ### Every word an interface can carry is the encoding of an instruction -/

/-- Behind each of the eleven indices of a channel block there is a register, and the read found there encodes to that index (R123). -/
theorem rdChannelRegister_encoded {p : Params} {k n : Nat} (hk : k < p.nChannels) (hn : n < 11) :
    ∃ i, rdChannelRegister k n = some i ∧ WellFormed p i = true ∧ encode p i = .cfg (accessWord false k n) 0 := by
  interval_cases n <;> exact ⟨_, rfl, decide_eq_true hk, rfl⟩

/-- Behind each of the eleven indices of a channel block there is a register, and the write found there encodes to that index (R123). -/
theorem wrChannelRegister_encoded {p : Params} {k n : Nat} (hk : k < p.nChannels) (hn : n < 11) (d : Word) :
    ∃ i, wrChannelRegister k d n = some i ∧ WellFormed p i = true ∧ encode p i = .cfg (accessWord true k n) d := by
  interval_cases n <;> exact ⟨_, rfl, decide_eq_true hk, rfl⟩

/-- Each of the eleven registers of a channel is read and written by one instruction (R123). -/
theorem channelAccess_encoded {p : Params} {k n : Nat} (we : Bool) (hk : k < p.nChannels) (hn : n < 11) (d : Word) :
    ∃ i, WellFormed p i = true ∧ encode p i = .cfg (accessWord we k n) (if we then d else 0) := by
  cases we with
  | false =>
    obtain ⟨i, -, hi⟩ := rdChannelRegister_encoded hk hn
    exact ⟨i, hi⟩
  | true =>
    obtain ⟨i, -, hi⟩ := wrChannelRegister_encoded hk hn d
    exact ⟨i, hi⟩

/-- Each scratch register is read and written by one instruction (R124). -/
theorem scratchAccess_encoded {p : Params} {n : Nat} (we : Bool) (hn : n < p.nScratch) (d : Word) :
    ∃ i, WellFormed p i = true ∧ encode p i = .cfg (accessWord we p.nChannels n) (if we then d else 0) := by
  cases we with
  | false => exact ⟨.rdScratch n, decide_eq_true hn, rfl⟩
  | true => exact ⟨.wrScratch n d, decide_eq_true hn, rfl⟩

/-- Every access word is the encoding of a well-formed access: to a reserved offset, a channel register or a scratch register (R126, R129). -/
theorem access_encoded (p : Params) (w : BitVec 16) (d : Word) : ∃ i, WellFormed p i = true ∧ encode p i = .cfg w (encodedData w d) := by
  by_cases hr : reservedAddr p (wordOffset w) = true
  · exact ⟨_, wellFormed_reservedAccess _ d hr, encode_reservedAccess p w d⟩
  · rw [reservedAddr_wordOffset] at hr
    have hw := accessWord_of_fields (w := w) (by omega)
    rcases Nat.lt_or_ge (w.toNat / 64 % 512) p.nChannels with hk | hk
    · have hex := channelAccess_encoded (n := w.toNat / 4 % 16) (wordWe w) hk (by omega) d
      rwa [hw] at hex
    · have hblock : w.toNat / 64 % 512 = p.nChannels := by omega
      have hex := scratchAccess_encoded (p := p) (n := w.toNat / 4 % 16) (wordWe w) (by omega) d
      rwa [← hblock, hw] at hex

/-- All eight request codes are used (R130). -/
theorem encode_requestOfCode (p : Params) (code : BitVec 3) (k : Nat) : encode p (requestOfCode code k) = .req code k := by
  have hcodes : ∀ c : BitVec 3, c = 0 ∨ c = 1 ∨ c = 2 ∨ c = 3 ∨ c = 4 ∨ c = 5 ∨ c = 6 ∨ c = 7 := by decide
  rcases hcodes code with rfl | rfl | rfl | rfl | rfl | rfl | rfl | rfl <;> rfl

/-- A command flit of code 0, 1 or 2 means the bus command that encodes to it (R131). -/
theorem decode_flit {p : Params} {f : CmdFlit} (htag : f.tag < p.nChannels) (hcmd : f.cmd ≠ 3) :
    ∃ i, decode p (.bus f) = .ok i ∧ encode p i = .bus f ∧ i.format = .buscmd := by
  obtain ⟨cmd, addr, plen, wdata, eop, tag⟩ := f
  have hdec : decode p (.bus ⟨cmd, addr, plen, wdata, eop, tag⟩) = decodeFlit ⟨cmd, addr, plen, wdata, eop, tag⟩ := if_pos htag
  rw [hdec]
  have hcases : cmd = 0 ∨ cmd = 1 ∨ cmd = 2 := by bv_omega
  rcases hcases with rfl | rfl | rfl
  · exact ⟨_, rfl, rfl, rfl⟩
  · exact ⟨_, rfl, rfl, rfl⟩
  · exact ⟨_, rfl, rfl, rfl⟩

/-- Settles O24: every access word is an encoding, which the decoder reads back; a request code and a legal flit decode to what encodes to them. -/
theorem encodeUndoesDecode : Obligations.EncodeUndoesDecode := by
  refine ⟨fun p w d hp => ?_, fun p code k hk => ?_, fun p f htag hcmd => ?_⟩
  · obtain ⟨i, hwf, henc⟩ := access_encoded p w d
    refine ⟨i, ?_, hwf, ?_⟩
    · rw [← decode_encodedData, ← henc]
      exact decodeUndoesEncode p i hp hwf
    · rw [henc, encodedData, Laws.Roundtrip.wordWe_eq]
      simp only [decide_eq_true_eq]
  · exact ⟨_, Laws.Roundtrip.decode_request (decide_eq_true hk) code, encode_requestOfCode p code k⟩
  · obtain ⟨i, hdec, henc, -⟩ := decode_flit htag hcmd
    exact ⟨i, hdec, henc⟩

/-! ### The flits the generator offers (R130 to R132) -/

/-- The flit offered is the next one of the request being sent (R302, R303). -/
theorem cmdOffer_eq {s : State} {f : CmdFlit} (h : cmdOffer s = some f) :
    ∃ c, s.chans[s.gen.ch]? = some c ∧ f = reqFlit s.params c.reqType s.gen.ch c s.gen.idx.toNat := by
  unfold cmdOffer at h
  split at h
  · obtain ⟨c, hc, rfl⟩ := Option.map_eq_some_iff.1 h
    exact ⟨c, hc, rfl⟩
  · cases h

/-- The lengths of the request table; a burst's length fits in the 16 bits of cmd_plen (R10, R130). -/
theorem reqPlen_toNat {p : Params} (hp : p.Wf) (t : ReqType) :
    (reqPlen p t).toNat = 4 ∨ (reqPlen p t).toNat = 12 ∨ (reqPlen p t).toNat = p.burstBytes := by
  obtain ⟨-, -, -, -, -, -, hburst, -⟩ := hp
  have hdata : (BitVec.ofNat 16 p.burstBytes).toNat = p.burstBytes := by
    rw [BitVec.toNat_ofNat]
    exact Nat.mod_eq_of_lt (by omega)
  cases t with
  | ticketRead | ticketCas | lockRead | lockRelease => exact .inl rfl
  | statusRead | statusWrite => exact .inr (.inl rfl)
  | dataRead | dataWrite => exact .inr (.inr hdata)

/-- Settles O26: the flit offered is built from the request table, whose commands are none of code 3. -/
theorem offeredFlitsDecode : Obligations.OfferedFlitsDecode := by
  intro s f hs hf
  obtain ⟨c, -, rfl⟩ := cmdOffer_eq hf
  have hcmd := reqCmd_ne_reserved c.reqType
  obtain ⟨i, hdec, -, hformat⟩ :=
    decode_flit (f := reqFlit s.params c.reqType s.gen.ch c s.gen.idx.toNat) hs.genCh hcmd
  have hle : (reqCmd c.reqType).toNat ≤ 2 := by bv_omega
  exact ⟨hle, rfl, reqPlen_toNat hs.params _, i, hdec, hformat⟩

/-- Settles O25: the decoder runs on each of the words. -/
theorem sampleWordsDecode : Obligations.SampleWordsDecode := by
  unfold Obligations.SampleWordsDecode
  decide

end Sys2Proof.Machine
end

section
/-!
SUPPORT. The rules of the register file: which words address a register, what each shared read or write answers, as one equation per case, and the operands a register
access assembles; and, from these, the statements about one register each (R160 to R186).
-/
namespace Sys2Proof.Machine

/-! ### The words that address a register (R121, R123, R124, R129) -/

/-- The access word is determined by its fields. -/
theorem IsAccess.eq_accessWord {w : BitVec 16} {we : Bool} {b n : Nat} (h : IsAccess w we b n) (hb : b < 512) (hn : n < 16) :
    w = accessWord we b n :=
  BitVec.eq_of_toNat_eq (Eq.trans h (Laws.Roundtrip.accessWord_toNat we b n hb hn).symm)

section
variable {p : Params} (hp : p.Wf)
include hp

/-- A block number up to the scratch block's fits in the nine bits of the block field (R10, R121). -/
theorem block_lt_of_wf {b : Nat} (hb : b ≤ p.nChannels) : b < 512 := by
  have := hp.2.1
  omega

theorem readDecodesTo_channel {k n : Nat} {i : Instr} (hk : k < p.nChannels) (hn : n < 16) (hi : rdChannelRegister k n = some i) :
    ReadDecodesTo p k n i := fun w d hw => by
  rw [hw.eq_accessWord (block_lt_of_wf hp hk.le) hn]
  exact Laws.Roundtrip.decode_rdChannel hp hk hn hi d

theorem writeDecodesTo_channel {k n : Nat} {v : Word} {i : Instr} (hk : k < p.nChannels) (hn : n < 16)
    (hi : wrChannelRegister k v n = some i) : WriteDecodesTo p k n v i := fun w hw => by
  rw [hw.eq_accessWord (block_lt_of_wf hp hk.le) hn]
  exact Laws.Roundtrip.decode_wrChannel hp hk hn hi

/-- A scratch number fits in the four bits of the index field (R10, R121). -/
theorem scratch_lt_of_wf {n : Nat} (hn : n < p.nScratch) : n < 16 := by
  obtain ⟨-, -, -, -, -, -, -, -, hle, -⟩ := hp
  omega

theorem readDecodesTo_scratch {n : Nat} (hn : n < p.nScratch) : ReadDecodesTo p p.nChannels n (.rdScratch n) := fun w d hw => by
  have hb := block_lt_of_wf hp le_rfl
  have hwe := (Laws.Roundtrip.accessWord_fields false p.nChannels n hb (scratch_lt_of_wf hp hn)).1
  rw [hw.eq_accessWord hb (scratch_lt_of_wf hp hn), ← decode_encodedData, encodedData, hwe]
  exact Laws.Roundtrip.rdScratch n p hp (decide_eq_true hn)

theorem writeDecodesTo_scratch {n : Nat} (hn : n < p.nScratch) (v : Word) : WriteDecodesTo p p.nChannels n v (.wrScratch n v) :=
  fun w hw => by
    rw [hw.eq_accessWord (block_lt_of_wf hp le_rfl) (scratch_lt_of_wf hp hn)]
    exact Laws.Roundtrip.wrScratch n v p hp (decide_eq_true hn)

end

/-! ### Bit 0 of a word (R180) -/

theorem getLsbD_of_odd {v : Word} (h : v.toNat % 2 = 1) : v.getLsbD 0 = true := by
  rw [getLsbD_zero, decide_eq_true h]

theorem getLsbD_of_even {v : Word} (h : v.toNat % 2 = 0) : v.getLsbD 0 = false := by
  rw [getLsbD_zero, decide_eq_false (by omega)]

/-! ### The shared reads and writes (R160, R161, R182, R184) -/

section
variable {s : State} {k : Nat} {c : Channel} (hc : s.chans[k]? = some c)
include hc

theorem readReg_eq (f : Channel → Word) : readReg s k f = .next (s.reply (.read (f c) false)) := withChan_eq hc _

theorem writeReadOnly_eq : writeReadOnly s k = .next (s.reply (.written true)) := withChan_eq hc _

section
variable {legal : Bool} {f : ChanRegs → ChanRegs}

theorem writeStopped_running (hr : c.regs.running = true) : writeStopped s k legal f = .next (s.reply (.written true)) := by
  rw [writeStopped, withChan_eq hc, if_pos hr]

/-- An illegal value records CONFIG_DEFECT (R440; log 4). -/
theorem writeStopped_illegal (hr : c.regs.running = false) (hl : legal = false) :
    ∃ t, writeStopped s k legal f = .next t ∧ .configDefect ∈ t.faults := by
  refine ⟨(s.reply .idle).recordFault .configDefect, ?_, (State.mem_recordFault _ _ _).2 (.inr rfl)⟩
  rw [writeStopped, withChan_eq hc, if_neg (by simp [hr]), if_neg (by simp [hl])]

theorem writeStopped_legal (hr : c.regs.running = false) (hl : legal = true) :
    writeStopped s k legal f = .next ((s.setChan k { c with regs := f c.regs }).reply (.written false)) := by
  rw [writeStopped, withChan_eq hc, if_neg (by simp [hr]), if_pos hl]

end

/-! ### The write of RUNNING (R180) -/

section
variable {v : Word}

/-- A start with no size or a region that does not fit. -/
theorem execWrRunning_defect (hv : v.toNat % 2 = 1) (hr : c.regs.running = false) (hd : startDefect s.params c.regs = true) :
    ∃ t, execWrRunning k v s = .next t ∧ .configDefect ∈ t.faults := by
  refine ⟨(s.reply .idle).recordFault .configDefect, ?_, (State.mem_recordFault _ _ _).2 (.inr rfl)⟩
  simp only [execWrRunning, withChan_eq hc, getLsbD_of_odd hv, hr, hd, reduceIte]

theorem execWrRunning_start (hv : v.toNat % 2 = 1) (hr : c.regs.running = false) (hd : startDefect s.params c.regs = false) :
    execWrRunning k v s =
      .next ((s.reply (.written false)).setChan k { c with regs := { c.regs with running := true }, offset := 0 }) := by
  simp only [execWrRunning, withChan_eq hc, getLsbD_of_odd hv, hr, hd, reduceIte, Bool.false_eq_true]

theorem execWrRunning_stop (hv : v.toNat % 2 = 0) (hr : c.regs.running = true) (hs : stopIsSafe c.state (s.port k).req = true) :
    execWrRunning k v s = .next ((s.reply (.written false)).setChan k { c with regs := { c.regs with running := false } }) := by
  simp only [execWrRunning, withChan_eq hc, getLsbD_of_even hv, hr, hs, reduceIte]

/-- A stop in the middle of a transaction. -/
theorem execWrRunning_cancel (hv : v.toNat % 2 = 0) (hr : c.regs.running = true) (hs : stopIsSafe c.state (s.port k).req = false) :
    execWrRunning k v s =
      .next (((s.reply (.written false)).setChan k { c with regs := { c.regs with running := false } }).recordFault .cancelUnsupported) := by
  simp only [execWrRunning, withChan_eq hc, getLsbD_of_even hv, hr, hs, reduceIte, Bool.false_eq_true]

theorem execWrRunning_same (h : v.toNat % 2 = 1 ↔ c.regs.running = true) : execWrRunning k v s = .next (s.reply (.written false)) := by
  have hv : v.getLsbD 0 = c.regs.running := by
    rw [getLsbD_zero]
    exact Bool.eq_iff_iff.2 (decide_eq_true_iff.trans h)
  cases hr : c.regs.running <;> simp only [execWrRunning, withChan_eq hc, hv, hr]

end

end

theorem startDefect_iff (p : Params) (r : ChanRegs) :
    startDefect p r = true ↔ r.size = 0 ∨ 2 ^ p.paddrWidth < r.bufferAddr.toNat + r.size.toNat ∨
      (r.mode = .sharedQueue ∧ (2 ^ p.paddrWidth < r.descAddr.toNat + 12 ∨ 2 ^ p.paddrWidth < r.lockAddr.toNat + 8)) := by
  simp [startDefect, or_assoc]

theorem stopIsSafe_iff (q : FsmState) (req : Bool) :
    stopIsSafe q req = true ↔ q = .success ∨ q = .errorLock ∨ q = .errorDescriptor ∨ q = .errorData ∨ (q = .idle ∧ req = false) := by
  cases q <;> simp [stopIsSafe, FsmState.isTerminal, FsmState.isError]

/-! ### The scratch registers (R185, R186) -/

section
variable {s : State} {i : Nat} {w : Word} (hw : s.scratch[i]? = some w)
include hw

theorem execRdScratch_eq : execRdScratch i s = .next (s.reply (.read w false)) := by
  simp only [execRdScratch, hw]

theorem execWrScratch_eq (v : Word) : execWrScratch i v s = .next { s.reply (.written false) with scratch := s.scratch.set i v } := by
  simp only [execWrScratch, hw]

end

/-! ### The operands of an access (R125, R163 to R166, R176) -/

/-- The high half is what PADDR_WIDTH leaves of the bits from 32 on. -/
theorem addrHi_toNat (p : Params) (a : Addr) : (addrHi p a).toNat = a.toNat % 2 ^ p.paddrWidth / 2 ^ 32 := by
  have hlt : a.toNat % 2 ^ p.paddrWidth < 2 ^ 64 := lt_of_le_of_lt (Nat.mod_le _ _) a.isLt
  rw [addrHi, BitVec.extractLsb'_toNat, Nat.shiftRight_eq_div_pow, truncAddr_toNat]
  exact Nat.mod_eq_of_lt (by omega)

/-- A write of a high half, with PADDR_WIDTH = 32 as well. -/
theorem setAddrHi_toNat_ite {p : Params} (hp : p.Wf) (a : Addr) (v : Word) :
    (setAddrHi p a v).toNat =
      if 32 < p.paddrWidth then v.toNat % 2 ^ (p.paddrWidth - 32) * 2 ^ 32 + a.toNat % 2 ^ 32 else a.toNat := by
  split
  · exact setAddrHi_toNat p hp a v ‹_›
  · rw [setAddrHi, if_neg ‹_›]

/-- A word that is the code of a mode selects it. -/
theorem modeOfWord_of_code {v : Word} {m : Mode} (h : v.toNat = (modeCode m).toNat) : modeOfWord v = some m := by
  obtain rfl : v = modeCode m := BitVec.eq_of_toNat_eq h
  cases m <;> rfl

/-- STATUS is 0 outside the terminal states (R39). -/
theorem statusCode_of_not_terminal {q : FsmState} (h : q.isTerminal = false) : statusCode q = 0 := by
  cases q with
  | success | errorLock | errorDescriptor | errorData => cases h
  | _ => rfl

/-- A stopped channel holds its interrupt line low (R425). -/
theorem irq_of_stopped {c : Channel} (h : c.regs.running = false) : irq c = false := by
  rw [irq, h, Bool.false_and]

/-! ### The registers one by one -/

/-- Settles O1: each read answers the half of its address register. -/
theorem addressRegisterReads : Obligations.AddressRegisterReads := by
  intro s k c hp hk hc
  have decodes : ∀ {n i}, n < 16 → rdChannelRegister k n = some i → ReadDecodesTo s.params k n i := readDecodesTo_channel hp hk
  exact
    ⟨⟨decodes (by decide) rfl, _, addrLo_toNat _, readReg_eq hc _⟩,
      ⟨decodes (by decide) rfl, _, addrHi_toNat _ _, readReg_eq hc _⟩,
      ⟨decodes (by decide) rfl, _, addrLo_toNat _, readReg_eq hc _⟩,
      ⟨decodes (by decide) rfl, _, addrHi_toNat _ _, readReg_eq hc _⟩,
      ⟨decodes (by decide) rfl, _, addrLo_toNat _, readReg_eq hc _⟩,
      ⟨decodes (by decide) rfl, _, addrHi_toNat _ _, readReg_eq hc _⟩⟩

/-- Settles O2: each read answers the code of its register's value. -/
theorem controlRegisterReads : Obligations.ControlRegisterReads := by
  intro s k c hp hk hc
  have decodes : ∀ {n i}, n < 16 → rdChannelRegister k n = some i → ReadDecodesTo s.params k n i := readDecodesTo_channel hp hk
  refine ⟨⟨decodes (by decide) rfl, _, readReg_eq hc _, ?mode⟩, ⟨decodes (by decide) rfl, readReg_eq hc _⟩,
    ⟨decodes (by decide) rfl, _, readReg_eq hc _, ?running⟩, ⟨decodes (by decide) rfl, _, readReg_eq hc _, ?direction⟩,
    ⟨decodes (by decide) rfl, _, readReg_eq hc _, ?status⟩⟩
  case mode => exact ⟨congrArg modeCode, congrArg modeCode, congrArg modeCode⟩
  case running => exact ⟨fun h => if_neg (by simp [h]), fun h => if_pos h⟩
  case direction => exact ⟨congrArg directionCode, congrArg directionCode⟩
  case status =>
    exact ⟨congrArg statusCode, congrArg statusCode, congrArg statusCode, congrArg statusCode, statusCode_of_not_terminal⟩

/-- Settles O3: the three cases of a write that has to find the channel stopped, with the alignment of each low half. -/
theorem lowAddressWrites : Obligations.LowAddressWrites := by
  intro s k c v hp hk hc
  simp only [exec]
  have decodes : ∀ {n i}, n < 16 → wrChannelRegister k v n = some i → WriteDecodesTo s.params k n v i := writeDecodesTo_channel hp hk
  refine ⟨⟨decodes (by decide) rfl, ?_⟩, ⟨decodes (by decide) rfl, ?_⟩, ⟨decodes (by decide) rfl, ?_⟩⟩
  all_goals exact ⟨writeStopped_running hc, fun hr hv => writeStopped_illegal hc hr (decide_eq_false hv),
    fun hr hv => ⟨_, setAddrLo_toNat _ v, writeStopped_legal hc hr (decide_eq_true hv)⟩⟩

/-- Settles O4: every value of a high half is legal, and what is stored is cut to PADDR_WIDTH. -/
theorem highAddressWrites : Obligations.HighAddressWrites := by
  intro s k c v hp hk hc
  simp only [exec]
  have decodes : ∀ {n i}, n < 16 → wrChannelRegister k v n = some i → WriteDecodesTo s.params k n v i := writeDecodesTo_channel hp hk
  refine ⟨⟨decodes (by decide) rfl, ?_⟩, ⟨decodes (by decide) rfl, ?_⟩, ⟨decodes (by decide) rfl, ?_⟩⟩
  all_goals exact ⟨writeStopped_running hc, fun hr => ⟨_, setAddrHi_toNat_ite hp _ v, writeStopped_legal hc hr rfl⟩⟩

/-- Settles O5: the three cases of a write that has to find the channel stopped, with the mode codes and the alignment of a size. -/
theorem modeSizeWrites : Obligations.ModeSizeWrites := by
  intro s k c v hp hk hc
  simp only [exec]
  have decodes : ∀ {n i}, n < 16 → wrChannelRegister k v n = some i → WriteDecodesTo s.params k n v i := writeDecodesTo_channel hp hk
  refine ⟨⟨decodes (by decide) rfl, writeStopped_running hc, fun hr hv => writeStopped_illegal hc hr ((modeOfWord_bad v).2 hv),
      fun hr hv => ?mode⟩,
    ⟨decodes (by decide) rfl, writeStopped_running hc, fun hr hv => writeStopped_illegal hc hr (decide_eq_false hv),
      fun hr hv => writeStopped_legal hc hr (decide_eq_true hv)⟩⟩
  case mode =>
    have hlegal : (modeOfWord v).isSome = true := eq_true_of_ne_false (mt (modeOfWord_bad v).1 (not_lt.2 hv))
    have hmode : ∀ m, v.toNat = (modeCode m).toNat → (modeOfWord v).getD c.regs.mode = m := fun m h => by
      rw [modeOfWord_of_code h, Option.getD_some]
    exact ⟨_, hmode .sharedQueue, hmode .bulkIrq, hmode .bulkNoIrq, writeStopped_legal hc hr hlegal⟩

/-- Settles O6: the five cases of the write, by bit 0 of the word, RUNNING, and whether the start is a defect or the stop safe. -/
theorem runningWrite : Obligations.RunningWrite := by
  intro s k c v hp hk hc top defect resting started stopped
  have hdefect : startDefect s.params c.regs = true ↔ defect := startDefect_iff _ _
  have hresting : stopIsSafe c.state (s.port k).req = true ↔ resting := stopIsSafe_iff _ _
  refine ⟨writeDecodesTo_channel hp hk (by decide) rfl, fun hv hr hd => ?_, fun hv hr hd => ?_, fun hv hr hs => ?_, fun hv hr hs => ?_,
    execWrRunning_same hc, irq_of_stopped rfl⟩
  · exact execWrRunning_defect hc hv hr (hdefect.2 hd)
  · exact execWrRunning_start hc hv hr (Bool.eq_false_iff.2 (mt hdefect.1 hd))
  · exact execWrRunning_stop hc hv hr (hresting.2 hs)
  · exact execWrRunning_cancel hc hv hr (Bool.eq_false_iff.2 (mt hresting.1 hs))

/-- Settles O7: each of the eight is a write that has to find the channel stopped. -/
theorem rejectedWhileRunning : Obligations.RejectedWhileRunning := by
  rintro s k c v i hc hr (rfl | rfl | rfl | rfl | rfl | rfl | rfl | rfl)
  all_goals
    rw [exec]
    exact writeStopped_running hc hr

/-- Settles O8: neither write looks at RUNNING. -/
theorem readOnlyWrites : Obligations.ReadOnlyWrites := fun _ _ _ _ hp hk hc =>
  ⟨⟨writeDecodesTo_channel hp hk (by decide) rfl, writeReadOnly_eq hc⟩, ⟨writeDecodesTo_channel hp hk (by decide) rfl, writeReadOnly_eq hc⟩⟩

/-- Settles O9: neither access looks at a channel, and the ports see the register itself. -/
theorem scratchAccesses : Obligations.ScratchAccesses := by
  intro s i w v hp hi hw
  have hlt : i < s.scratch.length := (List.getElem?_eq_some_iff.1 hw).1
  exact ⟨⟨readDecodesTo_scratch hp hi, execRdScratch_eq hw⟩, writeDecodesTo_scratch hp hi v, _, execWrScratch_eq hw v, rfl,
    List.getElem?_set_self hlt⟩

end Sys2Proof.Machine
end

section
/-!
SUPPORT. What every read answers, and what an access of any kind leaves of one channel, said once for every instruction (R160, R161, R162); and, from these, the two
statements about all accesses.
-/
namespace Sys2Proof.Machine

/-! ### Every read answers and changes nothing but the reply (R160) -/

/-- The instruction answers in s as a read does: some word, with cfg_err = 1 exactly for a reserved encoding (R160, R187). -/
def AnswersRead (s : State) (i : Instr) : Prop :=
  ∃ v e, exec i s = .next (s.reply (.read v e)) ∧ (e = true ↔ ∃ a, i = .rdReserved a)

theorem answersRead_reserved (s : State) (a : BitVec 15) : AnswersRead s (.rdReserved a) :=
  ⟨0, true, rfl, iff_of_true rfl ⟨a, rfl⟩⟩

theorem answersRead_channelRegister {s : State} {k n : Nat} {c : Channel} {i : Instr} (hc : s.chans[k]? = some c)
    (hi : rdChannelRegister k n = some i) : AnswersRead s i := by
  unfold rdChannelRegister at hi
  split at hi <;> cases hi <;> exact ⟨_, false, readReg_eq hc _, by simp⟩

theorem answersRead_scratch {s : State} {i : Nat} (hi : i < s.scratch.length) : AnswersRead s (.rdScratch i) :=
  ⟨_, false, execRdScratch_eq (List.getElem?_eq_getElem hi), by simp⟩

/-- A read access finds a channel register, a scratch register or nothing (R126). -/
theorem answersRead_decodeRead {s : State} (hs : ShapeOk s) (w : BitVec 16) : AnswersRead s (decodeRead s.params w) := by
  unfold decodeRead
  split
  · exact answersRead_reserved s _
  split
  · rename_i hk
    obtain ⟨c, hc⟩ := chans_getElem? hs.chans hk
    cases hi : rdChannelRegister (wordBlock w) (wordIndex w) with
    | none => exact answersRead_reserved s _
    | some i => exact answersRead_channelRegister hc hi
  split
  · rename_i hi
    exact answersRead_scratch (hs.scratch ▸ hi.2)
  · exact answersRead_reserved s _

/-- Settles O11: the read decoded from the word answers as a read does. -/
theorem readsChangeNothing : Obligations.ReadsChangeNothing := by
  intro s w d hs hw
  obtain ⟨v, e, hexec, herr⟩ := answersRead_decodeRead hs w
  have hwe : wordWe w = false := by rw [Laws.Roundtrip.wordWe_eq, decide_eq_false (not_le.2 hw)]
  exact ⟨_, v, e, by simp [decode, hwe], hexec, herr⟩

/-! ### What an access leaves of one channel (R161, R162) -/

/-- From c to c', channel j changed in the destination register of i at most; RUNNING goes with the offset its start clears (R180). -/
structure RegFrame (i : Instr) (j : Nat) (c c' : Channel) : Prop where
  working : c' = { c with regs := c'.regs, offset := c'.offset }
  bufferAddr : destReg i ≠ some (j, .bufferAddr) → c'.regs.bufferAddr = c.regs.bufferAddr
  descAddr : destReg i ≠ some (j, .descAddr) → c'.regs.descAddr = c.regs.descAddr
  lockAddr : destReg i ≠ some (j, .lockAddr) → c'.regs.lockAddr = c.regs.lockAddr
  mode : destReg i ≠ some (j, .mode) → c'.regs.mode = c.regs.mode
  size : destReg i ≠ some (j, .size) → c'.regs.size = c.regs.size
  running : destReg i ≠ some (j, .running) → c'.regs.running = c.regs.running ∧ c'.offset = c.offset

theorem RegFrame.refl (i : Instr) (j : Nat) (c : Channel) : RegFrame i j c c :=
  ⟨rfl, fun _ => rfl, fun _ => rfl, fun _ => rfl, fun _ => rfl, fun _ => rfl, fun _ => ⟨rfl, rfl⟩⟩

section
variable {s t : State} {j : Nat} {c : Channel} (hc : s.chans[j]? = some c)
include hc

/-- The channel read at its own number after it was replaced. -/
theorem chans_set_self (c' : Channel) : (s.chans.set j c')[j]? = some c' :=
  List.getElem?_set_self (List.getElem?_eq_some_iff.1 hc).1

/-- A write of an address, size or mode register leaves a channel alone or gives its own channel the new registers. -/
theorem writeStopped_chan {k : Nat} {legal : Bool} {f : ChanRegs → ChanRegs} (h : writeStopped s k legal f = .next t) :
    t.chans[j]? = some c ∨ (k = j ∧ t.chans[j]? = some { c with regs := f c.regs }) := by
  obtain ⟨d, hd, h⟩ := withChan_next h
  split at h
  · cases h
    exact .inl hc
  split at h <;> cases h
  · by_cases hkj : k = j
    · subst hkj
      obtain rfl : d = c := Option.some.inj (hd.symm.trans hc)
      exact .inr ⟨rfl, chans_set_self hc _⟩
    · exact .inl (by simp [hkj, hc])
  · exact .inl hc

/-- A write of RUNNING gives its own channel some RUNNING and some offset (R180). -/
theorem execWrRunning_chan {v : Word} (h : execWrRunning j v s = .next t) :
    ∃ b o, t.chans[j]? = some { c with regs := { c.regs with running := b }, offset := o } := by
  obtain ⟨d, hd, h⟩ := withChan_next h
  obtain rfl : d = c := Option.some.inj (hd.symm.trans hc)
  dsimp only at h
  split at h
  · split at h <;> cases h
    · exact ⟨_, _, hc⟩
    · exact ⟨_, _, chans_set_self hc _⟩
  · split at h <;> cases h <;> exact ⟨_, _, chans_set_self hc _⟩
  · cases h
    exact ⟨_, _, hc⟩

/-- An access changes of a channel its own destination register at most. -/
theorem exec_regFrame {i : Instr} (hi : i.format = .cfg) (h : exec i s = .next t) : ∃ c', t.chans[j]? = some c' ∧ RegFrame i j c c' := by
  have same : t.chans[j]? = some c → ∃ c', t.chans[j]? = some c' ∧ RegFrame i j c c' := fun ht => ⟨c, ht, .refl i j c⟩
  cases i with
  | wrBufferAddrLo k v | wrBufferAddrHi k v | wrDescAddrLo k v | wrDescAddrHi k v | wrLockAddrLo k v | wrLockAddrHi k v
  | wrMode k v | wrSize k v =>
    rw [exec] at h
    rcases writeStopped_chan hc h with ht | ⟨rfl, ht⟩
    · exact same ht
    · exact ⟨_, ht, by constructor <;> simp [destReg]⟩
  | wrRunning k v =>
    by_cases hkj : k = j
    · subst hkj
      obtain ⟨b, o, ht⟩ := execWrRunning_chan hc h
      exact ⟨_, ht, by constructor <;> simp [destReg]⟩
    · exact same (execWrRunning_keepsOther hc hkj h)
  | rdBufferAddrLo k | rdBufferAddrHi k | rdDescAddrLo k | rdDescAddrHi k | rdLockAddrLo k | rdLockAddrHi k
  | rdDirection k | rdMode k | rdSize k | rdRunning k | rdStatus k => exact same (readReg_keepsChan hc h)
  | wrDirection k v | wrStatus k v => exact same (writeReadOnly_keepsChan hc h)
  | rdScratch n => exact same (execRdScratch_keepsChan hc h)
  | wrScratch n v => exact same (execWrScratch_keepsChan hc h)
  | rdReserved a => cases h; exact same hc
  | wrReserved a v => cases h; exact same hc
  | ticketRead k | ticketCas k | lockRead k | statusRead k | dataRead k | dataWrite k | statusWrite k | lockRelease k => cases hi
  | busRead a p w e g | busWrite a p w e g | busCas a p w e g => cases hi

end

/-- A scratch register that is not the destination stays (R186). -/
theorem exec_scratch_ne {s t : State} {i : Instr} {j : Nat} (h : exec i s = .next t) (hj : destScratch i ≠ some j) :
    t.scratch[j]? = s.scratch[j]? := by
  rcases exec_scratch h with he | ⟨n, v, rfl, he⟩
  · rw [he]
  · have hnj : n ≠ j := fun e => hj (congrArg some e)
    rw [he, List.getElem?_set_ne hnj]

/-- Settles O12: what an access does to the state as a whole, to the scratch registers and to each channel. -/
theorem accessFrame : Obligations.AccessFrame := by
  intro i s t hi h
  have A := exec_access hi h
  obtain ⟨hframe, hmem⟩ :
      t = { s with chans := t.chans, scratch := t.scratch, faults := t.faults, cfgOut := t.cfgOut } ∧ t.mem = s.mem := by
    obtain ⟨cs, sc, fs, r, rfl⟩ := A.frame
    exact ⟨rfl, rfl⟩
  refine ⟨hframe, fun a => by rw [hmem], A.faultsKept, A.chansLen, A.scratchLen, fun j => exec_scratch_ne h, fun j c hc => ?_⟩
  obtain ⟨c', hc', F⟩ := exec_regFrame hc hi h
  exact ⟨c', hc', F.working, F.bufferAddr, F.descAddr, F.lockAddr, F.mode, F.size, F.running⟩

end Sys2Proof.Machine
end

section
/-!
SUPPORT. The invariant of a whole run: each part of it comes through a tick, it holds at reset, and so it holds of every state a run reaches; and, from these, the two
statements about it (R215, R216, R278).
-/
namespace Sys2Proof.Machine

/-! ### Through one tick -/

/-- Every step keeps the machine invariant: the shape and the handshake as they stand, the registers by the access, and the progress of a channel when the tick
records no fault. -/
theorem machineOk_step {s t : State} (h : step s = .next t) (hs : MachineOk s) : MachineOk t := by
  have F := step_frame h
  have hfault : NoFault t → NoFault s := (FaultsGrow.mk F.faultsKept F.faultsOnce).noFault
  obtain ⟨hshape, hhand, hregs⟩ := partInvariantsKept s t h
  refine ⟨hshape hs.shape, hhand hs.handshake, hregs hs.shape.params hs.regs, fun hn c' hmem => ?_, fun hn k c' hk => ?_⟩
  · obtain ⟨k, hk⟩ := List.mem_iff_getElem?.1 hmem
    obtain ⟨c0, c1, c2, c3, c4, c5, hc0, T⟩ := tick_of h k c' hk
    have h0 : c0 ∈ s.chans := List.mem_of_getElem? hc0
    rw [F.params]
    exact run_step T hc0 hs.handshake (hs.regs c0 h0) (hs.run (hfault hn) c0 h0) hn
  · obtain ⟨c0, c1, c2, c3, c4, c5, hc0, T⟩ := tick_of h k c' hk
    have h0 : c0 ∈ s.chans := List.mem_of_getElem? hc0
    rw [F.params]
    exact queue_step T hc0 hs.shape.params (hs.shape.counts c0 h0) hs.handshake (hs.regs c0 h0) (hs.run (hfault hn) c0 h0)
      (hs.queue (hfault hn) k c0 hc0) hn

/-- Settles O54: each part of the invariant comes through the tick, channel by channel. -/
theorem machineInvariantKept : Obligations.MachineInvariantKept := fun _ _ hs h => machineOk_step h hs

/-! ### At reset (R460) -/

theorem chanHandshakeOk_reset (d : Direction) : ChanHandshakeOk d Channel.reset :=
  ⟨nofun, nofun, nofun, nofun⟩

theorem regsOk_reset (p : Params) : RegsOk p ChanRegs.reset := by
  constructor <;> simp [ChanRegs.reset, addrLo]

/-- A channel after reset is stopped in IDLE, and claims nothing more. -/
theorem runOk_reset (p : Params) : RunOk p Channel.reset :=
  ⟨fun _ => .inl rfl, nofun, nofun, nofun, nofun, nofun, nofun, nofun⟩

theorem queueOk_reset (p : Params) (d : Direction) : QueueOk p d Channel.reset :=
  ⟨nofun, nofun, nofun, nofun, nofun, nofun⟩

/-- After reset every channel is in its reset state, whatever memory and the script hold. -/
theorem eq_reset_of_mem {p : Params} {c : Channel} (h : c ∈ (State.resetWith p).chans) : c = Channel.reset :=
  List.eq_of_mem_replicate h

theorem shapeOk_reset {p : Params} {m : Memory} (e : List TickIn) (hp : p.Wf) (hm : Memory.wf m) (hin : Memory.inSpace p m) :
    ShapeOk { State.resetWith p with mem := m, env := e } where
  params := hp
  chans := List.length_replicate
  scratch := List.length_replicate
  genCh := hp.1
  rrLast := Nat.sub_lt hp.1 Nat.one_pos
  dmxCh := hp.1
  fifo := fun c hc => by rw [eq_reset_of_mem hc]; exact Nat.zero_le _
  counts := fun c hc => by
    rw [eq_reset_of_mem hc]
    exact ⟨Nat.two_pow_pos _, Nat.two_pow_pos _, Nat.two_pow_pos _⟩
  memWf := hm
  memIn := hin
  faultsOnce := List.nodup_nil

/-- The reset state meets the machine invariant, for all legal parameters, every script and every canonical memory inside the address space. -/
theorem machineOk_reset {p : Params} {m : Memory} (e : List TickIn) (hp : p.Wf) (hm : Memory.wf m) (hin : Memory.inSpace p m) :
    MachineOk { State.resetWith p with mem := m, env := e } where
  shape := shapeOk_reset e hp hm hin
  handshake := ⟨fun _ _ hc => eq_reset_of_mem (List.mem_of_getElem? hc) ▸ chanHandshakeOk_reset _, nofun⟩
  regs := fun _ hc => eq_reset_of_mem hc ▸ regsOk_reset p
  run := fun _ _ hc => eq_reset_of_mem hc ▸ runOk_reset p
  queue := fun _ _ _ hc => eq_reset_of_mem (List.mem_of_getElem? hc) ▸ queueOk_reset p _

/-! ### In every state a run reaches -/

/-- An invariant of every step holds of every state reached from a state it holds of. -/
theorem reaches_keeps {P : State → Prop} (hstep : ∀ s t, step s = .next t → P s → P t) {s t : State} (h : Reaches s t) (hs : P s) : P t := by
  induction h with
  | refl => exact hs
  | step hnext _ ih => exact ih (hstep _ _ hnext hs)

theorem Reaches.machineOk {s t : State} (h : Reaches s t) (hs : MachineOk s) : MachineOk t :=
  reaches_keeps (fun _ _ => machineOk_step) h hs

/-- The terminal states by name (R127). -/
theorem isTerminal_iff {q : FsmState} :
    q.isTerminal = true ↔ q = .success ∨ q = .errorLock ∨ q = .errorDescriptor ∨ q = .errorData := by
  cases q <;> simp [FsmState.isTerminal, FsmState.isError]

/-- The bulk modes are those other than SHARED_QUEUE (R35). -/
theorem isBulk_iff {m : Mode} : m.isBulk = true ↔ m ≠ .sharedQueue := by
  cases m <;> simp [Mode.isBulk]

section
variable {p : Params} {c : Channel} (h : RunOk p c)
include h

theorem RunOk.parked (hr : c.regs.running = false) :
    c.state = .idle ∨ c.state = .success ∨ c.state = .errorLock ∨ c.state = .errorDescriptor ∨ c.state = .errorData :=
  (h.stopped hr).imp_right isTerminal_iff.1

/-- A shared-queue channel never enters the states of a bulk copy (R278). -/
theorem RunOk.not_bulk (hr : c.regs.running = true) (hm : c.regs.mode = .sharedQueue) : c.state ≠ .bulkDataMove ∧ c.state ≠ .success :=
  not_or.1 fun hq => isBulk_iff.1 (h.bulk hr hq) hm

/-- A bulk channel never enters a protocol step (R216). -/
theorem RunOk.not_protocol (hr : c.regs.running = true) (hm : c.regs.mode ≠ .sharedQueue) : c.state.isProtocol = false :=
  Bool.eq_false_iff.2 fun hq => hm (h.protocol hr hq)

end

/-- Settles O57: the invariant holds at reset and every step keeps it; without a fault it says where each channel is. -/
theorem runStates : Obligations.RunStates := by
  intro p m e t hp hm hin hreach hn c hc
  have h := (hreach.machineOk (machineOk_reset e hp hm hin)).run hn c hc
  exact ⟨h.parked, h.not_bulk, h.not_protocol⟩

end Sys2Proof.Machine
end

section
/-!
SUPPORT. One equation per arm of chan_step (R200 to R214), what the port and the generator leave of a channel's FIFO (R373 to R375), and the request a port goes on
holding (R384); and, from these, the statements about one channel in one tick.
-/
namespace Sys2Proof.Machine

/-! ### The arms of chan_step -/

section
variable {p : Params} {d : Direction} {x : PortIn} {c0 c : Channel}

theorem chanStep_idle (h : c0.state = .idle) : chanStep p d x c0 c = idleArm p x c0 c := by
  simp [chanStep, h, postedRequest]

theorem chanStep_ack (h : c0.state = .ack) : chanStep p d x c0 c = ackArm c0 c := by
  simp [chanStep, h, postedRequest]

theorem chanStep_bus {t : ReqType} (h : postedRequest d c0.state = some t) : chanStep p d x c0 c = busArm p d t c0 c := by
  simp [chanStep, h]

theorem idleArm_taken (hr : c0.regs.running = true) (hq : x.req = true) :
    idleArm p x c0 c = { c with remaining := truncCount p x.burstCount, state := .ack } := by
  simp [idleArm, hr, hq]

theorem idleArm_rested (h : c0.regs.running = false ∨ x.req = false) : idleArm p x c0 c = c := by
  rcases h with h | h <;> simp [idleArm, h]

/-- R210: a request posted or outstanding, and no response yet. -/
theorem busArm_waiting {t : ReqType} (hr : c0.rspReady = false) (h : c0.reqValid = true ∨ c0.reqIssued = true) : busArm p d t c0 c = c := by
  rcases h with h | h <;> simp [busArm, hr, h]

/-- R205, R206: nothing under way and no pre-post move, so the gate decides. -/
theorem busArm_quiet {t : ReqType} (hq : c0.quiet) (hpre : prePost c0 = none) :
    busArm p d t c0 c = if postGate p d c0 then post t c else c := by
  obtain ⟨hv, hi, hr⟩ := hq
  simp [busArm, hv, hi, hr, hpre]

/-- R208: an error is taken before anything else is looked at. -/
theorem consume_error (h : c0.rspErr = true) : consume p d c0 c = takeError (errState c0.state) { c with rspReady := false } := by
  simp [consume, h]

/-- A response with an error is no descriptor (R269). -/
theorem descriptorFault_of_error (h : c0.rspErr = true) : descriptorFault p c0 = false := by
  simp [descriptorFault, h]

end

/-- No pre-post move: bursts are left to move (R240, R271). -/
theorem prePost_none {c : Channel} (hb : c.state = .bulkDataMove → c.remaining ≠ 0) (hd : c.state = .dataMove → c.sqChunk ≠ 0) :
    prePost c = none := by
  unfold prePost
  split
  · exact if_neg (hb ‹_›)
  · exact if_neg (hd ‹_›)
  · rfl

/-- The gate of R205: room for a whole burst, or a whole burst present. -/
theorem postGate_iff {p : Params} {d : Direction} {c : Channel} :
    postGate p d c = true ↔ (c.state = .bulkDataMove ∨ c.state = .dataMove →
      (d = .fromMemory → c.fifo.length + p.burstWords ≤ p.fifoDepth) ∧ (d = .toMemory → p.burstWords ≤ c.fifo.length)) := by
  cases hq : c.state <;> cases d <;> simp [postGate, fifoGate, hq]

/-- A data burst of a FROM_MEMORY channel is a DATA_READ (R206). -/
theorem postedRequest_fromMemory {d : Direction} {q : FsmState} (hd : d = .fromMemory) (h : q = .bulkDataMove ∨ q = .dataMove) :
    postedRequest d q = some .dataRead := by
  rcases h with rfl | rfl <;> rw [hd] <;> rfl

/-- A data burst of a TO_MEMORY channel is a DATA_WRITE (R206). -/
theorem postedRequest_toMemory {d : Direction} {q : FsmState} (hd : d = .toMemory) (h : q = .bulkDataMove ∨ q = .dataMove) :
    postedRequest d q = some .dataWrite := by
  rcases h with rfl | rfl <;> rw [hd] <;> rfl

theorem truncCount_toNat (p : Params) (n : BitVec 32) : (truncCount p n).toNat = n.toNat % 2 ^ p.bcBits := by
  rw [truncCount, BitVec.toNat_ofNat]
  exact Nat.mod_eq_of_lt ((Nat.mod_le _ _).trans_lt n.isLt)

/-! ### A channel's FIFO up to its own state machine (R373 to R375) -/

/-- The bus takes the flit offered when it is ready and the wire is free (B1; log 23). -/
theorem cmdReady_iff {s : State} : cmdReady s = true ↔ BusTakes s := by
  simp [cmdReady, BusTakes]

/-- The bus takes a DATA_WRITE flit of channel k in this tick, so the generator pops its FIFO (R309, R312). -/
def TakesWord (s : State) (k : Nat) (c : Channel) : Prop := s.gen.busy = true ∧ s.gen.ch = k ∧ c.reqType = .dataWrite ∧ BusTakes s

theorem genPopped_iff {s : State} {k : Nat} {c : Channel} : GenPopped s k c ↔ TakesWord s k c ∧ c.fifo ≠ [] := by
  unfold GenPopped TakesWord
  rw [cmdReady_iff]
  tauto

section
variable {p : Params} {x : PortIn} {c0 c : Channel}

theorem portStep_fromMemory_fifo (h : c0.fifo = [] → c.fifo = []) :
    (portStep p .fromMemory x c0 c).fifo = if x.rready = true then c.fifo.tail else c.fifo := by
  by_cases he : c0.fifo = []
  · simp [portStep, portRvalid, he, h he]
  · cases hr : x.rready <;> simp [portStep, portRvalid, he, hr]

theorem portStep_toMemory_fifo :
    (portStep p .toMemory x c0 c).fifo = c.fifo ++ if x.wvalid = true ∧ c.fifo.length < p.fifoDepth then [x.wdata] else [] := by
  by_cases h : x.wvalid = true ∧ c.fifo.length < p.fifoDepth
  · simp [portStep, portWready, h]
  · have hno : (x.wvalid && portWready p c.fifo) = false := by simpa [portWready] using h
    simp [portStep, hno, h]

end

section
variable {s t : State} {k : Nat} {c0 c1 c2 c3 c4 c5 c' : Channel} (T : ChanTick s t k c0 c1 c2 c3 c4 c5 c')
include T

/-- The FIFO the port finds: less its head if the generator took it. -/
theorem ChanTick.fifo_before_port : (TakesWord s k c0 → c2.fifo = c0.fifo.tail) ∧ (¬TakesWord s k c0 → c2.fifo = c0.fifo) := by
  have haccess : c2.fifo = c1.fifo := by cases T.access <;> rfl
  rw [haccess]
  constructor
  · intro hw
    by_cases he : c0.fifo = []
    · rcases T.send with h | ⟨-, h⟩ <;> simp [h, he]
    · rw [T.popped (genPopped_iff.2 ⟨hw, he⟩)]
  · intro hw
    rcases T.send with h | ⟨g, -⟩
    · rw [h]
    · exact absurd (genPopped_iff.1 g).1 hw

/-- The FIFO the demultiplexer finds is the one the port leaves. -/
theorem ChanTick.fifo_after_port : c4.fifo = (portStep s.params (s.params.dir k) (s.port k) c0 c2).fifo := by
  rw [← T.port]
  rcases T.arb with h | ⟨-, -, h⟩
  · rw [h]
  · rw [h]; rfl

/-- The demultiplexer takes no flit for a channel whose response is ready (R341, R347). -/
theorem ChanTick.dmx_idle (hh : HandshakeOk s) (hc : s.chans[k]? = some c0) (hr : c0.rspReady = true) : c5 = c4 := by
  rcases T.dmx with h | ⟨f, i, n, m, kind, e, c1', -, -, -, ⟨-, hready, -⟩ | ⟨hbusy, hk, -⟩, -⟩
  · exact h
  · rw [hr] at hready
    cases hready
  · have hno := (hh.chan k c0 hc).issuedAlone (hh.issued hc hbusy hk)
    rw [hr] at hno
    cases hno

end

/-! ### The request a port goes on holding (R384 P1; log 21) -/

/-- A port with a request held drives it, with its burst count. -/
theorem State.port_of_held {s : State} {k : Nat} {n : BitVec 32} (h : s.held.getD k none = some n) :
    (s.port k).req = true ∧ (s.port k).burstCount = n := by
  simp only [State.port, h, and_self]

theorem heldRequests_getD {s : State} {k : Nat} {c : Channel} (hc : s.chans[k]? = some c) (hq : (s.port k).req = true)
    (ha : portAck c = false) : (heldRequests s).getD k none = some (s.port k).burstCount := by
  simp [heldRequests, List.getD_eq_getElem?_getD, List.getElem?_mapIdx, hc, hq, ha]

/-- What the ports hold after a tick is settled at its start. -/
theorem step_held {s t : State} (h : step s = .next t) : t.held = heldRequests s := by
  obtain ⟨s1, s2, s3, sa, s4, P⟩ := step_parts h
  rw [P.fin, endTick_held]

/-! ### One channel in one tick -/

/-- Settles O30: the arm of IDLE, on a channel whose own fields the other agents leave. -/
theorem idleTick : Obligations.IdleTick := by
  intro s t k c c' T hidle
  obtain ⟨c1, c2, c3, c4, c5, X⟩ := T.chanTick
  have K := tickKeeps_of_tick X
  rw [X.fsm, chanStep_idle hidle]
  refine ⟨fun hr hq => ?_, fun hno => ?_⟩
  · rw [idleArm_taken hr hq]
    exact ⟨rfl, truncCount_toNat _ _⟩
  · rw [idleArm_rested hno]
    exact ⟨K.state.trans hidle, K.remaining⟩

theorem portAck_iff {c : Channel} : portAck c = true ↔ c.state = .ack := decide_eq_true_iff

/-- ACK always leads on, so port_ack lasts one tick. -/
theorem ackArm_leaves (c0 c : Channel) : portAck (ackArm c0 c) = false := by
  unfold ackArm portAck
  dsimp only
  split <;> rfl

/-- Settles O31: the arm of ACK, and a request that a port drives and that is not acknowledged is held. -/
theorem ackTick : Obligations.AckTick := by
  intro s t k c c' T
  obtain ⟨c1, c2, c3, c4, c5, X⟩ := T.chanTick
  have K := tickKeeps_of_tick X
  have harm : c.state = .ack → c' = ackArm c c5 := fun h => X.fsm.trans (chanStep_ack h)
  refine ⟨fun hack => ?_, portAck_iff, fun hack => ?_, fun hq hno => ?_⟩
  · rw [harm hack]
    refine ⟨fun hm => ?_, fun hm => ?_, fun hv => ?_⟩
    · rcases hm with hm | hm <;> simp [ackArm, hm, Mode.isBulk]
    · simp [ackArm, hm, Mode.isBulk]
    · exact K.valid.elim (·.trans hv) id
  · rw [harm (portAck_iff.1 hack)]
    exact ackArm_leaves c c5
  · have hheld : t.held.getD k none = some (s.port k).burstCount := step_held T.step ▸ heldRequests_getD T.before hq hno
    exact State.port_of_held hheld

/-- Settles O32: the waiting channel's state machine writes nothing, and the other agents leave its working fields. -/
theorem waitingTick : Obligations.WaitingTick := by
  intro s t k c c' T hbus hready hwait
  obtain ⟨c1, c2, c3, c4, c5, X⟩ := T.chanTick
  have K := tickKeeps_of_tick X
  obtain ⟨ty, hty⟩ := isBus_posted (d := s.params.dir k) hbus
  obtain rfl : c' = c5 := by rw [X.fsm, chanStep_bus hty, busArm_waiting hready hwait]
  exact ⟨K.state, K.reqType, K.remaining, K.ticket, K.sqOcc, K.sqRd, K.sqWr, K.sqChunk, K.sqMoved, K.regs⟩

/-- Settles O33: with nothing under way the gate alone decides, and what is posted is the request of the state. -/
theorem postTick : Obligations.PostTick := by
  intro s t k c c' T hh hbus hquiet hbulk hdata data gate
  obtain ⟨c1, c2, c3, c4, c5, X⟩ := T.chanTick
  have B := T.beforeFsm hh X
  obtain ⟨hv, hi, hr⟩ := B.quiet hquiet
  obtain ⟨ty, hty⟩ := isBus_posted (d := s.params.dir k) hbus
  have harm : c' = if postGate s.params (s.params.dir k) c then post ty c5 else c5 := by
    rw [X.fsm, chanStep_bus hty, busArm_quiet hquiet (prePost_none hbulk hdata)]
  have hkeep : c'.state = c5.state ∧ c'.reqIssued = c5.reqIssued ∧ c'.rspReady = c5.rspReady := by
    rw [harm]
    split <;> exact ⟨rfl, rfl, rfl⟩
  obtain ⟨hstate, hissued, hready⟩ := hkeep
  refine ⟨hstate.trans B.state, hissued.trans hi, hready.trans hr, fun hgate hfits => ?_, fun hgate => ?_⟩
  · have hopen : postGate s.params (s.params.dir k) c = true := postGate_iff.2 fun hd =>
      ⟨fun hdir => by have := (hgate hd).1 hdir; omega, (hgate hd).2⟩
    have htype : ∀ {r}, postedRequest (s.params.dir k) c.state = some r → c'.reqType = r := fun h => by
      rw [harm, if_pos hopen]
      exact Option.some.inj (hty.symm.trans h)
    exact ⟨by rw [harm, if_pos hopen]; rfl,
      fun h => htype (h ▸ rfl), fun h => htype (h ▸ rfl), fun h => htype (h ▸ rfl), fun h => htype (h ▸ rfl),
      fun hd hdir => htype (postedRequest_fromMemory hdir hd), fun hd hdir => htype (postedRequest_toMemory hdir hd),
      fun h => htype (h ▸ rfl), fun h => htype (h ▸ rfl)⟩
  · have hclosed : ¬postGate s.params (s.params.dir k) c = true := fun hopen => hgate fun hd =>
      ⟨fun hdir => by have := (postGate_iff.1 hopen hd).1 hdir; omega, (postGate_iff.1 hopen hd).2⟩
    rw [harm, if_neg hclosed]
    exact hv

/-- Settles O40: an error is consumed before anything else, which writes the state and the ready flag; the demultiplexer has no flit for the channel, so its
FIFO is as the generator and the port leave it. -/
theorem errorEntryTick : Obligations.ErrorEntryTick := by
  intro s t k c c' T hh hbus hready herr
  obtain ⟨c1, c2, c3, c4, c5, X⟩ := T.chanTick
  have K := tickKeeps_of_tick X
  obtain ⟨hv, hi⟩ := (T.beforeFsm hh X).ready (hh.chan k c T.before) hready
  have he : c' = takeError (errState c.state) { c5 with rspReady := false } := by
    rw [X.consume_eq hbus hready (descriptorFault_of_error herr), consume_error herr]
  have hfifo : c'.fifo = (portStep s.params (s.params.dir k) (s.port k) c c2).fifo := by
    rw [he, ← X.fifo_after_port, ← X.dmx_idle hh T.before hready]
    rfl
  obtain ⟨hpops, hstays⟩ := X.fifo_before_port
  have hempty : c.fifo = [] → c2.fifo = [] := fun hnil => by
    by_cases hw : TakesWord s k c
    · rw [hpops hw, hnil]; rfl
    · rw [hstays hw, hnil]
  have hstate : c'.state = errState c.state := by rw [he, takeError_state]
  refine ⟨?_, ?_, ?_, ?_⟩
  · rintro (h | h | h | h) <;> rw [hstate, h] <;> rfl
  · rintro (h | h) <;> rw [hstate, h] <;> rfl
  · rintro (h | h) <;> rw [hstate, h] <;> rfl
  · subst he
    refine ⟨⟨hv, hi, rfl⟩, K.remaining, K.ticket, K.sqOcc, K.sqRd, K.sqWr, K.sqChunk, K.sqMoved, K.regs,
      c2.fifo, hpops, hstays, fun hdir => ?_, fun hdir => ?_⟩
    · rw [hfifo, hdir, portStep_fromMemory_fifo hempty]
    · rw [hfifo, hdir, portStep_toMemory_fifo]

/-- Settles O41: a terminal state's only move is the return once RUNNING is clear. -/
theorem terminalTick : Obligations.TerminalTick := by
  intro s t k c c' T hterm
  obtain ⟨c1, c2, c3, c4, c5, X⟩ := T.chanTick
  have K := tickKeeps_of_tick X
  rw [X.terminal_eq hterm]
  refine ⟨fun hr => ?_, fun hr => ?_⟩
  · simp only [leaveTerminal, hr, if_true]
    exact ⟨K.state, K.remaining, fun hv => K.valid.elim (·.trans hv) id⟩
  · simp [leaveTerminal, hr]

end Sys2Proof.Machine
end

section
/-!
SUPPORT. Where a burst of a bulk copy stands: its address without the cut to the address space (R135), the whole burst inside the buffer (R243), and what the consume of
BULK_DATA_MOVE leaves (R242); and, from these and the machine invariant, the two statements about bulk copy.
-/
namespace Sys2Proof.Machine

/-- The parameters of a run are those of its first state (R10). -/
theorem Reaches.params {s t : State} (h : Reaches s t) : t.params = s.params :=
  reaches_keeps (P := fun u => u.params = s.params) (fun _ _ hstep he => (step_frame hstep).params.trans he) h rfl

/-- A start without a defect has its buffer inside the address space (R180). -/
theorem buffer_fits_of_started {p : Params} {r : ChanRegs} (h : startDefect p r = false) :
    r.bufferAddr.toNat + r.size.toNat ≤ 2 ^ p.paddrWidth :=
  not_lt.1 fun hlt => Bool.eq_false_iff.1 h ((startDefect_iff p r).2 (.inr (.inl hlt)))

/-- The address of a data burst in the bulk modes (R308, R309). -/
theorem reqAddr_bulk {p : Params} {c : Channel} {t : ReqType} (hb : c.regs.mode.isBulk = true) (ht : t = .dataRead ∨ t = .dataWrite) :
    reqAddr p c t = addAddr p c.regs.bufferAddr c.offset.toNat := by
  rcases ht with rfl | rfl <;> exact if_pos hb

/-! ### A running bulk channel (R243) -/

section
variable {p : Params} {c : Channel} (h : RunOk p c) (hr : c.regs.running = true)
include h hr

/-- A whole burst from the offset on ends inside SIZE: both are burst-aligned. -/
theorem RunOk.burst_in_size (hregs : RegsOk p c.regs) (hb : c.regs.mode.isBulk = true) (hs : c.state ≠ .success) :
    c.offset.toNat + p.burstBytes ≤ c.regs.size.toNat :=
  burst_step (h.offsetAligned hr hb) hregs.sizeAligned (h.offsetLt hr hb hs)

/-- Below SIZE the sum of BUFFER_ADDR and offset does not wrap (R95, R180). -/
theorem RunOk.bulk_addr_toNat (hp : p.Wf) (hb : c.regs.mode.isBulk = true) (hs : c.state ≠ .success) {t : ReqType}
    (ht : t = .dataRead ∨ t = .dataWrite) : (reqAddr p c t).toNat = c.regs.bufferAddr.toNat + c.offset.toNat := by
  obtain ⟨-, -, -, hwidth, -⟩ := hp
  have hfits := buffer_fits_of_started (h.started hr)
  have hoff := h.offsetLt hr hb hs
  rw [reqAddr_bulk hb ht, addAddr_toNat p hwidth]
  exact Nat.mod_eq_of_lt (by omega)

end

/-- Settles O58: the machine invariant holds of every state of the run; in it the offset is burst-aligned and below SIZE, and the region of a started channel does not
wrap, so the burst lies where the sum of BUFFER_ADDR and offset puts it. -/
theorem bulkOffsetInvariant : Obligations.BulkOffsetInvariant := by
  intro p m e t hp hm hin hreach hn c hc hr hmode
  have hok := hreach.machineOk (machineOk_reset e hp hm hin)
  obtain rfl : t.params = p := hreach.params
  have h : RunOk t.params c := hok.run hn c hc
  have hb : c.regs.mode.isBulk = true := isBulk_iff.2 hmode
  refine ⟨fun hs => ⟨h.offsetAligned hr hb, h.offsetLt hr hb hs⟩, h.offsetEq hr, fun hmove ht => ?_⟩
  have hs : c.state ≠ .success := by simp [hmove]
  have hend := h.burst_in_size hr (hok.regs c hc) hb hs
  rw [h.bulk_addr_toNat hr hp hb hs ht]
  omega

/-! ### The consume of BULK_DATA_MOVE (R242) -/

/-- A stopped channel is at rest, so one that moves a burst is running (R215). -/
theorem RunOk.running_of_bulkDataMove {p : Params} {c : Channel} (h : RunOk p c) (hmove : c.state = .bulkDataMove) : c.regs.running = true := by
  by_contra hr
  rcases h.parked (Bool.eq_false_iff.2 hr) with hq | hq | hq | hq | hq <;> simp [hmove] at hq

/-- A response without an error is consumed by the rule of BULK_DATA_MOVE (R207, R242). -/
theorem consume_bulk {p : Params} {d : Direction} {c0 c : Channel} (hmove : c0.state = .bulkDataMove) (herr : c0.rspErr = false) :
    consume p d c0 c = consumeBulk p c0 { c with rspReady := false } := by
  simp [consume, consumeOk, hmove, herr]

/-- Settles O35: the channel runs and its offset is below SIZE, so a burst more does not wrap; a burst is under way, so one is left to count; the state then
follows from the two sums. -/
theorem bulkTick : Obligations.BulkTick := by
  intro s t k c c' T hsafe _ hmove ⟨hready, herr⟩
  obtain ⟨hok, hn⟩ := hsafe
  obtain ⟨c1, c2, c3, c4, c5, X⟩ := T.chanTick
  have hmem : c ∈ s.chans := List.mem_of_getElem? T.before
  have h : RunOk s.params c := hok.run hn c hmem
  have hr := h.running_of_bulkDataMove hmove
  have hend : c.offset.toNat + s.params.burstBytes ≤ c.regs.size.toNat :=
    h.burst_in_size hr (hok.regs c hmem) (h.bulk hr (.inl hmove)) (by simp [hmove])
  have hc' : c' = consumeBulk s.params c { c5 with rspReady := false } := by
    rw [X.consume_eq (by rw [hmove]; rfl) hready (by simp [descriptorFault, hmove]), consume_bulk hmove herr]
  have hoffset : c'.offset.toNat = c.offset.toNat + s.params.burstBytes := by
    rw [hc', consumeBulk_offset hr, BitVec.toNat_ofNat]
    exact Nat.mod_eq_of_lt (hend.trans_lt c.regs.size.isLt)
  have hleft : c.remaining ≠ 0 := h.burstsLeft hmove (by simp [Channel.engaged, hready])
  have hremaining : c'.remaining.toNat + 1 = c.remaining.toNat := by
    have hpred : c'.remaining.toNat = c.remaining.toNat - 1 := by
      rw [hc']
      exact truncCount_pred _ _ hleft (hok.shape.counts c hmem).1
    have hpos : c.remaining.toNat ≠ 0 := fun h0 => hleft (BitVec.eq_of_toNat_eq h0)
    omega
  have hstate : c'.state = if c'.offset = c.regs.size then .success else if c'.remaining = 0 then .idle else .bulkDataMove := by
    simp only [← BitVec.toNat_inj (x := c'.offset), hoffset]
    rw [hc']
    rfl
  refine ⟨hoffset, hremaining, by rw [hc']; rfl, fun he => ?_, fun he h0 => ?_, fun he h0 => ?_⟩
  · rw [hstate, if_pos he]
  · rw [hstate, if_neg he, if_pos h0]
  · rw [hstate, if_neg he, if_neg h0]

end Sys2Proof.Machine
end

section
/-!
SUPPORT. The shared-queue protocol: what a consume without an error leaves of a channel (R207), the pre-post checks (R240, R271), the capacity and the mirrors as numbers
(R269, R272), and where a burst of the circular buffer stands (R273); and, from these and the machine invariant, the statements about the shared queue.
-/
namespace Sys2Proof.Machine

/-! ### The capacity and the mirrors (R36, R90, R269) -/

/-- A burst is a whole number of words (R10). -/
theorem four_mul_burstWords {p : Params} (hp : p.Wf) : 4 * p.burstWords = p.burstBytes := by
  obtain ⟨-, -, -, -, hwhole, -⟩ := hp
  exact Nat.mul_div_cancel' (Nat.dvd_of_mod_eq_zero hwhole)

/-- CAP_W is a whole number of bursts, SIZE being burst-aligned (R178, R273). -/
theorem RegsOk.cap_aligned {p : Params} {r : ChanRegs} (h : RegsOk p r) (hp : p.Wf) : r.size.toNat / 4 % p.burstWords = 0 := by
  have hsize : 4 * p.burstWords ∣ r.size.toNat := four_mul_burstWords hp ▸ Nat.dvd_of_mod_eq_zero h.sizeAligned
  exact Nat.mod_eq_zero_of_dvd (Nat.dvd_div_of_mul_dvd hsize)

/-- The mirrors pass check_descriptor, as numbers: the descriptor is read back from the response words of a channel that holds them there. -/
theorem QueueOk.mirrors_in_range {p : Params} {d : Direction} {c : Channel} (h : QueueOk p d c) (hq : c.state = .dataMove ∨ c.state = .statusUpdate) :
    c.sqOcc.toNat ≤ c.regs.size.toNat / 4 ∧ c.sqRd.toNat < c.regs.size.toNat / 4 ∧ c.sqWr.toNat < c.regs.size.toNat / 4 ∧
      c.sqRd.toNat % p.burstWords = 0 ∧ c.sqWr.toNat % p.burstWords = 0 :=
  (descriptorOk_iff p { c with rspData0 := c.sqOcc, rspData1 := c.sqRd, rspData2 := c.sqWr }).1 (h.mirrors hq)

/-! ### Where a burst of the circular buffer stands (R273) -/

/-- A stopped channel is at rest, so one in a bus state is running (R215). -/
theorem RunOk.running_of_isBus {p : Params} {c : Channel} (h : RunOk p c) (hbus : c.state.isBus = true) : c.regs.running = true := by
  by_contra hr
  rcases h.parked (Bool.eq_false_iff.2 hr) with hq | hq | hq | hq | hq <;> simp [hq, FsmState.isBus, FsmState.isProtocol] at hbus

/-- The address of a data burst of a shared queue, by the index of its direction (R308, R309). -/
theorem reqAddr_queue {p : Params} {c : Channel} {t : ReqType} (hm : c.regs.mode = .sharedQueue) (ht : t = .dataRead ∨ t = .dataWrite) :
    ∃ i, (i = c.sqRd ∨ i = c.sqWr) ∧ reqAddr p c t = addAddr p c.regs.bufferAddr (4 * i.toNat) := by
  rcases ht with rfl | rfl
  · exact ⟨c.sqRd, .inl rfl, by simp [reqAddr, dataAddr, hm, Mode.isBulk]⟩
  · exact ⟨c.sqWr, .inr rfl, by simp [reqAddr, dataAddr, hm, Mode.isBulk]⟩

/-- A burst from an index that leaves it room below CAP_W lies inside the buffer of a started channel, whose region does not wrap (R180, R273). -/
theorem burst_in_buffer {p : Params} {r : ChanRegs} {i : Nat} (hp : p.Wf) (hstart : startDefect p r = false)
    (hi : i + p.burstWords ≤ r.size.toNat / 4) :
    r.bufferAddr.toNat ≤ (addAddr p r.bufferAddr (4 * i)).toNat ∧
      (addAddr p r.bufferAddr (4 * i)).toNat + p.burstBytes ≤ r.bufferAddr.toNat + r.size.toNat := by
  have hburst := four_mul_burstWords hp
  obtain ⟨-, -, -, hwidth, -, hpos, -⟩ := hp
  have hfits := buffer_fits_of_started hstart
  rw [addAddr_toNat p hwidth, Nat.mod_eq_of_lt (by omega)]
  omega

/-- Settles O60: the machine invariant holds of every state of the run; in it the indices and CAP_W are burst-aligned, so a burst from an index below CAP_W ends at CAP_W
at the latest, and a started channel's region does not wrap. -/
theorem queueBurstInside : Obligations.QueueBurstInside := by
  intro p m e t hp hm hin hreach hn k c hc hq cap
  have hok := hreach.machineOk (machineOk_reset e hp hm hin)
  obtain rfl : t.params = p := hreach.params
  have hmem : c ∈ t.chans := List.mem_of_getElem? hc
  have h : RunOk t.params c := hok.run hn c hmem
  have hcap : cap % t.params.burstWords = 0 := (hok.regs c hmem).cap_aligned hp
  obtain ⟨hocc, hrd, hwr, hrd0, hwr0⟩ := (hok.queue hn k c hc).mirrors_in_range hq
  have hrdEnd : c.sqRd.toNat + t.params.burstWords ≤ cap := burst_step hrd0 hcap hrd
  have hwrEnd : c.sqWr.toNat + t.params.burstWords ≤ cap := burst_step hwr0 hcap hwr
  refine ⟨hcap, hocc, hrd0, hwr0, hrdEnd, hwrEnd, fun hmove ht => ?_⟩
  have hr := h.running_of_isBus (by rw [hmove]; rfl)
  have hmode := h.protocol hr (by rw [hmove]; rfl)
  obtain ⟨i, hi, haddr⟩ := reqAddr_queue (p := t.params) hmode ht
  rw [haddr]
  refine burst_in_buffer hp (h.started hr) ?_
  rcases hi with rfl | rfl
  · exact hrdEnd
  · exact hwrEnd

/-! ### The pre-post checks (R240, R271) -/

/-- Only the two data states have a pre-post check, and both post. -/
theorem prePost_isBus {c : Channel} {q : FsmState} (h : prePost c = some q) : c.state.isBus = true := by
  cases hq : c.state <;> simp [prePost, hq, FsmState.isBus, FsmState.isProtocol] at h ⊢

theorem prePost_bulkDataMove {c : Channel} (h : c.state = .bulkDataMove) (h0 : c.remaining = 0) : prePost c = some .idle := by
  simp [prePost, h, h0]

theorem prePost_dataMove {c : Channel} (h : c.state = .dataMove) (h0 : c.sqChunk = 0) :
    prePost c = some (if c.sqMoved = 0 then .lockRelease else .statusUpdate) := by
  simp only [prePost, h, h0, if_true]
  split <;> rfl

/-- A pre-post check that moves a quiet channel writes the state alone. -/
theorem Tick.prePost_moves {s t : State} {k : Nat} {c c' : Channel} (T : Tick s t k c c') (hh : HandshakeOk s) (hquiet : c.quiet) {q : FsmState}
    (hq : prePost c = some q) : c'.state = q ∧ c'.quiet := by
  obtain ⟨c1, c2, c3, c4, c5, X⟩ := T.chanTick
  obtain ⟨ty, hty⟩ := isBus_posted (d := s.params.dir k) (prePost_isBus hq)
  have h5 : c5.quiet := (T.beforeFsm hh X).quiet hquiet
  obtain ⟨hv, hi, hr⟩ := hquiet
  have hc' : c' = { c5 with state := q } := by
    rw [X.fsm, chanStep_bus hty]
    simp [busArm, hv, hi, hr, hq]
  rw [hc']
  exact ⟨rfl, h5⟩

/-- Settles O34: the checks of the two data states, each a move of a quiet channel. -/
theorem prePostTick : Obligations.PrePostTick := by
  intro s t k c c' T hh hquiet
  refine ⟨fun hstate hleft => T.prePost_moves hh hquiet (prePost_bulkDataMove hstate hleft), fun hstate hchunk => ?_⟩
  obtain ⟨hto, hquiet'⟩ := T.prePost_moves hh hquiet (prePost_dataMove hstate hchunk)
  exact ⟨hquiet', fun h0 => hto.trans (if_pos h0), fun hne => hto.trans (if_neg hne)⟩

/-! ### The consume of a response without an error (R207) -/

section
variable {p : Params} {d : Direction} {c0 c : Channel}

theorem consumeOk_ticketRead (h : c0.state = .ticketRead) : consumeOk p d c0 c = consumeTicketRead c0 c := by
  simp [consumeOk, h]

theorem consumeOk_ticketCas (h : c0.state = .ticketCas) : consumeOk p d c0 c = consumeTicketCas c0 c := by
  simp [consumeOk, h]

theorem consumeOk_lockRead (h : c0.state = .lockRead) : consumeOk p d c0 c = consumeLockRead c0 c := by
  simp [consumeOk, h]

theorem consumeOk_statusRead (h : c0.state = .statusRead) : consumeOk p d c0 c = consumeStatusRead p d c0 c := by
  simp [consumeOk, h]

theorem consumeOk_dataMove (h : c0.state = .dataMove) : consumeOk p d c0 c = consumeDataMove p d c0 c := by
  simp [consumeOk, h]

theorem consumeOk_statusUpdate (h : c0.state = .statusUpdate) : consumeOk p d c0 c = consumeStatusUpdate c := by
  simp [consumeOk, h]

theorem consumeOk_lockRelease (h : c0.state = .lockRelease) : consumeOk p d c0 c = consumeLockRelease c0 c := by
  simp [consumeOk, h]

end

/-- A descriptor is consumed in STATUS_READ only (R269). -/
theorem descriptorFault_of_ne {p : Params} {c : Channel} (h : c.state ≠ .statusRead) : descriptorFault p c = false := by
  simp [descriptorFault, h]

/-- A response without an error is consumed by the rule of the state, which leaves the channel quiet. -/
theorem Tick.consumed {s t : State} {k : Nat} {c c' : Channel} (T : Tick s t k c c') (hh : HandshakeOk s) (ha : c.answered)
    (hbus : c.state.isBus = true) (hd : descriptorFault s.params c = false) :
    c'.quiet ∧ ∃ c5, BeforeFsm s k c c5 ∧ c' = consumeOk s.params (s.params.dir k) c { c5 with rspReady := false } := by
  obtain ⟨c1, c2, c3, c4, c5, X⟩ := T.chanTick
  obtain ⟨hready, herr⟩ := ha
  have B := T.beforeFsm hh X
  obtain ⟨hv, hi⟩ := B.ready (hh.chan k c T.before) hready
  have hc' := X.consume_eq hbus hready hd
  obtain ⟨-, -, hvalid, hissued, -, hready'⟩ := consume_frame s.params (s.params.dir k) c c5
  refine ⟨?_, c5, B, by simp [hc', consume, herr]⟩
  rw [hc']
  exact ⟨hvalid.trans hv, hissued.trans hi, hready'⟩

/-- The consume of a state other than STATUS_READ, which no descriptor can bar. -/
theorem Tick.consumed_of_ne {s t : State} {k : Nat} {c c' : Channel} (T : Tick s t k c c') (hh : HandshakeOk s) (ha : c.answered) {q : FsmState}
    (hq : c.state = q) (hbus : q.isBus = true) (hne : q ≠ .statusRead) :
    c'.quiet ∧ ∃ c5, BeforeFsm s k c c5 ∧ c' = consumeOk s.params (s.params.dir k) c { c5 with rspReady := false } :=
  T.consumed hh ha (hq ▸ hbus) (descriptorFault_of_ne (hq ▸ hne))

/-- Settles O36: the consume rule of each of the five states. -/
theorem lockStepTicks : Obligations.LockStepTicks := by
  intro s t k c c' T hh ha
  refine ⟨fun hq => ?_, fun hq => ?_, fun hq => ?_, fun hq => ?_, fun hq => ?_⟩
  · obtain ⟨hquiet, c5, -, hc'⟩ := T.consumed_of_ne hh ha hq rfl nofun
    rw [consumeOk_ticketRead hq] at hc'
    subst hc'
    exact ⟨rfl, rfl, hquiet⟩
  · obtain ⟨hquiet, c5, B, hc'⟩ := T.consumed_of_ne hh ha hq rfl nofun
    rw [consumeOk_ticketCas hq] at hc'
    subst hc'
    exact ⟨B.ticket, hquiet, fun h0 => if_pos h0, fun hne => if_neg hne⟩
  · obtain ⟨hquiet, c5, B, hc'⟩ := T.consumed_of_ne hh ha hq rfl nofun
    rw [consumeOk_lockRead hq] at hc'
    subst hc'
    exact ⟨B.ticket, hquiet, fun h0 => if_pos h0, fun hne => if_neg hne⟩
  · obtain ⟨hquiet, c5, -, hc'⟩ := T.consumed_of_ne hh ha hq rfl nofun
    rw [consumeOk_statusUpdate hq] at hc'
    subst hc'
    exact ⟨rfl, hquiet⟩
  · obtain ⟨hquiet, c5, -, hc'⟩ := T.consumed_of_ne hh ha hq rfl nofun
    rw [consumeOk_lockRelease hq] at hc'
    subst hc'
    exact ⟨hquiet, fun h0 => if_pos h0, fun hne => if_neg hne⟩

/-! ### The consume of STATUS_READ (R268 to R270) -/

/-- A lock hold moves at most the bursts of the group, so the chunk keeps inside its field (R270). -/
theorem chunkOf_lt (p : Params) (d : Direction) (c : Channel) (occ : Word) : chunkOf p d c occ < 2 ^ 32 :=
  (min_le_left _ _).trans_lt c.remaining.isLt

/-- chunk(occ) as the least of three (R270). -/
theorem chunkOf_eq (p : Params) (d : Direction) (c : Channel) (occ : Word) :
    chunkOf p d c occ = min c.remaining.toNat
      (min (if d = .fromMemory then occ.toNat / p.burstWords else (c.regs.size.toNat / 4 - occ.toNat) / p.burstWords)
        (if p.granularity = .perBurst then 1 else c.remaining.toNat)) := by
  cases d <;> cases hg : p.granularity <;> simp [chunkOf, capWords, hg]

/-- Settles O37: a descriptor that is not refused is consumed, and the chunk is not cut by its field. -/
theorem statusReadTick : Obligations.StatusReadTick := by
  intro s t k c c' T hh hq ha hgood cap avail limit
  have hd : descriptorFault s.params c = false := Bool.eq_false_iff.2 fun hfault => hgood ((descriptorFault_iff _ _).1 hfault).2.2
  obtain ⟨hquiet, c5, B, hc'⟩ := T.consumed hh ha (by rw [hq]; rfl) hd
  rw [consumeOk_statusRead hq] at hc'
  subst hc'
  have hchunk : (BitVec.ofNat 32 (chunkOf s.params (s.params.dir k) c c.rspData0)).toNat = chunkOf s.params (s.params.dir k) c c.rspData0 := by
    rw [BitVec.toNat_ofNat]
    exact Nat.mod_eq_of_lt (chunkOf_lt _ _ _ _)
  exact ⟨rfl, rfl, rfl, hchunk.trans (chunkOf_eq _ _ _ _), rfl, rfl, hquiet, B.remaining⟩

/-- A tick in which a channel consumes a descriptor that is refused records DESC_INCONSISTENT (R269). -/
theorem step_records_descInconsistent {s t : State} (h : step s = .next t) (hcause : FaultCause s .descInconsistent) :
    .descInconsistent ∈ t.faults := by
  obtain ⟨s1, s2, s3, sa, s4, P⟩ := step_parts h
  rw [P.fin, endTick_faults, fsmPhase_faults]
  exact .inr ⟨rfl, hcause⟩

/-- A machine with DESC_INCONSISTENT recorded is stuck (R440; log 4). -/
theorem no_step_of_descInconsistent {s t : State} (h : .descInconsistent ∈ s.faults) : step s ≠ .next t := by
  obtain ⟨f, -, -, hstep⟩ := step_of_stuck fun hn : NotStuck s => nomatch hn _ h
  rw [hstep]
  nofun

/-- Settles O38: the channel's descriptor is the cause of the fault, whose record stops the run; a tick with idle interfaces has nothing else to fail. -/
theorem badDescriptorFaults : Obligations.BadDescriptorFaults := by
  intro s k c hc hq ha hbad
  refine ⟨fun t h => ?_, fun hn hb hw hcfg => ⟨_, step_idle hn hb hw hcfg⟩⟩
  have hrecorded := step_records_descInconsistent h ⟨c, List.mem_of_getElem? hc, hq, ha, hbad⟩
  exact ⟨hrecorded, fun _ => no_step_of_descInconsistent hrecorded⟩

/-! ### The consume of DATA_MOVE (R272) -/

section
variable {p : Params} {c0 c : Channel}

/-- The occupancy of a consumer falls by a burst that is there. -/
theorem consumeDataMove_occ_fromMemory (h : p.burstWords ≤ c0.sqOcc.toNat) :
    (consumeDataMove p .fromMemory c0 c).sqOcc.toNat + p.burstWords = c0.sqOcc.toNat := by
  have hocc := c0.sqOcc.isLt
  show (c0.sqOcc - BitVec.ofNat 32 p.burstWords).toNat + p.burstWords = c0.sqOcc.toNat
  rw [BitVec.toNat_sub, BitVec.toNat_ofNat]
  omega

/-- The occupancy of a producer rises by a burst for which there is room. -/
theorem consumeDataMove_occ_toMemory (h : c0.sqOcc.toNat + p.burstWords ≤ capWords c0) :
    (consumeDataMove p .toMemory c0 c).sqOcc.toNat = c0.sqOcc.toNat + p.burstWords := by
  have hcap : capWords c0 < 2 ^ 32 := (Nat.div_le_self _ _).trans_lt c0.regs.size.isLt
  show (c0.sqOcc + BitVec.ofNat 32 p.burstWords).toNat = _
  rw [BitVec.toNat_add, BitVec.toNat_ofNat]
  omega

end

/-- A count that is not 0 falls by one (R12). -/
theorem truncCount_pred_add_one {p : Params} {n : BitVec 32} (h : n.toNat ≠ 0) (hn : n.toNat < 2 ^ p.bcBits) :
    (truncCount p (n - 1)).toNat + 1 = n.toNat := by
  rw [truncCount_pred p n (fun he => h (by rw [he]; rfl)) hn]
  omega

/-- Settles O39: a burst is under way, so the chunk is not done, and with it neither the group, nor the data present or the space free; the counts and the occupancy then move
without a wrap, and the capacity is not 0. -/
theorem dataMoveTick : Obligations.DataMoveTick := by
  intro s t k c c' T hsafe _ hq ha
  obtain ⟨hok, hn⟩ := hsafe
  have hp := hok.shape.params
  have Q : QueueOk s.params (s.params.dir k) c := hok.queue hn k c T.before
  obtain ⟨hrem, hchk, -⟩ := hok.shape.counts c (List.mem_of_getElem? T.before)
  obtain ⟨hquiet, c5, B, hc'⟩ := T.consumed_of_ne hok.handshake ha hq rfl nofun
  rw [consumeOk_dataMove hq] at hc'
  subst hc'
  have hleft : c.sqChunk ≠ 0 := Q.chunkLeft hq (by simp [Channel.engaged, ha.1])
  have hchunk : c.sqChunk.toNat ≠ 0 := fun h0 => hleft (BitVec.eq_of_toNat_eq h0)
  have hburst : s.params.burstWords ≤ c.sqChunk.toNat * s.params.burstWords := Nat.le_mul_of_pos_left _ (Nat.pos_of_ne_zero hchunk)
  have hle := Q.chunkLe hq
  have hmoved := Q.movedFits hq
  obtain ⟨-, hrd, -⟩ := Q.mirrors_in_range (.inl hq)
  have hcap : capWords c ≠ 0 := Nat.ne_zero_of_lt hrd
  refine ⟨rfl, hquiet, truncCount_pred_add_one hchunk hchk, truncCount_succ _ hp _ (by omega), truncCount_pred_add_one (by omega) hrem,
    fun hdir => ?_, fun hdir => ?_⟩
  · have hdata := Q.chunkData hq hdir
    rw [hdir]
    exact ⟨nextIndex_toNat _ _ _ hcap, B.sqWr, consumeDataMove_occ_fromMemory (by omega)⟩
  · have hspace := Q.chunkSpace hq hdir
    rw [hdir]
    exact ⟨nextIndex_toNat _ _ _ hcap, B.sqRd, consumeDataMove_occ_toMemory (by omega)⟩

end Sys2Proof.Machine
end

section
/-!
SUPPORT. The command generator's arbiter: the order in which it scans the channels (R301), what a tick does to a channel with a request posted, and how far the
scan still is from it, which each selection shortens; and, from these, the two statements about the arbiter.
-/
namespace Sys2Proof.Machine

/-! ### The scan (R301) -/

/-- How many channels the scan looks at before channel k, when it starts just past the channel last. -/
def scanWait (n last k : Nat) : Nat := if last < k then k - last - 1 else k + n - last - 1

/-- The i-th channel of the scan, without a modulus. -/
theorem scan_channel {n last i : Nat} (hl : last < n) (hi : i < n) :
    (last + (i + 1)) % n = if last + (i + 1) < n then last + (i + 1) else last + (i + 1) - n := by
  split
  · exact Nat.mod_eq_of_lt ‹_›
  · rw [Nat.mod_eq_sub_mod (by omega)]
    exact Nat.mod_eq_of_lt (by omega)

/-- Every channel is in the scan, at its own distance. -/
theorem scan_scanWait {n last k : Nat} (hl : last < n) (hk : k < n) :
    scanWait n last k < n ∧ (last + (scanWait n last k + 1)) % n = k := by
  have hlt : scanWait n last k < n := by unfold scanWait; split <;> omega
  refine ⟨hlt, ?_⟩
  rw [scan_channel hl hlt]
  unfold scanWait
  split <;> split <;> omega

/-- A scan that starts just past a channel it would have looked at before k is nearer to k. -/
theorem scanWait_lt {n last i k : Nat} (hl : last < n) (hk : k < n) (hi : i < scanWait n last k) :
    scanWait n ((last + (i + 1)) % n) k < scanWait n last k := by
  rw [scan_channel hl (hi.trans (scan_scanWait hl hk).1)]
  unfold scanWait at hi ⊢
  split at hi <;> split <;> split <;> omega

/-- The channel selected is the first of the scan with a request posted. -/
theorem selected_iff {s : State} {j : Nat} : selected s = some j ↔ ∃ i < s.params.nChannels, (s.gen.rrLast + (i + 1)) % s.params.nChannels = j ∧
    hasPosted s j = true ∧ ∀ i' < i, hasPosted s ((s.gen.rrLast + (i' + 1)) % s.params.nChannels) = false := by
  unfold selected scanOrder
  rw [List.find?_map, Option.map_eq_some_iff]
  constructor
  · rintro ⟨i, hfind, rfl⟩
    obtain ⟨hposted, hmem, hfirst⟩ := List.find?_range_eq_some.1 hfind
    exact ⟨i, List.mem_range.1 hmem, rfl, hposted, fun i' hi' => by simpa using hfirst i' hi'⟩
  · rintro ⟨i, hi, rfl, hposted, hfirst⟩
    exact ⟨i, List.find?_range_eq_some.2 ⟨hposted, List.mem_range.2 hi, fun i' hi' => by simpa using hfirst i' hi'⟩, rfl⟩

theorem selected_none {s : State} (h : ∀ c ∈ s.chans, c.reqValid = false) : selected s = none := by
  by_contra hne
  obtain ⟨j, hj⟩ := Option.ne_none_iff_exists'.1 hne
  obtain ⟨c, hc, hv⟩ := selected_posted hj
  rw [h c (List.mem_of_getElem? hc)] at hv
  cases hv

/-! ### A posted request through a tick (R301, R206) -/

/-- A response flit taken for a channel posts nothing and takes no posted request back (R344 to R346). -/
theorem DmxMove.reqValid {s : State} {k : Nat} {c0 c c' : Channel} (h : DmxMove s k c0 c c') : c'.reqValid = c.reqValid := by
  obtain ⟨f, i, n, m, kind, e, c1, -, -, -, -, hp, rfl⟩ := h
  obtain ⟨_, _, _, _, rfl, -⟩ := processFlit_some hp
  split <;> rfl

/-- A channel's own state machine leaves a request it has posted (R206, R210). -/
theorem chanStep_reqValid {p : Params} {d : Direction} {x : PortIn} {c0 c : Channel} (hv : c0.reqValid = true) :
    (chanStep p d x c0 c).reqValid = c.reqValid := by
  have m := chanStep_move p d x c0 c
  generalize chanStep p d x c0 c = c' at m
  cases m with
  | consumed t =>
    obtain ⟨-, -, hvalid, -⟩ := consume_frame p d c0 c
    exact hvalid
  | posted t _ _ hnot => rw [hv] at hnot; cases hnot
  | parked => unfold leaveTerminal; split <;> rfl
  | _ => rfl

/-- Before the arbiter no agent posts a request or takes one back (R301, R373). -/
theorem ChanTick.valid_before_arb {s t : State} {k : Nat} {c0 c1 c2 c3 c4 c5 c' : Channel} (T : ChanTick s t k c0 c1 c2 c3 c4 c5 c') :
    c3.reqValid = c0.reqValid := by
  have h1 : c1.reqValid = c0.reqValid := by rcases T.send with rfl | ⟨-, rfl⟩ <;> rfl
  have h2 : c2.reqValid = c1.reqValid := by cases T.access <;> rfl
  obtain ⟨q, hport, -⟩ := portStep_eq s.params (s.params.dir k) (s.port k) c0 c2
  rw [T.port, hport]
  exact h2.trans h1

/-- A posted request stays posted until the arbiter selects its channel, and no longer (R301). -/
theorem Tick.posted_iff {s t : State} {k : Nat} {c c' : Channel} (T : Tick s t k c c') (hv : c.reqValid = true) :
    c'.reqValid = true ↔ ¬Selects s k := by
  obtain ⟨c1, c2, c3, c4, c5, X⟩ := T.chanTick
  have h5 : c5.reqValid = c4.reqValid := by
    rcases X.dmx with rfl | hmove
    · rfl
    · exact hmove.reqValid
  rw [X.fsm, chanStep_reqValid hv, h5]
  rcases X.arb with rfl | ⟨hb, hsel, rfl⟩
  · have h3 : c4.reqValid = true := X.valid_before_arb.trans hv
    refine ⟨fun _ ⟨hb, hsel⟩ => ?_, fun _ => h3⟩
    rw [X.arbSelects hb hsel] at h3
    cases h3
  · exact ⟨nofun, fun hn => absurd ⟨hb, hsel⟩ hn⟩

/-- With the handshake kept, a posted request is outstanding after the tick exactly when the arbiter has selected its channel (R301). -/
theorem Tick.issued_iff {s t : State} {k : Nat} {c c' : Channel} (T : Tick s t k c c') (hh : HandshakeOk s) (hv : c.reqValid = true) :
    c'.reqIssued = true ↔ Selects s k := by
  obtain ⟨c1, c2, c3, c4, c5, X⟩ := T.chanTick
  obtain ⟨hnot, -⟩ := (hh.chan k c T.before).validAlone hv
  have hvalid : c5.reqValid = true ↔ ¬Selects s k := by rw [← T.posted_iff hv, X.fsm, chanStep_reqValid hv]
  rw [X.fsm, chanStep_reqIssued]
  rcases (T.beforeFsm hh X).flags with ⟨hv5, hi5, -⟩ | ⟨-, hv5, hi5, -⟩ | ⟨hi, -⟩
  · simpa [hv5, hv, hi5, hnot] using hvalid
  · simpa [hv5, hi5] using hvalid
  · rw [hnot] at hi
    cases hi

/-- A tick that selects channel j leaves the generator about to send its request (R301). -/
theorem step_gen_of_selects {s t : State} {j : Nat} (h : step s = .next t) (hsel : Selects s j) : t.gen = ⟨true, j, 0, j⟩ := by
  obtain ⟨hb, hj⟩ := hsel
  rcases step_select h hb with ⟨hnone, -⟩ | ⟨k, hk, hgen⟩
  · rw [hnone] at hj
    cases hj
  · obtain rfl : k = j := Option.some.inj (hk.symm.trans hj)
    exact hgen

theorem step_rrLast_of_selects {s t : State} {j : Nat} (h : step s = .next t) (hsel : Selects s j) : t.gen.rrLast = j := by
  rw [step_gen_of_selects h hsel]

/-- A tick takes each channel from one record to one record. -/
theorem exists_tick {s t : State} {k : Nat} {c : Channel} (h : step s = .next t) (hc : s.chans[k]? = some c) : ∃ c', Tick s t k c c' := by
  obtain ⟨_, _, _, _, _, c', hc', -⟩ := step_chan h k c hc
  exact ⟨c', h, hc, hc'⟩

/-! ### How far the scan is from a posted channel (R313, R402) -/

/-- How many channels the arbiter looks at before channel k when it next selects. -/
def waitOf (s : State) (k : Nat) : Nat := scanWait s.params.nChannels s.gen.rrLast k


/-- A selection of another channel brings the scan nearer to a posted channel. -/
theorem waitOf_lt_of_selects {s t : State} {j k : Nat} (hs : ShapeOk s) (h : step s = .next t) (hk : hasPosted s k = true) (hnot : ¬Selects s k)
    (hsel : Selects s j) : waitOf t k < waitOf s k := by
  obtain ⟨c, hc, -⟩ := hasPosted_iff.1 hk
  have hkn := hs.lt_nChannels hc
  obtain ⟨i, -, hj, -, hfirst⟩ := selected_iff.1 hsel.2
  obtain ⟨-, hat⟩ := scan_scanWait hs.rrLast hkn
  have hle : i ≤ waitOf s k := by
    by_contra hlt
    have hfree := hfirst _ (not_le.1 hlt)
    rw [waitOf, hat, hk] at hfree
    cases hfree
  have hne : i ≠ waitOf s k := by
    rintro rfl
    exact hnot ((hj.symm.trans hat) ▸ hsel)
  rw [waitOf, (step_frame h).params, step_rrLast_of_selects h hsel, ← hj]
  exact scanWait_lt hs.rrLast hkn (lt_of_le_of_ne hle hne)

/-- No tick that leaves a channel posted takes the scan farther from it. -/
theorem waitOf_le {s t : State} {k : Nat} (hs : ShapeOk s) (h : step s = .next t) (hk : hasPosted s k = true) (hnot : ¬Selects s k) :
    waitOf t k ≤ waitOf s k := by
  rcases (step_frame h).rrLast with he | hsel
  · rw [waitOf, (step_frame h).params, he]
    exact le_rfl
  · exact (waitOf_lt_of_selects hs h hk hnot hsel).le

/-! ### A run in which channel k stays posted -/

/-- The channel last served once tick i of the run is made. -/
def servedAfter (f : Nat → State) (i : Nat) : Nat := (f (i + 1)).gen.rrLast

theorem servedAfter_of_selects {f : Nat → State} {i j : Nat} (h : step (f i) = .next (f (i + 1))) (hsel : Selects (f i) j) : servedAfter f i = j :=
  step_rrLast_of_selects h hsel

section
variable {f : Nat → State} {m k : Nat} (hs : ShapeOk (f 0)) (hrun : ∀ i < m, step (f i) = .next (f (i + 1)))
  (hposted : ∀ i ≤ m, ∃ c, (f i).chans[k]? = some c ∧ c.reqValid = true)

include hrun in
/-- What holds at first and every step keeps holds along the run. -/
theorem run_keeps {P : State → Prop} (hstep : ∀ s t, step s = .next t → P s → P t) (h0 : P (f 0)) : ∀ i ≤ m, P (f i)
  | 0, _ => h0
  | i + 1, hi => hstep _ _ (hrun i hi) (run_keeps hstep h0 i (Nat.le_of_succ_le hi))

include hrun hposted in
/-- A channel that stays posted is not selected. -/
theorem run_not_selects {i : Nat} (hi : i < m) : ¬Selects (f i) k := by
  obtain ⟨c, hc, hv⟩ := hposted i hi.le
  obtain ⟨c', hc', hv'⟩ := hposted (i + 1) hi
  exact (Tick.posted_iff ⟨hrun i hi, hc, hc'⟩ hv).1 hv'

include hs hrun hposted in
theorem run_waitOf_le {i₁ i₂ : Nat} (hle : i₁ ≤ i₂) (hi : i₂ ≤ m) : waitOf (f i₂) k ≤ waitOf (f i₁) k := by
  induction i₂, hle using Nat.le_induction with
  | base => exact le_rfl
  | succ i _ ih =>
    have hshape : ShapeOk (f i) := run_keeps hrun (fun _ _ => shapeOk_step) hs i (Nat.le_of_succ_le hi)
    exact (waitOf_le hshape (hrun i hi) (hasPosted_iff.2 (hposted i (Nat.le_of_succ_le hi))) (run_not_selects hrun hposted hi)).trans
      (ih (Nat.le_of_succ_le hi))

include hs hrun hposted in
/-- A channel selected twice would leave the scan as far from k as before, but every selection brings it nearer. -/
theorem run_selects_once {i₁ i₂ j : Nat} (hlt : i₁ < i₂) (hi : i₂ < m) (h₁ : Selects (f i₁) j) (h₂ : Selects (f i₂) j) : False := by
  have hshape : ShapeOk (f i₂) := run_keeps hrun (fun _ _ => shapeOk_step) hs i₂ hi.le
  have hnearer := waitOf_lt_of_selects hshape (hrun i₂ hi) (hasPosted_iff.2 (hposted i₂ hi.le)) (run_not_selects hrun hposted hi) h₂
  have hnofarther : waitOf (f i₂) k ≤ waitOf (f (i₁ + 1)) k := run_waitOf_le hs hrun hposted hlt hi.le
  have hparams : ∀ i ≤ m, (f i).params = (f 0).params :=
    run_keeps hrun (P := fun s => s.params = (f 0).params) (fun _ _ h he => (step_frame h).params.trans he) rfl
  have hsame : waitOf (f (i₁ + 1)) k = waitOf (f (i₂ + 1)) k := by
    rw [waitOf, waitOf, step_rrLast_of_selects (hrun i₁ (hlt.trans hi)) h₁, step_rrLast_of_selects (hrun i₂ hi) h₂,
      hparams _ (hlt.trans hi), hparams _ hi]
  omega

end

/-- Settles O44: channel k is never selected while it stays posted, and between two selections of one channel the scan would have come no nearer to k; so the channels
selected and k are different channels that were posted. -/
theorem roundRobinIsFair : Obligations.RoundRobinIsFair := by
  intro f m k hs hrun hposted
  have honce : ∀ i₁ i₂ j, i₁ < m → i₂ < m → Selects (f i₁) j → Selects (f i₂) j → i₁ = i₂ := by
    intro i₁ i₂ j hi₁ hi₂ h₁ h₂
    rcases lt_trichotomy i₁ i₂ with hlt | he | hlt
    · exact (run_selects_once hs hrun hposted hlt hi₂ h₁ h₂).elim
    · exact he
    · exact (run_selects_once hs hrun hposted hlt hi₁ h₂ h₁).elim
  refine ⟨fun i hi => run_not_selects hrun hposted hi, honce, fun ticks active hnodup hticks hactive => ?_⟩
  have hserved : ∀ i ∈ ticks, i < m ∧ Selects (f i) (servedAfter f i) := by
    intro i hmem
    obtain ⟨hi, j, hj⟩ := hticks i hmem
    exact ⟨hi, servedAfter_of_selects (hrun i hi) hj ▸ hj⟩
  have hdistinct : (k :: ticks.map (servedAfter f)).Nodup := by
    refine List.nodup_cons.2 ⟨fun hmem => ?_, List.Nodup.map_on (fun i₁ h₁ i₂ h₂ he => ?_) hnodup⟩
    · obtain ⟨i, hi, he⟩ := List.mem_map.1 hmem
      exact run_not_selects hrun hposted (hserved i hi).1 (he ▸ (hserved i hi).2)
    · exact honce i₁ i₂ _ (hserved i₁ h₁).1 (hserved i₂ h₂).1 (hserved i₁ h₁).2 (he ▸ (hserved i₂ h₂).2)
  have hsubset : (k :: ticks.map (servedAfter f)) ⊆ active := by
    refine List.cons_subset.2 ⟨hactive k ⟨0, Nat.zero_le m, hposted 0 (Nat.zero_le m)⟩, fun j hmem => ?_⟩
    obtain ⟨i, hi, rfl⟩ := List.mem_map.1 hmem
    exact hactive _ ⟨i, (hserved i hi).1.le, selected_posted (hserved i hi).2.2⟩
  simpa using (hdistinct.subperm hsubset).length_le

/-- Settles O43: the first posted channel of the scan is selected, and what a tick does to a posted request follows from whether its channel is. -/
theorem roundRobinSelects : Obligations.RoundRobinSelects := by
  intro s t hs hh h hb at'
  refine ⟨by simp [cmdOffer, hb], fun j c hj hjn hc hv hfirst => ?_, fun k c hnot hc hv => ?_, fun hfree => ?_⟩
  · obtain ⟨i, rfl⟩ : ∃ i, j = i + 1 := ⟨j - 1, by omega⟩
    have hsel : selected s = some (at' (i + 1)) := by
      refine selected_iff.2 ⟨i, hjn, rfl, hasPosted_iff.2 ⟨c, hc, hv⟩, fun i' hi' => Bool.eq_false_iff.2 fun hposted => ?_⟩
      obtain ⟨d, hd, hdv⟩ := hasPosted_iff.1 hposted
      rw [hfirst (i' + 1) d (by omega) (by omega) hd] at hdv
      cases hdv
    obtain ⟨c', T⟩ := exists_tick h hc
    have hselects : Selects s (at' (i + 1)) := ⟨hb, hsel⟩
    exact ⟨step_gen_of_selects h hselects, c', T.after, Bool.eq_false_iff.2 fun hstays => (T.posted_iff hv).1 hstays hselects,
      (T.issued_iff hh hv).2 hselects⟩
  · obtain ⟨c', T⟩ := exists_tick h hc
    exact ⟨c', T.after, (T.posted_iff hv).2 fun hsel => hnot hsel.2, Bool.eq_false_iff.2 fun hi => hnot ((T.issued_iff hh hv).1 hi).2⟩
  · rcases step_select h hb with ⟨-, hgen⟩ | ⟨k, hk, -⟩
    · exact hgen
    · rw [selected_none hfree] at hk
      cases hk

end Sys2Proof.Machine
end

section
/-!
SUPPORT. The requests of the command generator (R302 to R312): what the sending step does with a flit the bus takes, the fields of the flits as numbers, and, from these, the
statements about the eight requests.
-/
namespace Sys2Proof.Machine

/-! ### The sending step (R302) -/

/-- The eight requests are the sending step of their type (R130). -/
theorem exec_of_requestOf {i : Instr} {ty : ReqType} {k : Nat} (hi : requestOf i = some (ty, k)) (s : State) : exec i s = sendFlit ty k s := by
  cases i <;> cases hi <;> rfl

theorem genAfterFlit_sentOf (n : Nat) (g : Gen) : SentOf n g (genAfterFlit n g) := by
  unfold genAfterFlit
  split
  · exact ⟨rfl, rfl, fun _ => ⟨rfl, rfl⟩, fun hne => absurd ‹_› hne⟩
  · exact ⟨rfl, rfl, fun he => absurd he ‹_›, fun _ => ⟨rfl, rfl⟩⟩

section
variable {s : State} {k : Nat} {c : Channel} (hc : s.chans[k]? = some c)
include hc

/-- A flit that is offered from an empty FIFO is GEN_FIFO_EMPTY (R312). -/
theorem sendFlit_empty (he : c.fifo = []) : sendFlit .dataWrite k s = .next (s.recordFault .genFifoEmpty) := by
  rw [sendFlit, withChan_eq hc, if_pos ⟨rfl, he⟩]

/-- A flit with its word there, taken by the bus. -/
theorem sendFlit_taken {t : ReqType} (hfull : ¬(t = .dataWrite ∧ c.fifo = [])) (hb : BusTakes s) :
    sendFlit t k s = .next { s with
      gen := genAfterFlit (reqFlits s.params t) s.gen
      bus := { s.bus with wire := some (reqFlit s.params t k c s.gen.idx.toNat) }
      chans := if t = .dataWrite then s.chans.set k { c with fifo := c.fifo.tail } else s.chans } := by
  rw [sendFlit, withChan_eq hc, if_neg hfull, if_pos (cmdReady_iff.2 hb)]

/-- A request other than DATA_WRITE, its flit taken: the flit stands on the wire and the generator moves on. -/
theorem sendFlit_puts {t : ReqType} {cmd addr plen wdata : Nat} {eop : Bool} (ht : t ≠ .dataWrite) (hb : BusTakes s)
    (hflit : FlitIs (reqFlit s.params t k c s.gen.idx.toNat) cmd addr plen wdata eop k) :
    ∃ f g, FlitIs f cmd addr plen wdata eop k ∧ SentOf (reqFlits s.params t) s.gen g ∧
      sendFlit t k s = .next { s with gen := g, bus := { s.bus with wire := some f } } :=
  ⟨_, _, hflit, genAfterFlit_sentOf _ _, by rw [sendFlit_taken hc (fun h => ht h.1) hb, if_neg ht]⟩

end

/-! ### The fields of the flits (R130, R135) -/

/-- The address of the current field of the lock record (R306, R311). -/
theorem lockField_toNat {p : Params} (hp : p.Wf) (a : Addr) : (addAddr p a 4).toNat = (a.toNat + 4) % 2 ^ p.paddrWidth := by
  obtain ⟨-, -, -, hwidth, -⟩ := hp
  exact addAddr_toNat p hwidth a 4

/-- The address of a data burst, by the mode (R308, R309). -/
theorem dataAddr_toNat {p : Params} (hp : p.Wf) (c : Channel) (idx : Word) :
    (dataAddr p c idx).toNat = (c.regs.bufferAddr.toNat + if c.regs.mode = .sharedQueue then 4 * idx.toNat else c.offset.toNat) % 2 ^ p.paddrWidth := by
  obtain ⟨-, -, -, hwidth, -⟩ := hp
  cases hm : c.regs.mode <;> simp [dataAddr, hm, Mode.isBulk, addAddr_toNat p hwidth]

/-- The length of a burst fits in the 16 bits of cmd_plen (R10, R130). -/
theorem burstBytes_toNat {p : Params} (hp : p.Wf) : (BitVec.ofNat 16 p.burstBytes).toNat = p.burstBytes := by
  obtain ⟨-, -, -, -, -, -, hburst, -⟩ := hp
  rw [BitVec.toNat_ofNat]
  exact Nat.mod_eq_of_lt (by omega)

/-! ### The statements -/

/-- Settles O13: the one flit of each READ is the last one. -/
theorem readRequests : Obligations.ReadRequests := by
  intro s k c hp hc hb h0
  have hlast : decide (s.gen.idx.toNat + 1 = 1) = true := by rw [h0]; rfl
  exact ⟨sendFlit_puts (t := .ticketRead) hc nofun hb ⟨rfl, rfl, rfl, rfl, hlast, rfl⟩,
    sendFlit_puts (t := .lockRead) hc nofun hb ⟨rfl, lockField_toNat hp _, rfl, rfl, hlast, rfl⟩,
    sendFlit_puts (t := .statusRead) hc nofun hb ⟨rfl, rfl, rfl, rfl, hlast, rfl⟩,
    sendFlit_puts (t := .dataRead) hc nofun hb ⟨rfl, dataAddr_toNat hp c c.sqRd, burstBytes_toNat hp, rfl, hlast, rfl⟩⟩

/-- Settles O14: the word and the end of each flit follow from its index. -/
theorem multiFlitRequests : Obligations.MultiFlitRequests := by
  intro s k c hp hc hb
  refine ⟨fun h => ?_, fun h => ?_, fun h => ?_, fun h => ?_, fun h => ?_, fun h => ?_⟩
  · exact sendFlit_puts (t := .ticketCas) hc nofun hb (h ▸ ⟨rfl, rfl, rfl, rfl, rfl, rfl⟩)
  · exact sendFlit_puts (t := .ticketCas) hc nofun hb (h ▸ ⟨rfl, rfl, rfl, BitVec.toNat_add c.ticket 1, rfl, rfl⟩)
  · exact sendFlit_puts (t := .statusWrite) hc nofun hb (h ▸ ⟨rfl, rfl, rfl, rfl, rfl, rfl⟩)
  · exact sendFlit_puts (t := .statusWrite) hc nofun hb (h ▸ ⟨rfl, rfl, rfl, rfl, rfl, rfl⟩)
  · exact sendFlit_puts (t := .statusWrite) hc nofun hb (h ▸ ⟨rfl, rfl, rfl, rfl, rfl, rfl⟩)
  · exact sendFlit_puts (t := .lockRelease) hc nofun hb (h ▸ ⟨rfl, lockField_toNat hp _, rfl, BitVec.toNat_add c.ticket 1, rfl, rfl⟩)

/-- Settles O15: a flit with its word there carries it and pops it, and one without is the fault. -/
theorem dataWriteRequest : Obligations.DataWriteRequest := by
  intro s k c hp hc
  refine ⟨fun x rest hfifo hb _ => ?_, fun he => ⟨_, sendFlit_empty hc he, (State.mem_recordFault _ _ _).2 (.inr rfl)⟩⟩
  have hhead : reqWdata c s.gen.idx.toNat .dataWrite = x := by rw [reqWdata, hfifo]; rfl
  refine ⟨reqFlit s.params .dataWrite k c s.gen.idx.toNat, genAfterFlit s.params.burstWords s.gen,
    ⟨rfl, dataAddr_toNat hp c c.sqWr, burstBytes_toNat hp, congrArg BitVec.toNat hhead, rfl, rfl⟩, genAfterFlit_sentOf _ _, ?_⟩
  refine (sendFlit_taken hc (by simp [hfifo]) hb).trans ?_
  rw [if_pos rfl, hfifo]
  rfl

/-- Settles O16: the three things the sending step can do with a flit. -/
theorem requestFrame : Obligations.RequestFrame := by
  intro i ty k s t hi h
  rw [exec_of_requestOf hi] at h
  have hkept : ∀ (j : Nat) (d : Channel), s.chans[j]? = some d →
      ∃ q, s.chans[j]? = some { d with fifo := q } ∧ (j ≠ k → q = d.fifo) ∧ (q = d.fifo ∨ q = d.fifo.tail) :=
    fun _ d hd => ⟨d.fifo, hd, fun _ => rfl, .inl rfl⟩
  obtain ⟨c, hc, ⟨hty, he, rfl⟩ | ⟨-, -, rfl⟩ | ⟨-, hr, rfl⟩⟩ := sendFlit_next h
  case inl =>
    exact ⟨fun _ => rfl, rfl, (FaultsGrow.record s _).kept, fun hno => hno.elim (absurd hty) fun hfull => absurd he (hfull c hc),
      rfl, rfl, fun _ => rfl, fun _ => rfl, hkept⟩
  case inr.inl =>
    exact ⟨fun _ => rfl, rfl, fun _ => id, fun _ => rfl, rfl, rfl, fun _ => rfl, fun _ => rfl, hkept⟩
  case inr.inr =>
    obtain ⟨hch, hlast, -⟩ := genAfterFlit_sentOf (reqFlits s.params ty) s.gen
    refine ⟨fun hnot => by simp [hr] at hnot, rfl, fun _ => id, fun _ => rfl, hch, hlast, fun hty => if_neg hty, fun _ => rfl, fun j d hd => ?_⟩
    dsimp only
    split
    · by_cases hjk : j = k
      · subst hjk
        obtain rfl : c = d := Option.some.inj (hc.symm.trans hd)
        have hlt := (List.getElem?_eq_some_iff.1 hc).1
        exact ⟨c.fifo.tail, by simp [hlt], fun hne => absurd rfl hne, .inr rfl⟩
      · rw [List.getElem?_set_ne (Ne.symm hjk)]
        exact hkept j d hd
    · exact hkept j d hd

end Sys2Proof.Machine
end

section
/-!
SUPPORT. What a tick leaves when the demultiplexer takes a flit of a channel's response group (R341 to R347), said once for first and later flits; and, from it, the two
statements about the flits of a group.
-/
namespace Sys2Proof.Machine

/-! ### The shape of a group (R342) -/

theorem rspShape_lockStep {p : Params} {d : Direction} {q : FsmState}
    (h : q = .ticketRead ∨ q = .ticketCas ∨ q = .lockRead ∨ q = .lockRelease) : rspShape p d q = some (1, .word) := by
  rcases h with rfl | rfl | rfl | rfl <;> rfl

theorem rspShape_descriptor {p : Params} {d : Direction} {q : FsmState} (h : q = .statusRead ∨ q = .statusUpdate) :
    rspShape p d q = some (3, .word) := by
  rcases h with rfl | rfl <;> rfl

theorem rspShape_data {p : Params} {d : Direction} {q : FsmState} (h : q = .bulkDataMove ∨ q = .dataMove) :
    ∃ kind, rspShape p d q = some (p.burstWords, kind) := by
  rcases h with rfl | rfl <;> exact ⟨_, rfl⟩

/-- A burst's words fit the count of a group (R10, R56). -/
theorem burstWords_toNat {p : Params} (hp : p.Wf) : (BitVec.ofNat 16 p.burstWords).toNat = p.burstWords := by
  obtain ⟨-, -, -, -, -, -, hle, -⟩ := hp
  rw [BitVec.toNat_ofNat, Nat.mod_eq_of_lt]
  unfold Params.burstWords
  omega

/-! ### The demultiplexer's step (R340, R341, R347) -/

/-- The demultiplexer's record of a group of n flits from its first flit on; a group of one opens none (R341). -/
def openGroup (s : State) (k n : Nat) (e : Bool) : Dmx := if n = 1 then s.dmx else ⟨true, k, 1, BitVec.ofNat 16 n, e⟩

section
variable {s : State} {k n : Nat} {c : Channel} {f : RspFlit} {kind : RspKind} (hf : s.bus.rsp = some f) (hk : f.rtag = k)
  (hc : s.chans[k]? = some c) (hshape : rspShape s.params (s.params.dir k) c.state = some (n, kind))
include hf hk hc hshape

theorem dmxPhase_first (hb : s.dmx.busy = false) (hr : c.rspReady = false) (hi : c.reqIssued = true) (sa : State) :
    dmxPhase s sa = takeRsp k 0 n kind f.rerror (openGroup s k n f.rerror) f sa := by
  subst hk
  simp [dmxPhase, firstFlit, openGroup, hf, hb, hc, hr, hi, hshape]

theorem dmxPhase_later (hb : s.dmx.busy = true) (hch : s.dmx.ch = k) (sa : State) :
    dmxPhase s sa = takeRsp k s.dmx.cnt.toNat s.dmx.need.toNat kind (s.dmx.err || f.rerror) s.dmx f sa := by
  subst hk
  simp [dmxPhase, laterFlit, hf, hb, hch, hc, hshape]

end

/-! ### The flit of a response group that a tick takes (R344 to R347) -/

/-- A tick has taken flit i of a group of n, with word w, for a channel that was c and is now c': e is the group's error bit so far, and d the
demultiplexer's record for the group. -/
structure FlitTaken (t : State) (c c' : Channel) (kind : RspKind) (i n : Nat) (w : Word) (e : Bool) (d : Dmx) : Prop where
  last : i + 1 = n → c'.rspReady = true ∧ c'.rspErr = e ∧ c'.reqIssued = false ∧ t.dmx = { d with busy := false, err := e }
  counted : i + 1 ≠ n → c'.rspReady = false ∧ c'.reqIssued = true ∧ t.dmx = { d with cnt := BitVec.ofNat 16 (i + 1), err := e }
  word : kind = .word → c'.rspData0 = (setRspData c i w).rspData0 ∧ c'.rspData1 = (setRspData c i w).rspData1 ∧
    c'.rspData2 = (setRspData c i w).rspData2

/-- The FIFO of a FROM_MEMORY channel as the port leaves it in a tick has room for a word (R373, R374). -/
def FifoRoom (s : State) (k : Nat) (c : Channel) : Prop :=
  (if (s.port k).rready = true then c.fifo.tail else c.fifo).length < s.params.fifoDepth

section
variable {s t : State} {k : Nat} {c c' : Channel} (T : Tick s t k c c') (hh : HandshakeOk s)
include T hh

/-- A channel with a request outstanding comes to the demultiplexer as it was but for its FIFO, its registers and its offset, and leaves the tick as the
demultiplexer leaves it (R210, R373). -/
theorem Tick.outstanding_dmx (hi : c.reqIssued = true) :
    ∃ sa q r o, sa.chans[k]? = some { c with fifo := q, regs := r, offset := o } ∧ sa.params = s.params ∧ t.dmx = (dmxPhase s sa).dmx ∧
      (dmxPhase s sa).chans[k]? = some c' ∧ (s.params.dir k = .fromMemory → FifoRoom s k c → q.length < s.params.fifoDepth) := by
  obtain ⟨c2, c4, sa, hsend, -, h2, h4, hc4, hp, -, hdmx, -, c5, hc5, hfsm⟩ := T.dmx_step
  obtain ⟨⟨q, r, o, rfl⟩, hv, hr, ty, hty⟩ := outstanding_before_dmx hh T.before hi h2 h4
  rw [chanStep_bus hty, busArm_waiting hr (.inr hi)] at hfsm
  refine ⟨sa, q, r, o, hc4, hp, hdmx, hfsm ▸ hc5, fun hdir hroom => ?_⟩
  have hfifo : c2.fifo = c.fifo := hsend.resolve_right fun hpop => not_genPopped hh T.before hi hdir hpop.1
  have hq : q = _ := fifo_before_dmx hdir hfifo h4
  rw [hq]
  exact hroom

/-- A tick whose demultiplexer takes flit i of a group for a channel with a request outstanding, a data word having room. -/
theorem Tick.flitTaken (hi : c.reqIssued = true) {kind : RspKind} {i n : Nat} {e : Bool} {d : Dmx} {f : RspFlit}
    (htake : ∀ sa, dmxPhase s sa = takeRsp k i n kind e d f sa) (hroom : kind = .dataIn → s.params.dir k = .fromMemory ∧ FifoRoom s k c) :
    FlitTaken t c c' kind i n f.rdata e d := by
  obtain ⟨sa, q, r, o, hc, hp, hdmx, hc', hfits⟩ := T.outstanding_dmx hh hi
  obtain ⟨c1, hproc⟩ := processFlit_ok (p := sa.params) (kind := kind) (i := i) (w := f.rdata) (c := { c with fifo := q, regs := r, offset := o })
    fun hk => hp ▸ hfits (hroom hk).1 (hroom hk).2
  have hlt := (List.getElem?_eq_some_iff.1 hc).1
  rw [htake, takeRsp_ok hc hproc] at hdmx hc'
  obtain rfl : (if i + 1 = n then completeChan e c1 else c1) = c' := by simpa [hlt] using hc'
  have hready := (hh.chan k c T.before).issuedAlone hi
  refine ⟨fun hn => ?_, fun hn => ?_, fun hk => ?_⟩
  · rw [if_pos hn]
    exact ⟨rfl, rfl, rfl, hdmx.trans (if_pos hn)⟩
  · rw [if_neg hn]
    obtain ⟨_, _, _, _, rfl, -⟩ := processFlit_some hproc
    exact ⟨hready, hi, hdmx.trans (if_neg hn)⟩
  · subst hk
    obtain rfl : setRspData _ i f.rdata = c1 := Option.some.inj hproc
    unfold setRspData
    split <;> split <;> exact ⟨rfl, rfl, rfl⟩

end

section
variable {s t : State} {k n : Nat} {c c' : Channel} {f : RspFlit} {kind : RspKind} (T : Tick s t k c c') (hh : HandshakeOk s)
  (hf : s.bus.rsp = some f) (hk : f.rtag = k) (hi : c.reqIssued = true)
  (hshape : rspShape s.params (s.params.dir k) c.state = some (n, kind))
  (hroom : kind = .dataIn → FifoRoom s k c)
include T hh hf hk hi hshape hroom

theorem Tick.flitTaken_first (hb : s.dmx.busy = false) : FlitTaken t c c' kind 0 n f.rdata f.rerror (openGroup s k n f.rerror) :=
  T.flitTaken hh hi (dmxPhase_first hf hk T.before hshape hb ((hh.chan k c T.before).issuedAlone hi) hi) fun hin =>
    ⟨((rspShape_dataIn hshape).1 hin).1, hroom hin⟩

theorem Tick.flitTaken_later (hb : s.dmx.busy = true) (hch : s.dmx.ch = k) :
    FlitTaken t c c' kind s.dmx.cnt.toNat s.dmx.need.toNat f.rdata (s.dmx.err || f.rerror) s.dmx :=
  T.flitTaken hh hi (dmxPhase_later hf hk T.before hshape hb hch) fun hin =>
    ⟨((rspShape_dataIn hshape).1 hin).1, hroom hin⟩

end

/-- A channel with a request outstanding is in a state with a shape (R206, R342). -/
theorem HandshakeOk.shape_of_issued {s : State} (hh : HandshakeOk s) {k : Nat} {c : Channel} (hc : s.chans[k]? = some c) (hi : c.reqIssued = true) :
    ∃ n kind, rspShape s.params (s.params.dir k) c.state = some (n, kind) := by
  have hbus := isBus_of_posted ((hh.chan k c hc).posted (.inr hi))
  obtain ⟨⟨n, kind⟩, hshape⟩ := Option.isSome_iff_exists.1 (rspShape_isBus.trans hbus)
  exact ⟨n, kind, hshape⟩

/-- Settles O45: the state gives the group's shape, and the first flit is the last one of a group of one. -/
theorem firstFlitTaken : Obligations.FirstFlitTaken := by
  intro s t k c c' f T hh hp hb hf hk hi room
  have hr := (hh.chan k c T.before).issuedAlone hi
  refine ⟨?_, fun hq => ?_, fun hq => ?_, fun hq hroom hn => ?_, fun hq hroom hn => ?_⟩
  · obtain ⟨n, kind, hshape⟩ := hh.shape_of_issued T.before hi
    subst hk
    simp [rspAccept, hf, hb, T.before, hr, hi, hshape]
  · have F := T.flitTaken_first hh hf hk hi (rspShape_lockStep hq) nofun hb
    obtain ⟨h0, h1, h2⟩ := F.word rfl
    obtain ⟨hready, herr, hissued, hdmx⟩ := F.last rfl
    exact ⟨hready, herr, h0, h1, h2, hissued, congrArg Dmx.busy hdmx⟩
  · have F := T.flitTaken_first hh hf hk hi (rspShape_descriptor hq) nofun hb
    obtain ⟨h0, -, -⟩ := F.word rfl
    obtain ⟨hready, hissued, hdmx⟩ := F.counted (by omega)
    exact ⟨hdmx, h0, hready, hissued⟩
  · obtain ⟨kind, hshape⟩ := rspShape_data hq
    have hfits : kind = .dataIn → FifoRoom s k c := fun hin => hroom ((rspShape_dataIn hshape).1 hin).1
    obtain ⟨hready, hissued, hdmx⟩ := (T.flitTaken_first hh hf hk hi hshape hfits hb).counted (by omega)
    rw [hdmx, openGroup, if_neg (by omega)]
    exact ⟨rfl, rfl, rfl, burstWords_toNat hp, rfl, hready, hissued⟩
  · obtain ⟨kind, hshape⟩ := rspShape_data hq
    have hfits : kind = .dataIn → FifoRoom s k c := fun hin => hroom ((rspShape_dataIn hshape).1 hin).1
    obtain ⟨hready, herr, hissued, hdmx⟩ := (T.flitTaken_first hh hf hk hi hshape hfits hb).last hn.symm
    exact ⟨hready, herr, hissued, congrArg Dmx.busy hdmx⟩

/-- Settles O46: a later flit is the one the demultiplexer counts to; it is the last when the count is complete. -/
theorem laterFlitContinuesGroup : Obligations.LaterFlitContinuesGroup := by
  intro s t k c c' f T hh hb hch hf hk
  have hi := hh.issued T.before hb hch
  obtain ⟨n, kind, hshape⟩ := hh.shape_of_issued T.before hi
  refine ⟨by simp [rspAccept, hf, hb, hk, hch], fun hroom => ?_, fun hq => ?_⟩
  · have hfits : kind = .dataIn → FifoRoom s k c := fun hin =>
      have ⟨hdir, hdata⟩ := (rspShape_dataIn hshape).1 hin
      hroom hdata hdir
    have F := T.flitTaken_later hh hf hk hi hshape hfits hb hch
    refine ⟨fun hn => ?_, fun hn => ?_⟩
    · obtain ⟨hready, herr, hissued, hdmx⟩ := F.last hn
      exact ⟨hready, herr, hissued, congrArg Dmx.busy hdmx⟩
    · obtain ⟨hready, hissued, hdmx⟩ := F.counted hn
      rw [hdmx]
      exact ⟨hready, hissued, hb, hch, rfl, BitVec.toNat_ofNat _ _, rfl⟩
  · have F := T.flitTaken_later hh hf hk hi (rspShape_descriptor hq) nofun hb hch
    obtain ⟨h0, h1, h2⟩ := F.word rfl
    refine ⟨fun hcnt => ?_, fun hcnt => ?_⟩ <;> rw [hcnt] at h0 h1 h2
    · exact ⟨h1, h0, h2⟩
    · exact ⟨h2, h0, h1⟩

end Sys2Proof.Machine
end

section
/-!
SUPPORT. The demultiplexer and the duties of the bus it can see (R348): a flit that breaks one, and a flit that waits for its channel; and, from these, the statement about
the recording of BUS_PROTOCOL.
-/
namespace Sys2Proof.Machine

/-! ### A broken duty (R341, R342, R347, R348) -/

/-- A flit that breaks a duty is recorded, and nothing else comes of it (log 4). -/
theorem dmxPhase_broken {s : State} (hs : ShapeOk s) (h : FaultCause s .busProtocol) (sa : State) : dmxPhase s sa = sa.recordFault .busProtocol := by
  obtain ⟨f, hf, ⟨hb, hn | ⟨c, hc, hr, hno⟩⟩ | ⟨hb, hch⟩⟩ := h
  · have hc : s.chans[f.rtag]? = none := List.getElem?_eq_none (hs.chans ▸ hn)
    simp [dmxPhase, firstFlit, hf, hb, hc]
  · rcases hno with hi | hbus
    · simp [dmxPhase, firstFlit, hf, hb, hc, hr, hi]
    · have hshape : rspShape s.params (s.params.dir f.rtag) c.state = none := Option.not_isSome_iff_eq_none.1 (by simp [rspShape_isBus, hbus])
      cases hi : c.reqIssued <;> simp [dmxPhase, firstFlit, hf, hb, hc, hr, hi, hshape]
  · simp [dmxPhase, laterFlit, hf, hb, hch]

/-- A tick in which the bus breaks a duty the demultiplexer sees records BUS_PROTOCOL (R348). -/
theorem step_records_busProtocol {s t : State} (h : step s = .next t) (hs : ShapeOk s) (hcause : FaultCause s .busProtocol) :
    .busProtocol ∈ t.faults := by
  obtain ⟨s1, s2, s3, sa, s4, P⟩ := step_parts h
  refine P.faultsEnd.kept _ ?_
  rw [P.dmxEq, dmxPhase_broken hs hcause]
  exact (State.mem_recordFault _ _ _).2 (.inr rfl)

/-! ### A first flit that waits (R341) -/

section
variable {s : State} {f : RspFlit} {c : Channel} (hf : s.bus.rsp = some f) (hb : s.dmx.busy = false) (hc : s.chans[f.rtag]? = some c)
  (hr : c.rspReady = true)
include hf hb hc hr

theorem rspAccept_waiting : rspAccept s = false := by
  simp [rspAccept, hf, hb, hc, hr]

theorem dmxPhase_waiting (sa : State) : dmxPhase s sa = sa := by
  simp [dmxPhase, firstFlit, hf, hb, hc, hr]

end

theorem arbPhase_bus (s0 s : State) : (arbPhase s0 s).bus = s.bus := by
  unfold arbPhase
  split
  · rfl
  · split <;> rfl

theorem fsmPhase_bus (s0 s : State) : (fsmPhase s0 s).bus = s.bus := by
  obtain ⟨cs, fs, h, -⟩ := fsmPhase_frame s0 s
  rw [h]

/-- The bus holds the flit it offers until that flit is taken (R96 B6). -/
theorem endTick_rsp_held {s0 s : State} {f : RspFlit} (h : s.bus.rsp = some f) : (endTick s0 s).bus.rsp = some f := by
  obtain ⟨m, ts, hacts⟩ := busActs_frame s0.input.acts s
  simp [endTick, hacts, busRespond, h]

/-- Settles O47: the first four clauses are the causes of BUS_PROTOCOL, and in the last the demultiplexer leaves the flit. -/
theorem brokenDutiesFault : Obligations.BrokenDutiesFault := by
  intro s f hs hn hgen hw hcfg hf recorded
  have hstep := step_idle hn hgen hw hcfg
  have hrecorded : FaultCause s .busProtocol → recorded := fun hcause => ⟨_, hstep, step_records_busProtocol hstep hs hcause⟩
  refine ⟨fun hb hout => hrecorded ⟨f, hf, .inl ⟨hb, .inl hout⟩⟩, fun hb hne => hrecorded ⟨f, hf, .inr ⟨hb, hne⟩⟩,
    fun c hc hb hr hi => hrecorded ⟨f, hf, .inl ⟨hb, .inr ⟨c, hc, hr, .inl hi⟩⟩⟩,
    fun c hc hb hr _ hbus => hrecorded ⟨f, hf, .inl ⟨hb, .inr ⟨c, hc, hr, .inr hbus⟩⟩⟩, fun c hc hb hr => ?_⟩
  refine ⟨rspAccept_waiting hf hb hc hr, _, hstep, ?_, ?_⟩ <;> rw [agentsPhase, dmxPhase_waiting hf hb hc hr]
  · exact endTick_rsp_held (by rw [fsmPhase_bus, arbPhase_bus]; exact hf)
  · obtain ⟨cs, fs, hfsm, -⟩ := fsmPhase_frame s (arbPhase s (portPhase s (s.reply .idle)))
    rw [endTick_dmx, hfsm]
    exact (arbPhase_step _ _).dmx

end Sys2Proof.Machine
end

section
/-!
SUPPORT. Two ticks that differ in the error bit of the response flit offered: the instructions of the tick do not see the flit (R96, R120, R302), and the demultiplexer lets it
touch the addressed channel only (R344, R346); and, from these, the statement about error isolation.
-/
namespace Sys2Proof.Machine

/-! ### Instructions do not see the response flit -/

/-- s with r in the place of the response flit offered. -/
def State.withRsp (r : Option RspFlit) (s : State) : State := { s with bus := { s.bus with rsp := r } }

section
variable (r : Option RspFlit) (s : State)

@[simp] theorem State.withRsp_params : (s.withRsp r).params = s.params := rfl
@[simp] theorem State.withRsp_chans : (s.withRsp r).chans = s.chans := rfl
@[simp] theorem State.withRsp_scratch : (s.withRsp r).scratch = s.scratch := rfl
@[simp] theorem State.withRsp_gen : (s.withRsp r).gen = s.gen := rfl
@[simp] theorem State.withRsp_dmx : (s.withRsp r).dmx = s.dmx := rfl
@[simp] theorem State.withRsp_rsp : (s.withRsp r).bus.rsp = r := rfl
@[simp] theorem State.withRsp_input : (s.withRsp r).input = s.input := rfl
@[simp] theorem State.withRsp_port (k : Nat) : (s.withRsp r).port k = s.port k := rfl
@[simp] theorem cmdReady_withRsp : cmdReady (s.withRsp r) = cmdReady s := rfl
@[simp] theorem selected_withRsp : selected (s.withRsp r) = selected s := rfl
@[simp] theorem fetchRequest_withRsp : fetchRequest (s.withRsp r) = fetchRequest s := rfl
@[simp] theorem fetchCommand_withRsp : fetchCommand (s.withRsp r) = fetchCommand s := rfl
@[simp] theorem fetchAccess_withRsp : fetchAccess (s.withRsp r) = fetchAccess s := rfl

end

/-- A part of a tick neither reads nor writes the response flit offered. -/
def RspBlind (m : State → Host.Outcome State Fault Refusal) : Prop :=
  ∀ r s, m (s.withRsp r) = andThen (m s) fun t => .next (t.withRsp r)

section
variable (r : Option RspFlit) (s : State) (k : Nat)

theorem withChan_withRsp {f g : Channel → Host.Outcome State Fault Refusal} (h : ∀ c, g c = andThen (f c) fun t => .next (t.withRsp r)) :
    withChan (s.withRsp r) k g = andThen (withChan s k f) fun t => .next (t.withRsp r) := by
  unfold withChan
  rw [State.withRsp_chans]
  cases s.chans[k]? with
  | none => rfl
  | some c => exact h c

theorem readReg_withRsp (f : Channel → Word) : readReg (s.withRsp r) k f = andThen (readReg s k f) fun t => .next (t.withRsp r) :=
  withChan_withRsp r s k fun _ => rfl

theorem writeReadOnly_withRsp : writeReadOnly (s.withRsp r) k = andThen (writeReadOnly s k) fun t => .next (t.withRsp r) :=
  withChan_withRsp r s k fun _ => rfl

theorem writeStopped_withRsp (legal : Bool) (f : ChanRegs → ChanRegs) :
    writeStopped (s.withRsp r) k legal f = andThen (writeStopped s k legal f) fun t => .next (t.withRsp r) := by
  refine withChan_withRsp r s k fun c => ?_
  split
  · rfl
  · split <;> rfl

end

theorem execWrRunning_blind (k : Nat) (v : Word) : RspBlind (execWrRunning k v) := by
  refine fun r s => withChan_withRsp r s k fun c => ?_
  rw [State.withRsp_params, State.withRsp_port]
  dsimp only
  split
  · split <;> rfl
  · split <;> rfl
  · rfl

theorem execRdScratch_blind (i : Nat) : RspBlind (execRdScratch i) := by
  intro r s
  unfold execRdScratch
  rw [State.withRsp_scratch]
  cases s.scratch[i]? <;> rfl

theorem execWrScratch_blind (i : Nat) (v : Word) : RspBlind (execWrScratch i v) := by
  intro r s
  unfold execWrScratch
  rw [State.withRsp_scratch]
  cases s.scratch[i]? <;> rfl

theorem sendFlit_blind (ty : ReqType) (k : Nat) : RspBlind (sendFlit ty k) := by
  refine fun r s => withChan_withRsp r s k fun c => ?_
  rw [cmdReady_withRsp]
  split
  · rfl
  · split <;> rfl

theorem takeCommand_blind (op : BusOp) (a : Addr) (pl : BitVec 16) (w : Word) (e : Bool) (tag : Nat) : RspBlind (takeCommand op a pl w e tag) := by
  intro r s
  cases e <;> rfl

theorem exec_blind (i : Instr) : RspBlind (exec i) := by
  intro r s
  cases i with
  | rdBufferAddrLo k | rdBufferAddrHi k | rdDescAddrLo k | rdDescAddrHi k | rdLockAddrLo k | rdLockAddrHi k | rdDirection k | rdMode k | rdSize k
  | rdRunning k | rdStatus k => exact readReg_withRsp r s k _
  | wrBufferAddrLo k v | wrBufferAddrHi k v | wrDescAddrLo k v | wrDescAddrHi k v | wrLockAddrLo k v | wrLockAddrHi k v | wrMode k v
  | wrSize k v =>
    rw [exec, exec]
    exact writeStopped_withRsp r s k _ _
  | wrDirection k v | wrStatus k v => exact writeReadOnly_withRsp r s k
  | wrRunning k v => exact execWrRunning_blind k v r s
  | rdScratch n => exact execRdScratch_blind n r s
  | wrScratch n v => exact execWrScratch_blind n v r s
  | rdReserved a | wrReserved a v => rfl
  | ticketRead k | ticketCas k | lockRead k | statusRead k | dataRead k | dataWrite k | statusWrite k | lockRelease k => exact sendFlit_blind _ k r s
  | busRead a pl w e tag | busWrite a pl w e tag | busCas a pl w e tag => exact takeCommand_blind _ a pl w e tag r s

theorem runRaw_blind (x : RawInstr) : RspBlind (runRaw x) := by
  intro r s
  unfold runRaw
  rw [State.withRsp_params]
  cases decode s.params x with
  | ok i => exact exec_blind i r s
  | error e => cases e <;> rfl

theorem sendPhase_blind : RspBlind sendPhase := by
  intro r s
  unfold sendPhase
  rw [fetchRequest_withRsp]
  cases fetchRequest s with
  | none => rfl
  | some x => exact runRaw_blind x r s

theorem commandPhase_blind : RspBlind commandPhase := by
  intro r s
  unfold commandPhase
  rw [fetchCommand_withRsp]
  cases fetchCommand s with
  | none => rfl
  | some x => exact runRaw_blind x r { s with bus := { s.bus with wire := none } }

theorem accessPhase_blind : RspBlind accessPhase := by
  intro r s
  unfold accessPhase
  rw [fetchAccess_withRsp]
  cases fetchAccess s with
  | none => rfl
  | some x => exact runRaw_blind x r s

/-- A part that answers does so whatever flit is offered, and leaves that flit offered. -/
theorem RspBlind.next {m : State → Host.Outcome State Fault Refusal} (hm : RspBlind m) {s t : State} (h : m s = .next t) (r : Option RspFlit) :
    m (s.withRsp r) = .next (t.withRsp r) := by
  rw [hm r s, h, andThen_next_eq]

theorem RspBlind.rsp_eq {m : State → Host.Outcome State Fault Refusal} (hm : RspBlind m) {s t : State} (h : m s = .next t) : t.bus.rsp = s.bus.rsp := by
  have hsame : Host.Outcome.next t = .next (t.withRsp s.bus.rsp) := h.symm.trans (hm.next h s.bus.rsp)
  injection hsame with hsame
  rw [hsame]
  rfl

/-- The instructions of a tick leave one state, but for the response flit, whatever flit is offered. -/
theorem step_withRsp {s t t' : State} {r : Option RspFlit} (h : step s = .next t) (h' : step (s.withRsp r) = .next t') :
    ∃ s3, s3.bus.rsp = s.bus.rsp ∧ t = agentsPhase s s3 ∧ t' = agentsPhase (s.withRsp r) (s3.withRsp r) := by
  obtain ⟨hstuck, s1, s2, s3, h1, h2, h3, ht⟩ := step_phases h
  refine ⟨s3, (accessPhase_blind.rsp_eq h3).trans ((commandPhase_blind.rsp_eq h2).trans (sendPhase_blind.rsp_eq h1)), ht, ?_⟩
  have hn : NotStuck (s.withRsp r) := stuckIn_eq_none_iff.1 hstuck
  rw [step_of_notStuck hn, sendPhase_blind.next h1, andThen_next_eq, commandPhase_blind.next h2, andThen_next_eq, accessPhase_blind.next h3,
    andThen_next_eq] at h'
  injection h' with h'
  exact h'.symm

/-! ### The agents and the addressed channel -/

/-- s with channels cs, demultiplexer record d and r in the place of the response flit offered. -/
def State.withTaken (cs : List Channel) (d : Dmx) (r : Option RspFlit) (s : State) : State :=
  { s with chans := cs, dmx := d, bus := { s.bus with rsp := r } }

/-- s' differs from s in channel k, the demultiplexer's record and the response flit offered at most, and a flit is offered in both or in neither. -/
structure SameBut (k : Nat) (s s' : State) : Prop where
  frame : ∃ cs d r, s' = s.withTaken cs d r
  chans : ∀ j ≠ k, s'.chans[j]? = s.chans[j]?
  offered : s'.bus.rsp = none ↔ s.bus.rsp = none

theorem sameBut_withRsp (k : Nat) {s : State} {r : Option RspFlit} (h : r = none ↔ s.bus.rsp = none) : SameBut k s (s.withRsp r) :=
  ⟨⟨s.chans, s.dmx, r, rfl⟩, fun _ _ => rfl, h⟩

theorem SameBut.recordFault {k : Nat} {s s' : State} (h : SameBut k s s') (g : Fault) : SameBut k (s.recordFault g) (s'.recordFault g) := by
  obtain ⟨⟨cs, d, r, rfl⟩, hchans, hoff⟩ := h
  exact ⟨⟨cs, d, r, rfl⟩, hchans, hoff⟩

theorem dmxPhase_some {s0 : State} {f : RspFlit} (hf : s0.bus.rsp = some f) (s : State) :
    dmxPhase s0 s = if s0.dmx.busy then laterFlit f s0 s else firstFlit f s0 s := by
  simp [dmxPhase, hf]

section
variable {f f' : RspFlit} {s : State} {r : Option RspFlit} (htag : f'.rtag = f.rtag) (hword : f'.rdata = f.rdata) (hoff : r = none ↔ s.bus.rsp = none)
include hoff hword

/-- Two flits that differ in the error bit are processed alike: both are taken, or both record the same fault (R344, R345). -/
theorem takeRsp_sameBut {k i n : Nat} {kind : RspKind} {e e' : Bool} {d d' : Dmx} :
    SameBut k (takeRsp k i n kind e d f s) (takeRsp k i n kind e' d' f' (s.withRsp r)) := by
  have hfault := fun g => (sameBut_withRsp k hoff).recordFault g
  unfold takeRsp
  rw [hword, State.withRsp_chans, State.withRsp_params]
  cases s.chans[k]? with
  | none => exact hfault _
  | some c =>
    dsimp only
    cases processFlit s.params kind i f.rdata c with
    | none => exact hfault _
    | some c1 => exact ⟨⟨_, _, none, rfl⟩, fun j hj => by simp [hj.symm], Iff.rfl⟩

include htag

theorem laterFlit_sameBut (s0 : State) : SameBut f.rtag (laterFlit f s0 s) (laterFlit f' s0 (s.withRsp r)) := by
  have hfault := (sameBut_withRsp f.rtag hoff).recordFault .busProtocol
  unfold laterFlit
  rw [htag]
  by_cases hk : f.rtag = s0.dmx.ch
  · rw [if_pos hk, if_pos hk, ← hk]
    cases s0.chans[f.rtag]? with
    | none => exact hfault
    | some c =>
      dsimp only
      cases rspShape s0.params (s0.params.dir f.rtag) c.state with
      | none => exact hfault
      | some shape => exact takeRsp_sameBut hword hoff
  · rw [if_neg hk, if_neg hk]
    exact hfault

theorem firstFlit_sameBut (s0 : State) : SameBut f.rtag (firstFlit f s0 s) (firstFlit f' s0 (s.withRsp r)) := by
  have hsame := sameBut_withRsp f.rtag hoff
  have hfault := hsame.recordFault .busProtocol
  unfold firstFlit
  rw [htag]
  cases s0.chans[f.rtag]? with
  | none => exact hfault
  | some c =>
    dsimp only
    cases c.rspReady with
    | true => exact hsame
    | false =>
      cases c.reqIssued with
      | false => exact hfault
      | true =>
        cases rspShape s0.params (s0.params.dir f.rtag) c.state with
        | none => exact hfault
        | some shape => exact takeRsp_sameBut hword hoff

end

/-- The demultiplexer's step on two flits that differ in the error bit (R340). -/
theorem dmxPhase_sameBut {s0 s : State} {f f' : RspFlit} (htag : f'.rtag = f.rtag) (hword : f'.rdata = f.rdata) (hf : s0.bus.rsp = some f)
    (hs : s.bus.rsp = some f) : SameBut f.rtag (dmxPhase s0 s) (dmxPhase (s0.withRsp (some f')) (s.withRsp (some f'))) := by
  have hoff : some f' = none ↔ s.bus.rsp = none := by simp [hs]
  rw [dmxPhase_some hf, dmxPhase_some (State.withRsp_rsp (some f') s0), State.withRsp_dmx]
  split
  · exact laterFlit_sameBut htag hword hoff s0
  · exact firstFlit_sameBut htag hword hoff s0

/-- The ports and the arbiter see no response flit (R301, R373). -/
theorem arbPhase_withRsp (r : Option RspFlit) (s0 s : State) :
    arbPhase (s0.withRsp r) (portPhase (s0.withRsp r) (s.withRsp r)) = (arbPhase s0 (portPhase s0 s)).withRsp r := by
  unfold arbPhase
  rw [State.withRsp_gen, selected_withRsp]
  split
  · rfl
  · split <;> rfl

/-- chan_step of every channel reads no response flit, and writes its own channel only (R217). -/
theorem fsmPhase_sameBut {k : Nat} {s0 s s' : State} {r : Option RspFlit} (h : SameBut k s s') :
    SameBut k (fsmPhase s0 s) (fsmPhase (s0.withRsp r) s') := by
  obtain ⟨⟨cs, d, q, rfl⟩, hchans, hoff⟩ := h
  have hframe : fsmPhase (s0.withRsp r) (s.withTaken cs d q) = (fsmPhase s0 s).withTaken (fsmPhase s0 (s.withTaken cs d q)).chans d q := by
    unfold fsmPhase
    rw [State.withRsp_chans, State.withRsp_params]
    dsimp only
    split <;> rfl
  refine ⟨⟨_, d, q, hframe⟩, fun j hj => ?_, ?_⟩
  · rw [hframe]
    simp only [fsmPhase, State.withTaken, List.getElem?_mapIdx]
    rw [show cs[j]? = s.chans[j]? from hchans j hj]
  · rw [hframe, fsmPhase_bus]
    exact hoff

/-! ### The end of the tick -/

theorem busAct_withTaken (cs : List Channel) (d : Dmx) (r : Option RspFlit) (a : BusAct) (s : State) :
    busAct a (s.withTaken cs d r) = (busAct a s).withTaken cs d r := by
  cases a with
  | poke addr v => rfl
  | word i j =>
    unfold busAct
    dsimp only [State.withTaken]
    split <;> rfl

/-- The bus's word accesses neither read nor write what the demultiplexer writes (R85, R86). -/
theorem busActs_withTaken (cs : List Channel) (d : Dmx) (r : Option RspFlit) (as : List BusAct) (s : State) :
    busActs as (s.withTaken cs d r) = (busActs as s).withTaken cs d r := by
  induction as generalizing s with
  | nil => rfl
  | cons a as ih => rw [busActs, busActs, busAct_withTaken, ih]

/-- The group a bus begins does not depend on the flit offered, only on whether one is (R96 B6). -/
theorem busRespond_txns (choice : Option Nat) (b : Bus) {r : Option RspFlit} (h : r = none ↔ b.rsp = none) :
    (busRespond choice { b with rsp := r }).txns = (busRespond choice b).txns := by
  obtain ⟨wire, asm, txns, group, r0⟩ := b
  cases r with
  | none =>
    obtain rfl : r0 = none := h.1 rfl
    rfl
  | some f' =>
    cases r0 with
    | none => exact nomatch h.2 rfl
    | some f => rfl

/-- What the states differ in before the end of the tick stays in the addressed channel, the demultiplexer and the flit offered. -/
theorem endTick_sameBut {k : Nat} {s0 s s' : State} {r : Option RspFlit} (h : SameBut k s s') :
    let t := endTick s0 s
    let t' := endTick (s0.withRsp r) s'
    (∀ j, j ≠ k → t'.chans[j]? = t.chans[j]?) ∧ t'.gen = t.gen ∧ t'.mem = t.mem ∧ t'.scratch = t.scratch ∧ t'.faults = t.faults ∧
      t'.cfgOut = t.cfgOut ∧ t'.bus.txns = t.bus.txns := by
  obtain ⟨⟨cs, d, q, rfl⟩, hchans, hoff⟩ := h
  have hacts := busActs_withTaken cs d q s0.input.acts s
  have hrsp : (busActs s0.input.acts s).bus.rsp = s.bus.rsp := by
    obtain ⟨m, ts, he⟩ := busActs_frame s0.input.acts s
    rw [he]
  refine ⟨fun j hj => ?_, ?_, ?_, ?_, ?_, ?_, ?_⟩
  · rw [endTick_chans, endTick_chans]
    exact hchans j hj
  · rw [endTick_gen, endTick_gen]
    rfl
  · rw [endTick_mem, endTick_mem, State.withRsp_input, hacts]
    rfl
  · rw [endTick_scratch, endTick_scratch]
    rfl
  · rw [endTick_faults, endTick_faults]
    rfl
  · rw [endTick_cfgOut, endTick_cfgOut]
    rfl
  · show (busRespond s0.input.respond (busActs s0.input.acts (s.withTaken cs d q)).bus).txns =
      (busRespond s0.input.respond (busActs s0.input.acts s).bus).txns
    rw [hacts]
    exact busRespond_txns _ _ (hrsp.symm ▸ hoff)

/-- Settles O48: up to the demultiplexer the two ticks differ in the flit offered only; from there on in the channel it names, the demultiplexer's record and the flit
offered. -/
theorem errorIsolation : Obligations.ErrorIsolation := by
  intro s t t' f e hf h h'
  obtain ⟨s3, hs3, rfl, rfl⟩ := step_withRsp h h'
  have hrsp : (arbPhase s (portPhase s s3)).bus.rsp = some f := (congrArg Bus.rsp (arbPhase_bus _ _)).trans (hs3.trans hf)
  have hdmx := dmxPhase_sameBut (f := f) (f' := { f with rerror := e }) rfl rfl hf hrsp
  rw [← arbPhase_withRsp] at hdmx
  exact endTick_sameBut (fsmPhase_sameBut hdmx)

end Sys2Proof.Machine
end

section
/-!
SUPPORT. The FIFO of a channel through a whole tick (R372 to R376): a data flit that the demultiplexer accepts is pushed or overflows (R341, R345, R347), and a tick in
which it accepts none leaves the FIFO as the port does; and, from these, the two statements about the FIFOs.
-/
namespace Sys2Proof.Machine

/-! ### The data flit the demultiplexer takes (R341, R345, R347) -/

/-- The demultiplexer takes the flit f for channel k, which is in a data burst. -/
def TakesData (s : State) (k : Nat) (c : Channel) (f : RspFlit) : Prop :=
  s.bus.rsp = some f ∧ f.rtag = k ∧ rspAccept s = true ∧ (c.state = .bulkDataMove ∨ c.state = .dataMove)

/-- An accepted flit is taken as some flit of a group of its channel's kind. -/
theorem dmxPhase_accepted {s : State} {k n : Nat} {c : Channel} {f : RspFlit} {kind : RspKind} (hf : s.bus.rsp = some f) (hk : f.rtag = k)
    (hc : s.chans[k]? = some c) (hshape : rspShape s.params (s.params.dir k) c.state = some (n, kind)) (ha : rspAccept s = true) :
    ∃ i m e d, ∀ sa, dmxPhase s sa = takeRsp k i m kind e d f sa := by
  cases hb : s.dmx.busy with
  | false =>
    obtain ⟨hr, hi⟩ : c.rspReady = false ∧ c.reqIssued = true := by simpa [rspAccept, hf, hb, hk, hc, hshape] using ha
    exact ⟨_, _, _, _, dmxPhase_first hf hk hc hshape hb hr hi⟩
  | true =>
    have hch : k = s.dmx.ch := by simpa [rspAccept, hf, hb, hk] using ha
    exact ⟨_, _, _, _, dmxPhase_later hf hk hc hshape hb hch.symm⟩

/-- The demultiplexer leaves a channel's FIFO alone, but for a data flit that it takes for a FROM_MEMORY channel. -/
theorem DmxMove.fifo {s : State} {k : Nat} {c0 c c' : Channel} (h : DmxMove s k c0 c c') (hc : s.chans[k]? = some c0) :
    c'.fifo = c.fifo ∨ (s.params.dir k = .fromMemory ∧ ∃ f, TakesData s k c0 f) := by
  obtain ⟨f, i, n, m, kind, e, c1, hf, hk, hshape, hwhich, hproc, rfl⟩ := h
  have haccept : rspAccept s = true := by
    rcases hwhich with ⟨hb, hr, hi, -⟩ | ⟨hb, hch, -⟩
    · simp [rspAccept, hf, hb, hk, hc, hr, hi, hshape]
    · simp [rspAccept, hf, hb, hk, hch]
  obtain ⟨d0, d1, d2, q, rfl, hq | ⟨hin, -⟩⟩ := processFlit_some hproc
  · refine .inl ?_
    split <;> exact hq
  · obtain ⟨hdir, hdata⟩ := (rspShape_dataIn hshape).1 hin
    exact .inr ⟨hdir, f, hf, hk, haccept, hdata⟩

/-- A data word taken with room is pushed (R345). -/
theorem takeRsp_pushes {k i n : Nat} {e : Bool} {d : Dmx} {f : RspFlit} {s : State} {c : Channel} (hc : s.chans[k]? = some c)
    (hroom : c.fifo.length < s.params.fifoDepth) :
    ∃ c', (takeRsp k i n .dataIn e d f s).chans[k]? = some c' ∧ c'.fifo = c.fifo ++ [f.rdata] := by
  have hproc : processFlit s.params .dataIn i f.rdata c = some { c with fifo := c.fifo ++ [f.rdata] } := if_neg (by omega)
  rw [takeRsp_ok hc hproc]
  refine ⟨_, List.getElem?_set_self (List.getElem?_eq_some_iff.1 hc).1, ?_⟩
  split <;> rfl

/-- A tick that takes no data flit for the channel leaves its FIFO as the port does. -/
theorem ChanTick.fifo_no_data {s t : State} {k : Nat} {c0 c1 c2 c3 c4 c5 c' : Channel} (X : ChanTick s t k c0 c1 c2 c3 c4 c5 c')
    (hc : s.chans[k]? = some c0) (hno : s.params.dir k = .fromMemory → ∀ f, ¬TakesData s k c0 f) :
    c'.fifo = (portStep s.params (s.params.dir k) (s.port k) c0 c2).fifo := by
  rw [X.fsm, chanStep_fifo, ← X.fifo_after_port]
  rcases X.dmx with h | hmove
  · rw [h]
  · exact (hmove.fifo hc).resolve_right fun ⟨hdir, f, hf⟩ => hno hdir f hf

/-! ### A data flit for a FROM_MEMORY channel (R345, R373, R374) -/

/-- The FIFO of a FROM_MEMORY channel as the port leaves it: less its head if the port was ready (R374). -/
def poppedFifo (s : State) (k : Nat) (c : Channel) : List Word := if (s.port k).rready = true then c.fifo.tail else c.fifo

section
variable {s t : State} {k : Nat} {c c' : Channel} {f : RspFlit} (T : Tick s t k c c') (hdir : s.params.dir k = .fromMemory)
  (hgen : ¬GenPopped s k c) (hf : TakesData s k c f)
include T hdir hgen hf

/-- The demultiplexer takes the data flit for the channel as its port has left it. -/
theorem Tick.takes_data :
    ∃ sa c4 i n e d, sa.chans[k]? = some c4 ∧ c4.fifo = poppedFifo s k c ∧ sa.params = s.params ∧
      (∀ g ∈ (takeRsp k i n .dataIn e d f sa).faults, g ∈ t.faults) ∧
      ∃ c5, (takeRsp k i n .dataIn e d f sa).chans[k]? = some c5 ∧ c'.fifo = c5.fifo := by
  obtain ⟨hrsp, hk, haccept, hdata⟩ := hf
  obtain ⟨c2, c4, sa, hsend, -, -, h4, hc4, hp, -, -, hfaults, c5, hc5, rfl⟩ := T.dmx_step
  obtain ⟨n, kind, hshape⟩ : ∃ n kind, rspShape s.params (s.params.dir k) c.state = some (n, kind) := ⟨_, rspShape_data hdata⟩
  obtain rfl := (rspShape_dataIn hshape).2 ⟨hdir, hdata⟩
  obtain ⟨i, m, e, d, htake⟩ := dmxPhase_accepted hrsp hk T.before hshape haccept
  rw [htake] at hfaults hc5
  have hfifo : c2.fifo = c.fifo := hsend.resolve_right fun hpop => hgen hpop.1
  exact ⟨sa, c4, i, m, e, d, hc4, fifo_before_dmx hdir hfifo h4, hp, hfaults, c5, hc5, chanStep_fifo _ _ _ _ _⟩

theorem Tick.data_pushed (hroom : (poppedFifo s k c).length < s.params.fifoDepth) : c'.fifo = poppedFifo s k c ++ [f.rdata] := by
  obtain ⟨sa, c4, i, n, e, d, hc4, hq, hp, -, c5, hc5, hfifo⟩ := T.takes_data hdir hgen hf
  obtain ⟨c1, hc1, hpushed⟩ := takeRsp_pushes (i := i) (n := n) (e := e) (d := d) (f := f) hc4 (by rw [hq, hp]; exact hroom)
  obtain rfl : c5 = c1 := Option.some.inj (hc5.symm.trans hc1)
  rw [hfifo, hpushed, hq]

theorem Tick.data_overflows (hfull : s.params.fifoDepth ≤ (poppedFifo s k c).length) : .fifoOverflow ∈ t.faults := by
  obtain ⟨sa, c4, i, n, e, d, hc4, hq, hp, hfaults, -⟩ := T.takes_data hdir hgen hf
  exact hfaults _ ((takeRsp_faults hc4 _).2 (.inr ⟨rfl, rfl, by rw [hq, hp]; exact hfull⟩))

end

/-- Settles O49: the generator pops nothing, so the demultiplexer finds the FIFO as the port leaves it, and writes it only with a data flit that it takes. -/
theorem fromMemoryFifo : Obligations.FromMemoryFifo := by
  intro s t k c c' T _ hdir hsend rest taken
  have hword : ¬TakesWord s k c := fun ⟨hb, hch, htype, _⟩ => hsend ⟨hb, hch, htype⟩
  have hgen : ¬GenPopped s k c := fun h => hword (genPopped_iff.1 h).1
  refine ⟨by simp [portRvalid], rfl, fun f hf => T.data_pushed hdir hgen hf, fun f hf => T.data_overflows hdir hgen hf, fun hno => ?_⟩
  obtain ⟨c1, c2, c3, c4, c5, X⟩ := T.chanTick
  have hstays : c2.fifo = c.fifo := X.fifo_before_port.2 hword
  rw [X.fifo_no_data T.before fun _ => hno, hdir, portStep_fromMemory_fifo hstays.trans, hstays]

/-- Settles O50: the demultiplexer pushes no word for a TO_MEMORY channel, so the FIFO is as the generator and then the port leave it. -/
theorem toMemoryFifo : Obligations.ToMemoryFifo := by
  intro s t k c c' T hdir pops
  obtain ⟨c1, c2, c3, c4, c5, X⟩ := T.chanTick
  obtain ⟨hpops, hstays⟩ := X.fifo_before_port
  have hno : s.params.dir k = .fromMemory → ∀ f, ¬TakesData s k c f := fun h => by rw [hdir] at h; cases h
  rw [X.fifo_no_data T.before hno, hdir, portStep_toMemory_fifo]
  exact ⟨fun hw => by rw [hpops hw], fun hw => by rw [hstays hw]⟩

end Sys2Proof.Machine
end

section
/-!
SUPPORT. Along a run: no fault recorded at its end means none on the way (R59), a channel kept running keeps its registers (R161), and the offset of a channel moves with
the bulk bursts it consumes alone (R242); and, from these and the machine invariant, the statement about the completion of a bulk copy.
-/
namespace Sys2Proof.Machine

/-! ### The offset through one tick (R242) -/

theorem burstDone_iff {s : State} {k : Nat} {c : Channel} (hc : s.chans[k]? = some c) :
    burstDone s k = true ↔ c.state = .bulkDataMove ∧ c.answered := by
  simp [burstDone, hc, Channel.answered, and_assoc]

theorem consumeOk_offset {p : Params} {d : Direction} {c0 c : Channel} (h : c0.state ≠ .bulkDataMove) :
    (consumeOk p d c0 c).offset = c.offset := by
  unfold consumeOk
  split
  case h_1 hmove => exact absurd hmove h
  all_goals rfl

/-- chan_step writes the offset only when it consumes a bulk burst without an error. -/
theorem chanStep_offset {p : Params} {d : Direction} {x : PortIn} {c0 c : Channel} (h : ¬(c0.state = .bulkDataMove ∧ c0.answered)) :
    (chanStep p d x c0 c).offset = c.offset := by
  have m := chanStep_move p d x c0 c
  generalize chanStep p d x c0 c = c' at m
  cases m with
  | consumed t _ hready =>
    cases herr : c0.rspErr with
    | true => rw [consume_error herr]; rfl
    | false =>
      have hmove : c0.state ≠ .bulkDataMove := fun hq => h ⟨hq, hready, herr⟩
      simp [consume, herr, consumeOk_offset hmove]
  | parked => unfold leaveTerminal; split <;> rfl
  | _ => rfl

section
variable {s t : State} {k : Nat} {c c' : Channel} (T : Tick s t k c c')
include T

/-- A channel that runs before and after a tick keeps its registers (R161). -/
theorem Tick.regs_of_running (hr : c.regs.running = true) (hr' : c'.regs.running = true) : c'.regs = c.regs := by
  obtain ⟨hkept, -⟩ := runningConfigStable s t k c c' T hr
  rw [hkept, hr', ← hr]

/-- The offset of a running channel moves by a burst when it consumes one without an error, and stays otherwise. -/
theorem Tick.offset_of_running (hsafe : Safe s) (hn : NoFault t) (hr : c.regs.running = true) :
    c'.offset.toNat = c.offset.toNat + if burstDone s k then s.params.burstBytes else 0 := by
  by_cases hdone : burstDone s k = true
  · obtain ⟨hmove, hanswered⟩ := (burstDone_iff T.before).1 hdone
    obtain ⟨hoffset, -⟩ := bulkTick s t k c c' T hsafe hn hmove hanswered
    rw [hoffset, if_pos hdone]
  · obtain ⟨c1, c2, c3, c4, c5, X⟩ := T.chanTick
    obtain ⟨hkept, -⟩ := (tickKeeps_of_tick X).regs hr
    rw [X.fsm, chanStep_offset (mt (burstDone_iff T.before).2 hdone), hkept, if_neg hdone, Nat.add_zero]

end

/-! ### A run in which channel k is kept running -/

/-- The bulk bursts that channel k consumes without an error in the first i ticks of the run f. -/
def burstsConsumed (f : Nat → State) (k i : Nat) : Nat := ((List.range i).filter fun j => burstDone (f j) k).length

theorem burstsConsumed_succ (f : Nat → State) (k i : Nat) :
    burstsConsumed f k (i + 1) = burstsConsumed f k i + if burstDone (f i) k then 1 else 0 := by
  cases h : burstDone (f i) k <;> simp [burstsConsumed, List.range_succ, h]

section
variable {f : Nat → State} {n k : Nat} {c : Channel} (hrun : ∀ i < n, step (f i) = .next (f (i + 1)))

include hrun in
/-- A recorded fault stays, so a run that ends with none had none (R59). -/
theorem run_noFault (hn : NoFault (f n)) {i : Nat} (hi : i ≤ n) : NoFault (f i) := by
  induction hi using Nat.decreasingInduction with
  | self => exact hn
  | of_succ i hi ih =>
    have F := step_frame (hrun i hi)
    exact (FaultsGrow.mk F.faultsKept F.faultsOnce).noFault ih

variable (hrunning : ∀ i ≤ n, ∃ d, (f i).chans[k]? = some d ∧ d.regs.running = true) (hc : (f 0).chans[k]? = some c)
include hrun hrunning hc

/-- The registers are those of the first state all along (R161). -/
theorem run_regs {i : Nat} {d : Channel} (hi : i ≤ n) (hd : (f i).chans[k]? = some d) : d.regs = c.regs := by
  induction i generalizing d with
  | zero => rw [Option.some.inj (hd.symm.trans hc)]
  | succ i ih =>
    obtain ⟨b, hb, hr⟩ := hrunning i (Nat.le_of_succ_le hi)
    obtain ⟨d', hd', hr'⟩ := hrunning (i + 1) hi
    obtain rfl : d' = d := Option.some.inj (hd'.symm.trans hd)
    have T : Tick (f i) (f (i + 1)) k b d' := ⟨hrun i hi, hb, hd⟩
    exact (T.regs_of_running hr hr').trans (ih (Nat.le_of_succ_le hi) hb)

/-- The offset counts the bursts consumed without an error since the start at offset 0. -/
theorem run_offset (hok : MachineOk (f 0)) (hn : NoFault (f n)) (h0 : c.offset = 0) {i : Nat} {d : Channel} (hi : i ≤ n)
    (hd : (f i).chans[k]? = some d) : d.offset.toNat = burstsConsumed f k i * (f 0).params.burstBytes := by
  induction i generalizing d with
  | zero =>
    obtain rfl : c = d := Option.some.inj (hc.symm.trans hd)
    simp [h0, burstsConsumed]
  | succ i ih =>
    have hle := Nat.le_of_succ_le hi
    obtain ⟨b, hb, hr⟩ := hrunning i hle
    have hsafe : Safe (f i) := ⟨run_keeps hrun (fun _ _ => machineOk_step) hok i hle, run_noFault hrun hn hle⟩
    have hparams : (f i).params = (f 0).params :=
      run_keeps hrun (P := fun s => s.params = (f 0).params) (fun _ _ h he => (step_frame h).params.trans he) rfl i hle
    have hmoved := Tick.offset_of_running ⟨hrun i hi, hb, hd⟩ hsafe (run_noFault hrun hn hi) hr
    rw [hmoved, ih hle hb, hparams, burstsConsumed_succ]
    split <;> ring

end

/-- A running bulk channel is in SUCCESS exactly when its offset is SIZE (R243). -/
theorem RunOk.success_iff {p : Params} {c : Channel} (h : RunOk p c) (hr : c.regs.running = true) (hb : c.regs.mode.isBulk = true) :
    c.state = .success ↔ c.offset.toNat = c.regs.size.toNat := by
  refine ⟨fun hs => by rw [h.offsetEq hr hs], fun he => ?_⟩
  by_contra hs
  exact (h.offsetLt hr hb hs).ne he

/-- Settles O59: by induction on the ticks, the offset counts the bursts consumed, and the registers stay; at the end the invariant says that SUCCESS is the offset
at SIZE. -/
theorem bulkCompletion : Obligations.BulkCompletion := by
  intro f n k c hok hrun hn hrunning hc hmode h0 consumed
  refine ⟨fun i d hi hd => run_offset hrun hrunning hc hok hn h0 hi hd, fun d hd => ?_⟩
  obtain ⟨d', hd', hr⟩ := hrunning n le_rfl
  obtain rfl : d' = d := Option.some.inj (hd'.symm.trans hd)
  have hregs : d'.regs = c.regs := run_regs hrun hrunning hc le_rfl hd
  have hend : MachineOk (f n) := run_keeps hrun (fun _ _ => machineOk_step) hok n le_rfl
  have hrunOk : RunOk (f n).params d' := hend.run hn d' (List.mem_of_getElem? hd)
  have hoffset : d'.offset.toNat = consumed n * (f 0).params.burstBytes := run_offset hrun hrunning hc hok hn h0 le_rfl hd
  rw [hrunOk.success_iff hr (isBulk_iff.2 (hregs ▸ hmode)), hoffset, hregs]

end Sys2Proof.Machine
end

section
/-!
SUPPORT. What a whole tick records (R440), put together from what each of its parts records.
-/
namespace Sys2Proof.Machine

/-- The parts of a tick, from its phases. -/
theorem tickParts_of_phases {s s1 s2 s3 : State} (h1 : sendPhase s = .next s1) (h2 : commandPhase s1 = .next s2) (h3 : accessPhase s2 = .next s3) :
    ∃ sa s4, TickParts s s1 s2 s3 sa s4 (agentsPhase s s3) := by
  have S := sendPhase_step h1
  have C := commandPhase_next h2
  have A := accessPhase_next h3
  have B := arbPhase_step s (portPhase s s3)
  obtain ⟨hp, hd⟩ : s2.params = s1.params ∧ s2.dmx = s1.dmx := by obtain ⟨_, _, rfl, -⟩ := C; exact ⟨rfl, rfl⟩
  have D := dmxPhase_step (B.params.trans (A.params.trans (hp.trans S.params))) (B.dmx.trans (A.dmx.trans (hd.trans S.dmx)))
  exact ⟨_, _, S, C, A, B, rfl, D, rfl, rfl⟩

/-- Settles O29: the generator, the access, the demultiplexer and the channels record their own faults, and the other parts of the tick record none. -/
theorem faultsHaveCauses : Obligations.FaultsHaveCauses := by
  intro s t hs hh hstep f
  obtain ⟨-, s1, s2, s3, h1, h2, h3, rfl⟩ := step_phases hstep
  obtain ⟨sa, s4, P⟩ := tickParts_of_phases h1 h2 h3
  have hsame : s2.chans = s1.chans ∧ s2.params = s1.params ∧ s2.env = s1.env ∧ s2.held = s1.held ∧ s2.faults = s1.faults := by
    obtain ⟨_, _, rfl, -⟩ := P.command
    exact ⟨rfl, rfl, rfl, rfl, rfl⟩
  obtain ⟨hchans, hparams, henv, hheld, hcommand⟩ := hsame
  have harb : sa.faults = s3.faults := P.arb.faults
  rw [P.fin, endTick_faults, fsmPhase_faults, P.dmx_faults hs hh, harb, access_faults P.send ⟨hchans, hparams, henv, hheld⟩ h3, hcommand,
    send_faults h1]
  cases f <;> simp

end Sys2Proof.Machine
end

section
/-!
SUPPORT. The interrupt as a level of RUNNING, the state and MODE, and how long it is held (R425).
-/
namespace Sys2Proof.Machine

/-- The error states by name (R421). -/
theorem isError_iff {q : FsmState} : q.isError = true ↔ q = .errorLock ∨ q = .errorDescriptor ∨ q = .errorData := by
  cases q <;> simp [FsmState.isError]

theorem irq_iff (c : Channel) : irq c = true ↔ c.regs.running = true ∧
    (c.state = .errorLock ∨ c.state = .errorDescriptor ∨ c.state = .errorData ∨ (c.state = .success ∧ c.regs.mode = .bulkIrq)) := by
  simp [irq, isError_iff, or_assoc]

/-- An interrupt comes from a terminal state (R127). -/
theorem isTerminal_of_irq {c : Channel} (h : irq c = true) : c.state.isTerminal = true := by
  obtain ⟨-, h⟩ := (irq_iff c).1 h
  exact isTerminal_iff.2 (by tauto)

/-- Settles O42: a terminal state stays while RUNNING is set, and MODE with it. -/
theorem interruptLevel : Obligations.InterruptLevel := by
  refine ⟨irq_iff, fun s => List.any_eq_true, fun s t k c c' T h => ⟨fun hr' => ?_, fun hr' => by simp [irq, hr']⟩⟩
  obtain ⟨hr, hhigh⟩ := (irq_iff c).1 h
  obtain ⟨hstate, -⟩ := (terminalTick s t k c c' T (isTerminal_of_irq h)).1 hr
  rw [irq_iff, hstate, T.regs_of_running hr hr']
  exact ⟨hr, hhigh⟩

end Sys2Proof.Machine
end

section
/-!
SUPPORT. The reset state: the invariant holds in it, and its registers, working fields and outputs have the values of R460 and R461.
-/
namespace Sys2Proof.Machine

/-- Settles O55: each part of the invariant holds at reset. -/
theorem resetIsOk : Obligations.ResetIsOk := fun _ _ e hp hm hin => machineOk_reset e hp hm hin

/-- A legal FIFO has room for a word (R10). -/
theorem fifoDepth_pos {p : Params} (hp : p.Wf) : 0 < p.fifoDepth := by
  obtain ⟨-, -, -, -, -, hbytes, -, hdepth, -⟩ := hp
  unfold Params.burstWords at hdepth
  omega

/-- No port request is held and none is scripted at reset (log 19). -/
theorem resetWith_port (p : Params) (k : Nat) : (State.resetWith p).port k = PortIn.idle := rfl

theorem irqAny_resetWith (p : Params) : irqAny (State.resetWith p) = false :=
  List.any_eq_false.2 fun c hc => by rw [eq_reset_of_mem hc]; exact Bool.false_ne_true

/-- Settles O56: every channel is Channel.reset, and the outputs follow from its fields. -/
theorem resetValues : Obligations.ResetValues := by
  intro p hp s
  refine ⟨List.length_replicate, List.length_replicate, rfl, fun c hc => ?_, fun w hw => List.eq_of_mem_replicate hw, rfl, rfl,
    fun k => congrArg PortIn.req (resetWith_port p k), irqAny_resetWith p, rfl, rfl⟩
  rw [eq_reset_of_mem hc]
  have hready : portWready p Channel.reset.fifo = true := decide_eq_true (fifoDepth_pos hp)
  exact ⟨rfl, rfl, rfl, rfl, rfl, rfl, rfl, rfl, rfl, rfl, rfl, rfl, rfl, rfl, rfl, rfl, rfl, rfl, rfl, rfl, rfl, rfl, rfl, hready⟩

end Sys2Proof.Machine
end
